-- ==== Sys2Proof/Word.lean ====
section
/-! DEFINITION. The value types of the FFTU: the scalar `F` (40_numerics.md R100), the complex sample (00_scope.md R10,
10_state.md R21), the 128-bit word of the ports (10_state.md R34), register numbers, addresses and the direction. -/

namespace Sys2Proof

/-- The scalar type `F`: the 64 bits of an IEEE 754 binary64 datum (R100). -/
abbrev F := BitVec 64

/-- A complex value over any scalar type, `(re, im)`: "Immutable value type; no identity beyond its two components" (R10).
The hardware takes `R = F`; the ideal instantiation of R180 takes the real numbers. -/
structure Cx (R : Type) where
  re : R
  im : R
  deriving DecidableEq, Repr, Inhabited

/-- A complex sample: the pair of binary64 data that a register or a memory word holds (R21, R34). -/
abbrev Sample := Cx F

/-- A 128-bit word as it crosses the SM port, and a 128-bit command descriptor (R34, R70). -/
abbrev Word := BitVec 128

/-- A 32-bit field of a descriptor: an address, a twiddle index or a length (R71). -/
abbrev Word32 := BitVec 32

/-- A register number; all sixteen values name a register (R21, R72). -/
abbrev Reg := Fin 16

/-- The direction of a transform or of a twiddle factor: `dir = 0` forward, `dir = 1` inverse (R15, R72). -/
inductive Dir where
  | forward
  | inverse
  deriving DecidableEq, Repr, Inhabited

/-- Where, in a run, one scalar operation is performed: the serial number of the command and the place of the operation
inside the command.  It selects the free value of a NaN result (R105: `NANBITS` "may depend on anything"). -/
structure Draw where
  serial : Nat
  site   : List Nat
  deriving DecidableEq, Repr, Inhabited

/-- The `i`-th place inside the place `d`. -/
def Draw.at (d : Draw) (i : Nat) : Draw := { d with site := i :: d.site }

end Sys2Proof
end

