-- ==== Sys2Proof/Syntax.lean ====
section
/-! DEFINITION. The operation set of the unit: one constructor per row of spec/opcode_table.json, with the operands its format
uses (30_encoding.md R73, R78).  There are thirteen operations and no other. -/

namespace Sys2Proof

/-- A command.  Address, index and length operands are the 32-bit fields of the descriptor (R71); `a` is the source address
of a sequence operation, the address of `cld` and `cst`; `k` is the field `a` read as a twiddle index (R72). -/
inductive Instr where
  /-- NOP, format Z (R132) -/
  | nop
  /-- CADD `cd, ca, cb`, format R3 (R133) -/
  | cadd (rd ra rb : Reg)
  /-- CSUB `cd, ca, cb`, format R3 (R134) -/
  | csub (rd ra rb : Reg)
  /-- CMUL `cd, ca, cb`, format R3 (R135) -/
  | cmul (rd ra rb : Reg)
  /-- CDIVN `cd, ca, N`, format RN (R136) -/
  | cdivn (rd ra : Reg) (len : Word32)
  /-- TWID `cd, k, N, F|I`, format T1 (R142) -/
  | twid (rd : Reg) (dir : Dir) (k len : Word32)
  /-- TWMUL `cd, ca, k, N, F|I`, format T2 (R143) -/
  | twmul (rd ra : Reg) (dir : Dir) (k len : Word32)
  /-- BFLY `cd, cd2, ca, cb, k, N, F|I`, format T4 (R144) -/
  | bfly (rd rd2 ra rb : Reg) (dir : Dir) (k len : Word32)
  /-- CLD `cd, [addr]`, format ML (R150) -/
  | cld (rd : Reg) (a : Word32)
  /-- CST `ca, [addr]`, format MS (R151) -/
  | cst (ra : Reg) (a : Word32)
  /-- BITREV `[dst], [src], N`, format S (R158); `a` is the source, `b` the destination -/
  | bitrev (a b len : Word32)
  /-- FFT `[dst], [src], N`, format X with `dir = 0` (R170) -/
  | fft (a b len : Word32)
  /-- IFFT `[dst], [src], N`, format X with `dir = 1` (R171) -/
  | ifft (a b len : Word32)
  deriving DecidableEq, Repr

end Sys2Proof
end

