-- ==== Sys2Proof/WellFormed.lean ====
section
/-! DEFINITION. Which commands have an encoding (30_encoding.md R79, R80).  Register numbers, 32-bit fields and the direction
bit are bounded by their types; the one check left is R80 (c). -/

namespace Sys2Proof

/-- BFLY with `rd = rd2` is an illegal encoding, "because two results cannot be written to one register" (R80c); every other
command with operands in the range of their fields is legal. -/
def Instr.wellFormed : Instr → Bool
  | .nop => true
  | .cadd _ _ _ => true
  | .csub _ _ _ => true
  | .cmul _ _ _ => true
  | .cdivn _ _ _ => true
  | .twid _ _ _ _ => true
  | .twmul _ _ _ _ _ => true
  | .bfly rd rd2 _ _ _ _ _ => rd != rd2
  | .cld _ _ => true
  | .cst _ _ => true
  | .bitrev _ _ _ => true
  | .fft _ _ _ => true
  | .ifft _ _ _ => true

/-- The command has an encoding. -/
abbrev WellFormed (i : Instr) : Prop := i.wellFormed = true

end Sys2Proof
end

