-- ==== Sys2Proof/Decode.lean ====
section
/-! DEFINITION. Decoding of the 128-bit descriptor, total on all `2^128` of them (30_encoding.md R70 to R73, R78 to R80), and
the encoder written from the same tables. -/

namespace Sys2Proof

/-! Field positions, the same in every format (R71). -/

def opField (D : Word) : BitVec 8 := D.extractLsb' 120 8
def rdBits (D : Word) : BitVec 4 := D.extractLsb' 116 4
def rd2Bits (D : Word) : BitVec 4 := D.extractLsb' 112 4
def raBits (D : Word) : BitVec 4 := D.extractLsb' 108 4
def rbBits (D : Word) : BitVec 4 := D.extractLsb' 104 4
def rsvBits (D : Word) : BitVec 7 := D.extractLsb' 97 7
def dirBit (D : Word) : BitVec 1 := D.extractLsb' 96 1
def aField (D : Word) : Word32 := D.extractLsb' 64 32
def bField (D : Word) : Word32 := D.extractLsb' 32 32
def lenField (D : Word) : Word32 := D.extractLsb' 0 32

/-- A register field of value `i` names `c[i]` (R72). -/
def regOf (b : BitVec 4) : Reg := b.toFin
def regBits (r : Reg) : BitVec 4 := BitVec.ofFin r

/-- `dir = 0` selects forward, `dir = 1` inverse (R72). -/
def dirOf (b : BitVec 1) : Dir := if b = 0#1 then .forward else .inverse
def dirBits : Dir → BitVec 1
  | .forward => 0#1
  | .inverse => 1#1

/-- The formats of R73. -/
inductive Format where
  | Z | R3 | RN | T1 | T2 | T4 | ML | MS | S | X
  deriving DecidableEq, Repr

/-- Which of the fields `rd rd2 ra rb dir a b len` an operation uses; `rsv` is used by none (R73). -/
structure Uses where
  rd  : Bool := false
  rd2 : Bool := false
  ra  : Bool := false
  rb  : Bool := false
  dir : Bool := false
  a   : Bool := false
  b   : Bool := false
  len : Bool := false
  deriving DecidableEq, Repr

/-- The column "used fields" of R73. -/
def Format.uses : Format → Uses
  | .Z => {}
  | .R3 => { rd := true, ra := true, rb := true }
  | .RN => { rd := true, ra := true, len := true }
  | .T1 => { rd := true, dir := true, a := true, len := true }
  | .T2 => { rd := true, ra := true, dir := true, a := true, len := true }
  | .T4 => { rd := true, rd2 := true, ra := true, rb := true, dir := true, a := true, len := true }
  | .ML => { rd := true, a := true }
  | .MS => { ra := true, a := true }
  | .S => { a := true, b := true, len := true }
  | .X => { dir := true, a := true, b := true, len := true }

/-- Every field the format does not use is zero, `rsv` always among them (R73, R80b). -/
def unusedZero (u : Uses) (D : Word) : Bool :=
  (u.rd || rdBits D == 0#4) && (u.rd2 || rd2Bits D == 0#4) && (u.ra || raBits D == 0#4) && (u.rb || rbBits D == 0#4) &&
  (rsvBits D == 0#7) && (u.dir || dirBit D == 0#1) && (u.a || aField D == 0#32) && (u.b || bField D == 0#32) &&
  (u.len || lenField D == 0#32)

/-- Why a descriptor is illegal (R80): each leads to the one response `ERR_ILLEGAL` (R211). -/
inductive Illegal where
  /-- R80 (a): an `op` value that names no operation -/
  | unknownOpcode
  /-- R80 (b): a non-zero bit in a field the format does not use -/
  | unusedFieldNotZero
  /-- R80 (c): BFLY with `rd = rd2` -/
  | sameDestination
  deriving DecidableEq, Repr

/-- The command `i`, if every field its format does not use is zero. -/
def inFormat (f : Format) (D : Word) (i : Instr) : Except Illegal Instr :=
  if unusedZero f.uses D then .ok i else .error .unusedFieldNotZero

/-- Decoding by R79 and the opcode map of R78; reads no state. -/
def decode (D : Word) : Except Illegal Instr :=
  let rd := regOf (rdBits D)
  let rd2 := regOf (rd2Bits D)
  let ra := regOf (raBits D)
  let rb := regOf (rbBits D)
  let dir := dirOf (dirBit D)
  let a := aField D
  let b := bField D
  let len := lenField D
  match opField D with
  | 0x00#8 => inFormat .Z D .nop
  | 0x01#8 => inFormat .R3 D (.cadd rd ra rb)
  | 0x02#8 => inFormat .R3 D (.csub rd ra rb)
  | 0x03#8 => inFormat .R3 D (.cmul rd ra rb)
  | 0x04#8 => inFormat .RN D (.cdivn rd ra len)
  | 0x08#8 => inFormat .T1 D (.twid rd dir a len)
  | 0x09#8 => inFormat .T2 D (.twmul rd ra dir a len)
  | 0x0A#8 =>
    if unusedZero (Format.uses .T4) D then
      if rd = rd2 then .error .sameDestination else .ok (.bfly rd rd2 ra rb dir a len)
    else .error .unusedFieldNotZero
  | 0x10#8 => inFormat .ML D (.cld rd a)
  | 0x11#8 => inFormat .MS D (.cst ra a)
  | 0x18#8 => inFormat .S D (.bitrev a b len)
  | 0x20#8 => inFormat .X D (match dir with | .forward => .fft a b len | .inverse => .ifft a b len)
  | _ => .error .unknownOpcode

/-- The operands of a command as the fields of R71, those a format does not use left at zero. -/
structure Fields where
  rd  : Reg := 0
  rd2 : Reg := 0
  ra  : Reg := 0
  rb  : Reg := 0
  dir : Dir := .forward
  a   : Word32 := 0#32
  b   : Word32 := 0#32
  len : Word32 := 0#32

/-- The descriptor with the given opcode and fields, laid out by R71 with `rsv` zero. -/
def pack (op : BitVec 8) (f : Fields) : Word :=
  op ++ regBits f.rd ++ regBits f.rd2 ++ regBits f.ra ++ regBits f.rb ++ 0#7 ++ dirBits f.dir ++ f.a ++ f.b ++ f.len

/-- The descriptor of a command (R71, R73, R78). -/
def encode : Instr → Word
  | .nop => pack 0x00#8 {}
  | .cadd rd ra rb => pack 0x01#8 { rd := rd, ra := ra, rb := rb }
  | .csub rd ra rb => pack 0x02#8 { rd := rd, ra := ra, rb := rb }
  | .cmul rd ra rb => pack 0x03#8 { rd := rd, ra := ra, rb := rb }
  | .cdivn rd ra len => pack 0x04#8 { rd := rd, ra := ra, len := len }
  | .twid rd dir k len => pack 0x08#8 { rd := rd, dir := dir, a := k, len := len }
  | .twmul rd ra dir k len => pack 0x09#8 { rd := rd, ra := ra, dir := dir, a := k, len := len }
  | .bfly rd rd2 ra rb dir k len =>
    pack 0x0A#8 { rd := rd, rd2 := rd2, ra := ra, rb := rb, dir := dir, a := k, len := len }
  | .cld rd a => pack 0x10#8 { rd := rd, a := a }
  | .cst ra a => pack 0x11#8 { ra := ra, a := a }
  | .bitrev a b len => pack 0x18#8 { a := a, b := b, len := len }
  | .fft a b len => pack 0x20#8 { dir := .forward, a := a, b := b, len := len }
  | .ifft a b len => pack 0x20#8 { dir := .inverse, a := a, b := b, len := len }

/-- A row of spec/opcode_table.json: the descriptors of an operation are those with `D & mask = match`. -/
structure TableRow where
  mask    : Word
  pattern : Word
  deriving DecidableEq, Repr

/-- The row of spec/opcode_table.json a command belongs to. -/
def tableRow : Instr → TableRow
  | .nop => ⟨0xFFFFFFFFFFFFFFFFFFFFFFFFFFFFFFFF#128, 0x00000000000000000000000000000000#128⟩
  | .cadd _ _ _ => ⟨0xFF0F00FFFFFFFFFFFFFFFFFFFFFFFFFF#128, 0x01000000000000000000000000000000#128⟩
  | .csub _ _ _ => ⟨0xFF0F00FFFFFFFFFFFFFFFFFFFFFFFFFF#128, 0x02000000000000000000000000000000#128⟩
  | .cmul _ _ _ => ⟨0xFF0F00FFFFFFFFFFFFFFFFFFFFFFFFFF#128, 0x03000000000000000000000000000000#128⟩
  | .cdivn _ _ _ => ⟨0xFF0F0FFFFFFFFFFFFFFFFFFF00000000#128, 0x04000000000000000000000000000000#128⟩
  | .twid _ _ _ _ => ⟨0xFF0FFFFE00000000FFFFFFFF00000000#128, 0x08000000000000000000000000000000#128⟩
  | .twmul _ _ _ _ _ => ⟨0xFF0F0FFE00000000FFFFFFFF00000000#128, 0x09000000000000000000000000000000#128⟩
  | .bfly _ _ _ _ _ _ _ => ⟨0xFF0000FE00000000FFFFFFFF00000000#128, 0x0A000000000000000000000000000000#128⟩
  | .cld _ _ => ⟨0xFF0FFFFF00000000FFFFFFFFFFFFFFFF#128, 0x10000000000000000000000000000000#128⟩
  | .cst _ _ => ⟨0xFFFF0FFF00000000FFFFFFFFFFFFFFFF#128, 0x11000000000000000000000000000000#128⟩
  | .bitrev _ _ _ => ⟨0xFFFFFFFF000000000000000000000000#128, 0x18000000000000000000000000000000#128⟩
  | .fft _ _ _ => ⟨0xFFFFFFFF000000000000000000000000#128, 0x20000000000000000000000000000000#128⟩
  | .ifft _ _ _ => ⟨0xFFFFFFFF000000000000000000000000#128, 0x20000001000000000000000000000000#128⟩

/-- The descriptor whose bits are `w`, numbered as spec/opcode_table.json numbers them: the whole descriptor is one number
with `D[0]` its least significant bit; bits at or above `nbits` are zero. -/
def tableWord (nbits w : Nat) : Word := BitVec.ofNat 128 (w % 2 ^ nbits)

/-- What the decoder reads from the table word `w`; none where the descriptor is illegal. -/
def decodeTableWord (nbits w : Nat) : Option Instr := (decode (tableWord nbits w)).toOption

end Sys2Proof
end

