-- ==== Sys2Proof/Machine/Binary64.lean ====
section
/-! DEFINITION. The binary64 format (40_numerics.md R100, R101) and rounding to nearest even (R102), in exact integer
arithmetic.  A finite magnitude is counted in UNITS of the least positive subnormal, `2^-1074`; every finite pattern is a
whole number of units, and the only rounding in the model is `roundMag`. -/

namespace Sys2Proof.Machine

/-- The sign `s = v[63]` (R100); true is minus. -/
def signBit (x : F) : Bool := x.getLsbD 63

/-- The biased exponent `e = v[62:52]` (R100). -/
def expField (x : F) : Nat := (x.extractLsb' 52 11).toNat

/-- The fraction `f = v[51:0]` (R100). -/
def fracField (x : F) : Nat := (x.extractLsb' 0 52).toNat

/-- The row "NaN" of R101. -/
def isNaN (x : F) : Bool := expField x == 2047 && fracField x != 0

/-- A quiet NaN: `f[51] = 1` (R101). -/
def isQuietNaN (x : F) : Bool := isNaN x && x.getLsbD 51

/-- The row "infinity" of R101. -/
def isInf (x : F) : Bool := expField x == 2047 && fracField x == 0

/-- A zero, a subnormal or a normal number (R101). -/
def isFinite (x : F) : Bool := expField x != 2047

/-- The row "zero" of R101, either sign. -/
def isZero (x : F) : Bool := expField x == 0 && fracField x == 0

/-- The magnitude of a finite pattern in units of `2^-1074` (R101): `f` for a zero or subnormal, `(2^52 + f) * 2^(e-1)`
for a normal number. -/
def units (x : F) : Nat :=
  if expField x = 0 then fracField x else (2 ^ 52 + fracField x) * 2 ^ (expField x - 1)

/-- The signed value of a finite pattern in units of `2^-1074`. -/
def signedUnits (x : F) : Int := if signBit x then -(units x : Int) else (units x : Int)

/-- The number a finite pattern stands for (R101). -/
def value (x : F) : ℚ := (signedUnits x : ℚ) / (2 : ℚ) ^ 1074

/-- The 63-bit pattern of an infinity. -/
def infMag : Nat := 0x7FF0000000000000

/-- The pattern with the given sign and the given lower 63 bits. -/
def ofSignMag (neg : Bool) (mag : Nat) : F := BitVec.ofNat 64 ((if neg then 0x8000000000000000 else 0) + mag)

/-- `+0` (R101). -/
def posZero : F := 0x0000000000000000#64
/-- `-0` (R101). -/
def negZero : F := 0x8000000000000000#64
/-- `1.0` (R101). -/
def one : F := 0x3FF0000000000000#64

/-- `num / den` rounded to the nearest integer, ties to even (R102). -/
def roundHalfEven (num den : Nat) : Nat :=
  let q := num / den
  let r := num % den
  if 2 * r < den then q else if den < 2 * r then q + 1 else q + q % 2

/-- The lower 63 bits of the binary64 number nearest the magnitude `num / den` units (R102), an infinity when the rounded
magnitude exceeds the greatest finite number (R104a).  With `drop` low bits dropped, the significand `m` lies in
`[2^52, 2^53]` and the pattern is `drop * 2^52 + m`; with nothing dropped the pattern is `m` itself, subnormals included
(R104b: gradual underflow). -/
def roundMag (num den : Nat) : Nat :=
  let drop := Nat.log2 (num / den) - 52
  min (drop * 2 ^ 52 + roundHalfEven num (den * 2 ^ drop)) infMag

/-- The binary64 number of sign `neg` nearest the magnitude `num / den` units (R102, R104a, R104b). -/
def roundUnits (neg : Bool) (num den : Nat) : F := ofSignMag neg (roundMag num den)

/-- `fneg`: flips the sign bit and changes nothing else (R102). -/
def fneg (x : F) : F := x ^^^ 0x8000000000000000#64

/-- A quiet NaN whose sign is bit 51 of `b` and whose other fraction bits are the rest of `b` (R105). -/
def quietNaN (b : BitVec 52) : F :=
  b.extractLsb' 51 1 ++ (0xFFF : BitVec 12) ++ b.extractLsb' 0 51

/-- The place of a pattern that is not a NaN in the numeric order, equal for the two zeros (R15: numeric equality, R199:
as IEEE 754 compares). -/
def orderKey (x : F) : Int :=
  if signBit x then -((x.extractLsb' 0 63).toNat : Int) else ((x.extractLsb' 0 63).toNat : Int)

/-- Numeric equality of R15: as IEEE 754 compares, so `-0` equals `+0` and a NaN equals nothing. -/
def numEq (x y : F) : Bool := !isNaN x && !isNaN y && orderKey x == orderKey y

/-- `x > y` as IEEE 754 compares (R199); false when either is a NaN. -/
def numGt (x y : F) : Bool := !isNaN x && !isNaN y && decide (orderKey y < orderKey x)

/-- One step down of the integer square root of `a`: bits `n-1 … 0` are tried on top of `acc`. -/
def isqrtFrom (a : Nat) : Nat → Nat → Nat
  | 0, acc => acc
  | n + 1, acc =>
    let t := acc + 2 ^ n
    if t * t ≤ a then isqrtFrom a n t else isqrtFrom a n acc

/-- The integer square root of `a`, for `a < 2^3200`: above every magnitude `fsqrt` meets. -/
def isqrt (a : Nat) : Nat := isqrtFrom a 1600 0

end Sys2Proof.Machine
end

