-- ==== Sys2Proof/Laws/Binary64.lean ====
section
/-! SUPPORT. The fields of a pattern built by `ofSignMag`: the three fields of R100 read back from a sign and 63 bits. -/

namespace Sys2Proof.Machine

theorem ofSignMag_toNat (neg : Bool) {m : Nat} (h : m < 2 ^ 63) :
    (ofSignMag neg m).toNat = (if neg then 2 ^ 63 else 0) + m := by
  unfold ofSignMag
  rw [BitVec.toNat_ofNat, Nat.mod_eq_of_lt]
  · cases neg <;> simp
  · cases neg <;> simp <;> omega

theorem expField_eq (x : F) : expField x = x.toNat / 2 ^ 52 % 2 ^ 11 := by
  simp [expField, Nat.shiftRight_eq_div_pow]

theorem fracField_eq (x : F) : fracField x = x.toNat % 2 ^ 52 := by
  simp [fracField]

theorem signBit_eq (x : F) : signBit x = decide (2 ^ 63 ≤ x.toNat) := by
  have hx := x.isLt
  rw [signBit, ← BitVec.testBit_toNat, Nat.testBit_eq_decide_div_mod_eq]
  congr 1
  apply propext
  omega

theorem expField_ofSignMag (neg : Bool) {m : Nat} (h : m < 2 ^ 63) : expField (ofSignMag neg m) = m / 2 ^ 52 := by
  rw [expField_eq, ofSignMag_toNat neg h]
  cases neg <;> simp <;> omega

theorem fracField_ofSignMag (neg : Bool) {m : Nat} (h : m < 2 ^ 63) : fracField (ofSignMag neg m) = m % 2 ^ 52 := by
  rw [fracField_eq, ofSignMag_toNat neg h]
  cases neg <;> simp <;> omega

theorem signBit_ofSignMag (neg : Bool) {m : Nat} (h : m < 2 ^ 63) : signBit (ofSignMag neg m) = neg := by
  rw [signBit_eq, ofSignMag_toNat neg h]
  cases neg <;> simp <;> omega

end Sys2Proof.Machine
end

