-- ==== Sys2Proof/Machine/RationalTrig.lean ====
section
/-! DEFINITION. Rational partial sums of cosine and sine, and the same sums in integers.  Nothing is trusted about them
(40_numerics.md R120): they exhibit a twiddle generator, and they find the correctly rounded value of R118 where their proved
error decides it. -/

namespace Sys2Proof.Machine

/-- A rational within `10^-20` below π. -/
def piLower : ℚ := 314159265358979323846 / 100000000000000000000

/-- The first `n` terms of the cosine series at `t`. -/
def cosSum (t : ℚ) : Nat → ℚ
  | 0 => 0
  | n + 1 => cosSum t n + (-1) ^ n * t ^ (2 * n) / (2 * n).factorial

/-- The first `n` terms of the sine series at `t`. -/
def sinSum (t : ℚ) : Nat → ℚ
  | 0 => 0
  | n + 1 => sinSum t n + (-1) ^ n * t ^ (2 * n + 1) / (2 * n + 1).factorial

/-- The numerator of `cosSum (a / B) n` over `B^(2n) * (2n)!`. -/
def cosNum (a B : Nat) : Nat → Int
  | 0 => 0
  | n + 1 =>
    (cosNum a B n + (if n % 2 = 0 then ((a ^ (2 * n) : Nat) : Int) else -((a ^ (2 * n) : Nat) : Int))) *
      ((B ^ 2 * ((2 * n + 1) * (2 * n + 2)) : Nat) : Int)

/-- The numerator of `sinSum (a / B) n` over `B^(2n) * (2n)!`. -/
def sinNum (a B : Nat) : Nat → Int
  | 0 => 0
  | n + 1 =>
    (sinNum a B n * ((B * (2 * n + 1) : Nat) : Int) +
        (if n % 2 = 0 then ((a ^ (2 * n + 1) : Nat) : Int) else -((a ^ (2 * n + 1) : Nat) : Int))) *
      ((B * (2 * n + 2) : Nat) : Int)

/-- `(2n)!`, the factorial part of the denominator, by the recursion that evaluates. -/
def evenFactorial : Nat → Nat
  | 0 => 1
  | n + 1 => evenFactorial n * ((2 * n + 1) * (2 * n + 2))

/-- The common denominator `B^(2n) * (2n)!` of the two sums. -/
def seriesDen (B n : Nat) : Nat := B ^ (2 * n) * evenFactorial n

/-- The angle `2πk/N` with the rational stand-in for π. -/
def angleQ (k N : Nat) : ℚ := 2 * piLower * k / N

end Sys2Proof.Machine
end

