-- ==== Sys2Proof/Laws/CosineSeries.lean ====
section
/-! SUPPORT. How far the partial sums of Machine/RationalTrig.lean are from the cosine and the sine, and that the sums in
integers are the same numbers. -/

namespace Sys2Proof.Machine

open Finset in
theorem exp_partial_sum (t : ℚ) (n : Nat) :
    ∑ m ∈ range (2 * n), ((t : ℂ) * Complex.I) ^ m / (m.factorial : ℂ) =
      ((cosSum t n : ℚ) : ℂ) + ((sinSum t n : ℚ) : ℂ) * Complex.I := by
  induction n with
  | zero => simp [cosSum, sinSum]
  | succ n ih =>
    have hI : Complex.I ^ (2 * n) = (-1) ^ n := by rw [pow_mul, Complex.I_sq]
    rw [show 2 * (n + 1) = 2 * n + 1 + 1 by ring, sum_range_succ, sum_range_succ, ih, cosSum, sinSum, mul_pow, mul_pow,
      pow_succ Complex.I, hI]
    push_cast
    ring

/-- The error of `n` terms, for an argument of at most `n + 1/2` in magnitude. -/
theorem exp_partial_sum_bound {t : ℚ} {n : ℕ} (h : 2 * |(t : ℝ)| ≤ 2 * n + 1) :
    ‖Complex.exp ((t : ℂ) * Complex.I) - (((cosSum t n : ℚ) : ℂ) + ((sinSum t n : ℚ) : ℂ) * Complex.I)‖ ≤
      |(t : ℝ)| ^ (2 * n) / ((2 * n).factorial : ℝ) * 2 := by
  have hn : ‖(t : ℂ) * Complex.I‖ = |(t : ℝ)| := by
    rw [norm_mul, Complex.norm_I, mul_one, show (t : ℂ) = ((t : ℝ) : ℂ) by push_cast; rfl, Complex.norm_real, Real.norm_eq_abs]
  have hb := Complex.exp_bound' (x := (t : ℂ) * Complex.I) (n := 2 * n) (by
    rw [hn, div_le_iff₀ (by positivity)]
    push_cast
    linarith)
  rwa [exp_partial_sum t n, hn] at hb

theorem cosSum_bound {t : ℚ} {n : ℕ} (h : 2 * |(t : ℝ)| ≤ 2 * n + 1) :
    |Real.cos t - (cosSum t n : ℚ)| ≤ |(t : ℝ)| ^ (2 * n) / ((2 * n).factorial : ℝ) * 2 := by
  have := le_trans (Complex.abs_re_le_norm _) (exp_partial_sum_bound h)
  rw [show (t : ℂ) = ((t : ℝ) : ℂ) by push_cast; rfl] at this
  simpa only [Complex.sub_re, Complex.add_re, Complex.mul_re, Complex.exp_ofReal_mul_I_re, Complex.I_re, Complex.I_im,
    Complex.ratCast_re, Complex.ratCast_im, mul_zero, zero_mul, sub_zero, add_zero] using this

theorem sinSum_bound {t : ℚ} {n : ℕ} (h : 2 * |(t : ℝ)| ≤ 2 * n + 1) :
    |Real.sin t - (sinSum t n : ℚ)| ≤ |(t : ℝ)| ^ (2 * n) / ((2 * n).factorial : ℝ) * 2 := by
  have := le_trans (Complex.abs_im_le_norm _) (exp_partial_sum_bound h)
  rw [show (t : ℂ) = ((t : ℝ) : ℂ) by push_cast; rfl] at this
  simpa only [Complex.sub_im, Complex.add_im, Complex.mul_im, Complex.exp_ofReal_mul_I_im, Complex.I_re, Complex.I_im,
    Complex.ratCast_re, Complex.ratCast_im, mul_one, zero_mul, zero_add, mul_zero, add_zero] using this

theorem series_bound_24 {x : ℝ} (h : |x| ≤ 4) : |x| ^ (2 * 24) / ((2 * 24).factorial : ℝ) * 2 ≤ 2 ^ (-(62 : ℤ)) := by
  have : |x| ^ (2 * 24) ≤ 4 ^ (2 * 24) := pow_le_pow_left₀ (abs_nonneg _) h _
  calc |x| ^ (2 * 24) / ((2 * 24).factorial : ℝ) * 2 ≤ 4 ^ (2 * 24) / ((2 * 24).factorial : ℝ) * 2 := by gcongr
    _ ≤ 2 ^ (-(62 : ℤ)) := by norm_num [Nat.factorial]

theorem cosSum_error {t : ℚ} (h : |(t : ℝ)| ≤ 4) : |Real.cos t - (cosSum t 24 : ℚ)| ≤ 2 ^ (-(62 : ℤ)) :=
  le_trans (cosSum_bound (by push_cast; linarith)) (series_bound_24 h)

theorem sinSum_error {t : ℚ} (h : |(t : ℝ)| ≤ 4) : |Real.sin t - (sinSum t 24 : ℚ)| ≤ 2 ^ (-(62 : ℤ)) :=
  le_trans (sinSum_bound (by push_cast; linarith)) (series_bound_24 h)

/-! ## The sums in integers -/

theorem evenFactorial_eq (n : ℕ) : evenFactorial n = (2 * n).factorial := by
  induction n with
  | zero => rfl
  | succ n ih =>
    rw [evenFactorial, ih, show 2 * (n + 1) = 2 * n + 1 + 1 by ring, Nat.factorial_succ, Nat.factorial_succ]
    ring

theorem seriesDen_pos {B : ℕ} (hB : 0 < B) (n : ℕ) : 0 < seriesDen B n := by
  rw [seriesDen, evenFactorial_eq]; positivity

theorem alternating (n : ℕ) (x : ℕ) :
    ((if n % 2 = 0 then (x : Int) else -(x : Int) : Int) : ℚ) = (-1) ^ n * x := by
  rcases Nat.mod_two_eq_zero_or_one n with h | h
  · rw [if_pos h, Even.neg_one_pow (Nat.even_iff.mpr h)]; simp
  · rw [if_neg (by omega), Odd.neg_one_pow (Nat.odd_iff.mpr h)]; simp

theorem cosNum_eq (a : ℕ) {B : ℕ} (hB : 0 < B) (n : ℕ) : (cosNum a B n : ℚ) / seriesDen B n = cosSum (a / B) n := by
  have hB' : (B : ℚ) ≠ 0 := by exact_mod_cast hB.ne'
  induction n with
  | zero => simp [cosNum, cosSum]
  | succ n ih =>
    have hf : (evenFactorial n : ℚ) ≠ 0 := by rw [evenFactorial_eq]; exact_mod_cast (Nat.factorial_pos _).ne'
    rw [cosSum, ← ih, cosNum, seriesDen, seriesDen, evenFactorial, ← evenFactorial_eq, Int.cast_mul, Int.cast_add,
      alternating]
    push_cast
    rw [div_pow, show 2 * (n + 1) = 2 * n + 2 by ring, pow_add]
    field_simp

theorem sinNum_eq (a : ℕ) {B : ℕ} (hB : 0 < B) (n : ℕ) : (sinNum a B n : ℚ) / seriesDen B n = sinSum (a / B) n := by
  have hB' : (B : ℚ) ≠ 0 := by exact_mod_cast hB.ne'
  induction n with
  | zero => simp [sinNum, sinSum]
  | succ n ih =>
    have hf : (evenFactorial n : ℚ) ≠ 0 := by rw [evenFactorial_eq]; exact_mod_cast (Nat.factorial_pos _).ne'
    rw [sinSum, ← ih, sinNum, seriesDen, seriesDen, evenFactorial, Nat.factorial_succ, ← evenFactorial_eq, Int.cast_mul,
      Int.cast_add, alternating]
    push_cast
    rw [div_pow, show 2 * (n + 1) = 2 * n + 2 by ring, pow_add, pow_succ (B : ℚ)]
    field_simp
    ring

theorem angleQ_bound {k N : Nat} (h : k < N / 2) : |(angleQ k N : ℝ)| ≤ 4 := by
  have hN : (0 : ℝ) < N := by exact_mod_cast (by omega : 0 < N)
  have hk : 2 * (k : ℝ) ≤ N := by exact_mod_cast (by omega : 2 * k ≤ N)
  unfold angleQ piLower
  push_cast
  rw [abs_of_nonneg (by positivity), div_le_iff₀ hN]
  nlinarith

theorem angleQ_error {k N : Nat} (h : k < N / 2) : |2 * Real.pi * k / N - (angleQ k N : ℝ)| ≤ 2 ^ (-(62 : ℤ)) := by
  have hN : (0 : ℝ) < N := by exact_mod_cast (by omega : 0 < N)
  have hk : 2 * (k : ℝ) ≤ N := by exact_mod_cast (by omega : 2 * k ≤ N)
  have h1 := Real.pi_gt_d20
  have h2 := Real.pi_lt_d20
  have e : 2 * Real.pi * k / N - (angleQ k N : ℝ) = (Real.pi - (piLower : ℝ)) * (2 * k / N) := by
    unfold angleQ; push_cast; ring
  have hd : |Real.pi - (piLower : ℝ)| ≤ 2 ^ (-(62 : ℤ)) := by
    unfold piLower
    rw [abs_le]
    constructor <;> norm_num at * <;> linarith
  have hq : |2 * (k : ℝ) / N| ≤ 1 := by
    rw [abs_of_nonneg (by positivity), div_le_iff₀ hN]; linarith
  rw [e, abs_mul]
  exact le_trans (mul_le_of_le_one_right (abs_nonneg _) hq) hd

/-- Cosine and sine of the exact angle `2πk/N` against the rational partial sums. -/
theorem cos_approx {k N : Nat} (h : k < N / 2) :
    |Real.cos (2 * Real.pi * k / N) - (cosSum (angleQ k N) 24 : ℚ)| ≤ 2 ^ (-(61 : ℤ)) := by
  have h1 := le_trans (Real.abs_cos_sub_cos_le _ _) (angleQ_error h)
  have h2 := cosSum_error (angleQ_bound h)
  have := abs_sub_le (Real.cos (2 * Real.pi * k / N)) (Real.cos (angleQ k N)) (cosSum (angleQ k N) 24 : ℚ)
  norm_num at *
  linarith

theorem sin_approx {k N : Nat} (h : k < N / 2) :
    |Real.sin (2 * Real.pi * k / N) - (sinSum (angleQ k N) 24 : ℚ)| ≤ 2 ^ (-(61 : ℤ)) := by
  have h1 := le_trans (Real.abs_sin_sub_sin_le _ _) (angleQ_error h)
  have h2 := sinSum_error (angleQ_bound h)
  have := abs_sub_le (Real.sin (2 * Real.pi * k / N)) (Real.sin (angleQ k N)) (sinSum (angleQ k N) 24 : ℚ)
  norm_num at *
  linarith

end Sys2Proof.Machine
end

