-- ==== Sys2Proof/Machine/Integers.lean ====
section
/-! DEFINITION. The integer laws of the unit (40_numerics.md R108) and the bit reversal of an index (44_bitrev.md R156).
Integers are unbounded: nothing here wraps. -/

namespace Sys2Proof.Machine

/-- `ispow2(N)`: `N >= 1` and `N & (N - 1) = 0` (R108b); `ispow2(0)` is false. -/
def isPow2 (N : Nat) : Bool := N != 0 && (N &&& (N - 1)) == 0

/-- `log2(N)` for a power of two (R108c): the integer `n` with `2^n = N`. -/
def log2 (N : Nat) : Nat := Nat.log2 N

/-- `rev(i, n)`: the reversal of the `n` low bits of `i`, by the recursion of R156. -/
def rev (i : Nat) : Nat → Nat
  | 0 => 0
  | n + 1 => (i % 2) * 2 ^ n + rev (i / 2) n

/-- `overlap(a, b, n)`: the ranges `[a, a+n)` and `[b, b+n)` meet, in unbounded integers (20_memory.md R66). -/
def overlap (a b n : Nat) : Bool := decide (a < b + n) && decide (b < a + n)

/-- The domain in which a twiddle factor is used: `ispow2(N)`, `N >= 2` and `0 <= k < N/2` (R115). -/
def InTwiddleDomain (k N : Nat) : Prop := isPow2 N = true ∧ 2 ≤ N ∧ k < N / 2

end Sys2Proof.Machine
end

