-- ==== Sys2Proof/Machine/Generator.lean ====
section
/-! DEFINITION. Twiddle generators (40_numerics.md R115, R116): a generator is its forward factors together with the proofs
of TW-P2, TW-P3 and TW-P5, so that one without the properties cannot be built.  TW-P1 holds because a generator is a function
of `(k, N)`; TW-P4 holds because the inverse factor is made from the forward one (`Machine/Twiddle.lean`, `twiddle`). -/

namespace Sys2Proof.Machine

/-- TW-P2 for one component: finite and in `[-1.0, 1.0]`; never a NaN, never an infinity. -/
def InUnitRange (x : F) : Prop := isFinite x = true ∧ |value x| ≤ 1

/-- TW-P5 for one component: within `2^-50` of the exact real value. -/
def CloseTo (x : F) (r : ℝ) : Prop := |((value x : ℚ) : ℝ) - r| ≤ (2 : ℝ) ^ (-50 : ℤ)

/-- A forward twiddle generator with the properties R116 asks for, in the domain of R115. -/
structure Generator where
  /-- the forward factor of index `k` and length `N` (TW-P1: a function of them alone) -/
  fwd : Nat → Nat → Sample
  /-- TW-P2 -/
  inRange : ∀ k N, InTwiddleDomain k N → InUnitRange (fwd k N).re ∧ InUnitRange (fwd k N).im
  /-- TW-P3: `TW(dir, 0, N) = (1.0, z)` with `z` a zero of either sign -/
  atZero : ∀ N, InTwiddleDomain 0 N → (fwd 0 N).re = one ∧ isZero (fwd 0 N).im = true
  /-- TW-P5, against the exact `(cos θ, sin θ)` with `θ = -2πk/N` of R115 -/
  accurate : ∀ k N, InTwiddleDomain k N →
    CloseTo (fwd k N).re (Real.cos (-(2 * Real.pi * k / N))) ∧ CloseTo (fwd k N).im (Real.sin (-(2 * Real.pi * k / N)))

/-- The magnitude pattern of the number `a * 2^-52`, for `a ≤ 2^52`. -/
def gridMag (a : Nat) : Nat := if a = 0 then 0 else (Nat.log2 a + 970) * 2 ^ 52 + a * 2 ^ (52 - Nat.log2 a)

/-- The multiple of `2^-52` in `[-1, 1]` nearest a rational, as an integer multiple. -/
def gridInt (q : ℚ) : Int := max (-(2 ^ 52)) (min (2 ^ 52) ⌊q * 2 ^ 52 + 1 / 2⌋)

/-- The binary64 number `gridInt q * 2^-52`. -/
def gridF (q : ℚ) : F := ofSignMag (decide (gridInt q < 0)) (gridMag (gridInt q).natAbs)

theorem gridMag_units {a : Nat} (h : a ≤ 2 ^ 52) :
    gridMag a < 1024 * 2 ^ 52 ∧
      (if gridMag a / 2 ^ 52 = 0 then gridMag a % 2 ^ 52
        else (2 ^ 52 + gridMag a % 2 ^ 52) * 2 ^ (gridMag a / 2 ^ 52 - 1)) = a * 2 ^ 1022 := by
  unfold gridMag
  split
  · next h0 => subst h0; simp
  next h0 =>
  have hl : Nat.log2 a ≤ 52 := by
    by_contra hc
    have := Nat.log2_self_le h0
    have h2 : 2 ^ 53 ≤ 2 ^ Nat.log2 a := Nat.pow_le_pow_right (by norm_num) (by omega)
    omega
  obtain ⟨j, hj⟩ : ∃ j, j = 52 - Nat.log2 a := ⟨_, rfl⟩
  have h1 : a * 2 ^ j < 2 ^ 53 := by
    have := @Nat.lt_log2_self a
    calc a * 2 ^ j < 2 ^ (Nat.log2 a + 1) * 2 ^ j := Nat.mul_lt_mul_of_pos_right this (by positivity)
      _ = 2 ^ 53 := by rw [← pow_add]; congr 1; omega
  have h2 : 2 ^ 52 ≤ a * 2 ^ j := by
    calc 2 ^ 52 = 2 ^ Nat.log2 a * 2 ^ j := by rw [← pow_add]; congr 1; omega
      _ ≤ a * 2 ^ j := Nat.mul_le_mul_right _ (Nat.log2_self_le h0)
  rw [← hj]
  generalize hL : Nat.log2 a = L at *
  have hd : ((L + 970) * 2 ^ 52 + a * 2 ^ j) / 2 ^ 52 = L + 971 := by omega
  have hm : ((L + 970) * 2 ^ 52 + a * 2 ^ j) % 2 ^ 52 = a * 2 ^ j - 2 ^ 52 := by omega
  refine ⟨by omega, ?_⟩
  rw [hd, hm, if_neg (by omega), show 2 ^ 52 + (a * 2 ^ j - 2 ^ 52) = a * 2 ^ j by omega, mul_assoc, ← pow_add,
    show j + (L + 971 - 1) = 1022 by omega]

theorem gridInt_bound (q : ℚ) : (gridInt q).natAbs ≤ 2 ^ 52 := by
  unfold gridInt; omega

theorem gridF_fields (q : ℚ) : isFinite (gridF q) = true ∧ value (gridF q) = (gridInt q : ℚ) / 2 ^ 52 := by
  obtain ⟨hlt, hu⟩ := gridMag_units (gridInt_bound q)
  have h63 : gridMag (gridInt q).natAbs < 2 ^ 63 := lt_trans hlt (by norm_num)
  have hun : units (gridF q) = (gridInt q).natAbs * 2 ^ 1022 := by
    rw [units, gridF, expField_ofSignMag _ h63, fracField_ofSignMag _ h63, hu]
  constructor
  · simp only [isFinite, gridF, expField_ofSignMag _ h63]
    simp; omega
  · have hs : signedUnits (gridF q) = gridInt q * 2 ^ 1022 := by
      rw [signedUnits, hun, gridF, signBit_ofSignMag _ h63]
      push_cast
      by_cases hn : gridInt q < 0
      · simp [hn, abs_of_neg hn]
      · simp [hn, abs_of_nonneg (not_lt.mp hn)]
    rw [value, hs, show (1074 : ℕ) = 1022 + 52 by norm_num, pow_add]
    push_cast
    rw [mul_comm ((2 : ℚ) ^ 1022), mul_div_mul_right _ _ (by positivity)]

theorem gridF_inUnitRange (q : ℚ) : InUnitRange (gridF q) := by
  refine ⟨(gridF_fields q).1, ?_⟩
  rw [(gridF_fields q).2, abs_div, abs_of_pos (by positivity : (0 : ℚ) < 2 ^ 52), div_le_one (by positivity)]
  have := gridInt_bound q
  rw [← Int.cast_abs]
  exact_mod_cast abs_le.mpr ⟨by omega, by omega⟩

theorem gridF_close {q : ℚ} {r : ℝ} (hr : |r| ≤ 1) (h : |r - (q : ℝ)| ≤ 2 ^ (-(61 : ℤ))) : CloseTo (gridF q) r := by
  unfold CloseTo
  rw [(gridF_fields q).2]
  have h1 := Int.floor_le (q * 2 ^ 52 + 1 / 2)
  have h2 := Int.lt_floor_add_one (q * 2 ^ 52 + 1 / 2)
  have hg : gridInt q = max (-(2 ^ 52)) (min (2 ^ 52) ⌊q * 2 ^ 52 + 1 / 2⌋) := rfl
  generalize ⌊q * 2 ^ 52 + 1 / 2⌋ = m at h1 h2 hg
  generalize gridInt q = c at hg
  have h1' := (Rat.cast_le (K := ℝ)).mpr h1
  have h2' := (Rat.cast_lt (K := ℝ)).mpr h2
  push_cast at h1' h2'
  rw [abs_le] at hr h
  rw [show (2 : ℝ) ^ (-(61 : ℤ)) = 1 / 2 ^ 61 by norm_num] at h
  rw [show (2 : ℝ) ^ (-50 : ℤ) = 1 / 2 ^ 50 by norm_num]
  have hc : c = m ∨ (c = 2 ^ 52 ∧ 2 ^ 52 ≤ m) ∨ (c = -(2 ^ 52) ∧ m ≤ -(2 ^ 52)) := by omega
  push_cast
  rw [abs_le]
  rcases hc with rfl | ⟨rfl, hm⟩ | ⟨rfl, hm⟩
  · constructor <;> linarith
  · have hm' : (2 : ℝ) ^ 52 ≤ m := by exact_mod_cast hm
    constructor <;> push_cast <;> linarith
  · have hm' : (m : ℝ) ≤ -(2 ^ 52) := by exact_mod_cast hm
    constructor <;> push_cast <;> linarith

/-- A generator exists: cosine and sine from rational partial sums, rounded to multiples of `2^-52`.  It only shows that the
properties of R116 can be met together; no value of the model is this one's by definition. -/
def exampleGenerator : Generator where
  fwd k N := ⟨gridF (cosSum (angleQ k N) 24), gridF (-sinSum (angleQ k N) 24)⟩
  inRange k N _ := ⟨gridF_inUnitRange _, gridF_inUnitRange _⟩
  atZero N _ := by
    have h0 : angleQ 0 N = 0 := by simp [angleQ]
    rw [h0]
    constructor <;> decide +kernel
  accurate k N h := by
    constructor
    · rw [Real.cos_neg]
      exact gridF_close (Real.abs_cos_le_one _) (cos_approx h.2.2)
    · rw [Real.sin_neg]
      refine gridF_close (by rw [abs_neg]; exact Real.abs_sin_le_one _) ?_
      have := sin_approx h.2.2
      rw [← abs_neg] at this
      push_cast
      convert this using 2
      ring

end Sys2Proof.Machine
end

