-- ==== Sys2Proof/Config.lean ====
section
/-! DEFINITION. What a build fixes (00_scope.md R7) and the free values: what the spec leaves to any value.
The free values are opaque and have no body: a claim that mentions one holds whatever it is. -/

namespace Sys2Proof

/-- Which twiddle generator the build has (R7, R116): `TW_REF`, the default, or any other generator with the properties of
R116; `build n` names the `n`-th of those. -/
inductive TwChoice where
  | reference
  | build (n : Nat)
  deriving DecidableEq, Repr

/-- The parameters of a build that the unit's rules refer to (R7).  `NCREG` is fixed at 16 (R7) and is in the type of the
register file; `ON_ERROR` and `THRESHOLD` are the host's and stand in `Machine/HostSide.lean`. -/
structure Params where
  /-- `SM_SIZE`, the number of words of sample memory -/
  smSize : Nat
  /-- `LEN_MAX`, the greatest transform length the engine has the resources for -/
  lenMax : Nat
  /-- `TW`, the twiddle generator -/
  tw : TwChoice
  deriving DecidableEq, Repr

/-- The constraints of R7: `2 <= SM_SIZE <= 2^32`, `LEN_MAX` a power of two with `1 <= LEN_MAX <= 2^31`. -/
abbrev Params.Legal (p : Params) : Prop :=
  2 ≤ p.smSize ∧ p.smSize ≤ 2 ^ 32 ∧ Machine.isPow2 p.lenMax = true ∧ p.lenMax ≤ 2 ^ 31

/-- The defaults of R7: `SM_SIZE = 2^17`, `LEN_MAX = 2^16`, `TW = TW_REF`. -/
def Params.default : Params := { smSize := 131072, lenMax := 65536, tw := .reference }

/-- FREE VALUE `NANBITS` (R105): the sign and the 51 unspecified fraction bits of a NaN result, for the operation at `d` with
operands `x`, `y`.  The place `d` differs for any two operations of a run, so the bits may differ from one operation to the
next. -/
opaque Config.nanBits (d : Draw) (x y : F) : BitVec 52

/-- FREE VALUE `SM_INIT` (10_state.md R37): what word `a` holds after a reset until it is written; `draw` names the draw of
that reset.  Stable: the same word reads the same. -/
opaque Config.smInit (draw a : Nat) : Sample

/-- FREE VALUE: which draw of `SM_INIT` a `Reset` makes (70_reset_and_hazards.md R241: a fresh one, of which memory that
survives is one legal value), from the draw before it, the words written since, and the registers. -/
opaque Config.smDrawAfter (draw : Nat) (words : List (Nat × Sample)) (regs : List Sample) : Nat

/-- FREE VALUE `TW` (40_numerics.md R116): the `n`-th generator; every generator with the properties of R116 may be it.  The
argument only says that there is one. -/
opaque Config.generatorOf [Inhabited Machine.Generator] (n : Nat) : Machine.Generator

end Sys2Proof
end

