-- ==== Sys2Proof/Machine/State.lean ====
section
/-! DEFINITION. The state of the unit (10_state.md R20, R41), the host's transactions waiting at its interfaces and what the
interfaces have answered (R16, R40), and the reasons a step could stop. -/

namespace Sys2Proof.Machine

/-- Sample memory: the words written since the last reset, as (address, sample) pairs.  The addressable unit is the 128-bit
word; nothing can name half of one (10_state.md R36, 20_memory.md R54).  Canonical form: `Memory.wf`. -/
abbrev Memory := List (Nat × Sample)

/-- The canonical form: addresses strictly rising.  An address that is not listed holds no written word, so no entry can
equal what an unlisted address reads as, and equal memories are equal lists. -/
abbrev Memory.wf (m : Memory) : Prop := (m.map Prod.fst).Pairwise (· < ·)

/-- The response of a command (60_exceptions.md R210); codes 7 to 15 are never returned. -/
inductive Response where
  | ok | illegal | length | resource | index | address | overlap
  deriving DecidableEq, Repr

/-- The host's transactions, the labels of the transition system (00_scope.md R16, 10_state.md R40). -/
inductive HostAction where
  | reset
  | issue (D : Word)
  | smWrite (a : Word32) (w : Word)
  | smRead (a : Word32)
  | csrRead (i : Nat)
  | csrWrite (i : Nat) (v : BitVec 32)
  deriving DecidableEq, Repr

/-- What an interface answers to a transaction (R40, R33, 20_memory.md R55, R56, 60_exceptions.md R233).  `Reset` carries
nothing and is answered by nothing. -/
inductive Answer where
  /-- the response of a command -/
  | response (r : Response)
  /-- an `SMWrite` or `CSRWrite` was done -/
  | done
  /-- the word an `SMRead` returns -/
  | word (w : Word)
  /-- the value a `CSRRead` returns -/
  | csr (v : BitVec 32)
  /-- the host-port error `HERR`: a refused transaction, no data, no state changed -/
  | herr
  deriving DecidableEq, Repr

/-- The whole machine.  `regs`, `sm`, `status`, `errflags` are the architectural state, "exactly" (R20); the other fields are
the model's own: the build's parameters, which nothing writes; the counters that select free values; and the host's side of
the interfaces. -/
structure State where
  /-- the complex registers `c0` to `c15` (R21) -/
  regs : Vector Sample 16
  /-- the words of sample memory written since the last reset (R34) -/
  sm : Memory
  /-- `STATUS`, CSR index 0 (R30) -/
  status : BitVec 32
  /-- `ERRFLAGS`, CSR index 1 (R31) -/
  errflags : BitVec 32
  /-- the parameters of the build (00_scope.md R7); constants, written by no step -/
  cfg : Params
  /-- which draw of `SM_INIT` the unwritten words of sample memory hold (R37) -/
  smDraw : Nat
  /-- how many commands have been answered; selects the `NANBITS` of the next one (40_numerics.md R105) -/
  serial : Nat
  /-- the host's transactions not yet performed, the next one first (20_memory.md R61) -/
  inbox : List HostAction
  /-- what the interfaces have answered, the latest first -/
  answers : List Answer
  deriving DecidableEq, Repr

/-- Why the machine could stop with a fault.  There is no reason: "Nothing in the unit is `stuck`: `exec` is total on all
`2^128` descriptors in every state, and every host transaction has a defined outcome" (93_implementation_defined.md).  An error
of a command is a response and an error of a port is the answer `HERR`; both are next states.  No constructor: safe. -/
inductive Fault where
  deriving DecidableEq, Repr

/-- Why the model could refuse a step. -/
inductive Refusal where
  /-- Raised only by an arm of `exec` whose instruction has no meaning yet; no arm is so.  Safe: it only stops. -/
  | notModelled (mnemonic : String)
  deriving DecidableEq, Repr

/-- The outcome of a step or of a meaning. -/
abbrev Outcome := Host.Outcome State Fault Refusal

/-- Every register `(+0.0, +0.0)`, 128 zero bits (R24). -/
def zeroRegs : Vector Sample 16 := Vector.replicate 16 ⟨posZero, posZero⟩

/-- The machine right after reset (R41, 70_reset_and_hazards.md R240): registers, `STATUS` and `ERRFLAGS` zero, no word of
sample memory written, the default build (00_scope.md R7), no transaction waiting. -/
def State.reset : State where
  regs := zeroRegs
  sm := []
  status := 0#32
  errflags := 0#32
  cfg := Params.default
  smDraw := 0
  serial := 0
  inbox := []
  answers := []

end Sys2Proof.Machine
end

