-- ==== Sys2Proof/Machine/Flags.lean ====
section
/-! DEFINITION. The two status registers: `STATUS` (10_state.md R30) and the sticky bits of `ERRFLAGS` (R31).  These are the only
flags of the unit; arithmetic leaves no trace but its result (R29). -/

namespace Sys2Proof.Machine

/-- The 4-bit response code (60_exceptions.md R210). -/
def Response.code : Response → BitVec 4
  | .ok => 0#4
  | .illegal => 1#4
  | .length => 2#4
  | .resource => 3#4
  | .index => 4#4
  | .address => 5#4
  | .overlap => 6#4

/-- `STATUS.LAST`, bits 3:0 (R30). -/
def lastField (v : BitVec 32) : BitVec 4 := v.extractLsb' 0 4

/-- `STATUS` with `LAST` replaced (R30). -/
def withLast (v : BitVec 32) (code : BitVec 4) : BitVec 32 := v.extractLsb' 4 28 ++ code

/-- What a read of `STATUS` returns: the reserved bits 31:4 read as zero (R30). -/
def statusRead (v : BitVec 32) : BitVec 32 := 0#28 ++ lastField v

/-- The bits of `ERRFLAGS` that exist, 1 to 6 (R31). -/
def flagMask : BitVec 32 := 0x7E#32

/-- What a read of `ERRFLAGS` returns: bit 0 and bits 31:7 read as zero (R31). -/
def errflagsRead (v : BitVec 32) : BitVec 32 := v &&& flagMask

/-- `ERRFLAGS` after a command answered `r`: bit `i` is set by the response code `i`, `1 <= i <= 6`, and by nothing else; a
successful command leaves it unchanged (R31). -/
def withFlag (v : BitVec 32) : Response → BitVec 32
  | .ok => v
  | .illegal => v ||| 0x02#32
  | .length => v ||| 0x04#32
  | .resource => v ||| 0x08#32
  | .index => v ||| 0x10#32
  | .address => v ||| 0x20#32
  | .overlap => v ||| 0x40#32

/-- `ERRFLAGS` after a host write of `v` to index 1: `ERRFLAGS & ~(v & 0x7E)` (R31). -/
def clearFlags (flags v : BitVec 32) : BitVec 32 := flags &&& ~~~(v &&& flagMask)

end Sys2Proof.Machine
end

