-- ==== Sys2Proof/Machine/Operands.lean ====
section
/-! DEFINITION. The operands of a command: the register file (10_state.md R21 to R23), the layout of a word (R35), and the one
addressing mode, absolute (43_load_store.md R152). -/

namespace Sys2Proof.Machine

/-- `c[i]`: a register is read whole; none is hardwired (R21, R22). -/
def State.reg (s : State) (i : Reg) : Sample := s.regs[i]

/-- `c[i] <- v`: a register is written whole, bit for bit (R21, R22). -/
def State.setReg (s : State) (i : Reg) (v : Sample) : State := { s with regs := s.regs.set i v }

/-- The 128-bit word of a sample: `bits(z.im) ## bits(z.re)` (R35). -/
def toWord (z : Sample) : Word := z.im ++ z.re

/-- The sample in a 128-bit word: `re` in bits 63:0, `im` in bits 127:64 (R35). -/
def ofWord (w : Word) : Sample := ⟨w.extractLsb' 0 64, w.extractLsb' 64 64⟩

/-- The effective address: the field as it stands, a 32-bit unsigned word address (R152, 30_encoding.md R72). -/
def address (a : Word32) : Nat := a.toNat

/-- The length `N`, or a twiddle index: the field as it stands (R72). -/
def integer (v : Word32) : Nat := v.toNat

/-- Byte `j` of a word on a byte-addressed host bus (20_memory.md R51): little-endian, bits `8j+7 : 8j`. -/
def wordByte (w : Word) (j : Nat) : BitVec 8 := w.extractLsb' (8 * j) 8

end Sys2Proof.Machine
end

