-- ==== Sys2Proof/Machine/Ops.lean ====
section
/-! DEFINITION. The shared operations of the meanings: sample memory (20_memory.md R50, R52, R57), the end of a command
(60_exceptions.md R215, R216) and the order of the checks (R218). -/

namespace Sys2Proof.Machine

/-! ## Sample memory -/

/-- The word written at an address since the last reset, if any. -/
def Memory.get : Memory → Nat → Option Sample
  | [], _ => none
  | (b, v) :: m, a => if b = a then some v else Memory.get m a

/-- Consecutive words from address `b` on (R50: element `i` at `b + i`). -/
def cellsFrom (b : Nat) : List Sample → Memory
  | [] => []
  | v :: vs => (b, v) :: cellsFrom (b + 1) vs

/-- Memory after the words `vs` are written at `b`, `b + 1`, …; addresses stay in rising order. -/
def Memory.put (m : Memory) (b : Nat) (vs : List Sample) : Memory :=
  m.filter (fun p => decide (p.1 < b)) ++ cellsFrom b vs ++ m.filter (fun p => decide (b + vs.length ≤ p.1))

/-- `SM[a]`: the latest word written, or the draw `SM_INIT` when none was since the last reset (R61b, 10_state.md R37). -/
def State.word (s : State) (a : Nat) : Sample := (s.sm.get a).getD (Config.smInit s.smDraw a)

/-- `MemRead(a, n)`: the sequence `SM[a], …, SM[a+n-1]` (00_scope.md R11). -/
def State.memRead (s : State) (a n : Nat) : List Sample := (List.range n).map fun i => s.word (a + i)

/-- `MemWrite(b, n, v)` with `n = |v|` (R11). -/
def State.memWrite (s : State) (b : Nat) (v : List Sample) : State := { s with sm := s.sm.put b v }

/-! ## The end of a command -/

/-- The response of a command: `STATUS.LAST` takes its code as the last effect, the flag of an error is set, and the host is
answered (R210, R215, R216, 10_state.md R30, R31). -/
def State.respond (s : State) (r : Response) : State :=
  { s with
    status := withLast s.status r.code
    errflags := withFlag s.errflags r
    serial := s.serial + 1
    answers := .response r :: s.answers }

/-- `respond OK` (R215). -/
def State.respondOk (s : State) : State := s.respond .ok

/-- `raise E`: the whole trap mechanism of the unit (R216, R223).  Exactly `STATUS.LAST` and one bit of `ERRFLAGS` change and
the host gets the code; no register and no word of sample memory changes, and there is nothing to return from (R224). -/
def State.raiseError (s : State) (e : Response) : State := s.respond e

/-- One step of R218: a condition, and the error that answers when it does not hold. -/
structure Check where
  holds : Bool
  error : Response

/-- The first check that fails gives the response; the later ones are not made (R218, R220). -/
def firstFailure : List Check → Option Response
  | [] => none
  | c :: cs => if c.holds then firstFailure cs else some c.error

/-- A command: the checks in order, then either the error effects, or the writes of the operation followed by the success
effects.  Every check precedes every write (R216, 10_state.md R28). -/
def command (checks : List Check) (effect : State → State) (s : State) : Outcome :=
  match firstFailure checks with
  | some e => .next (s.raiseError e)
  | none => .next (effect s).respondOk

/-- The place of a command's operations, for the free values of the NaNs it produces (40_numerics.md R105). -/
def State.place (s : State) : Draw := ⟨s.serial, []⟩

/-! ## The checks, by the steps of R218 -/

/-- Step 2: `ispow2(len)`. -/
def lengthCheck (len : Nat) : Check := ⟨isPow2 len, .length⟩

/-- Step 3: `len <= LEN_MAX`. -/
def resourceCheck (s : State) (len : Nat) : Check := ⟨decide (len ≤ s.cfg.lenMax), .resource⟩

/-- Step 4: `a < len / 2`, with `a` as the index `k`. -/
def indexCheck (k len : Nat) : Check := ⟨decide (k < len / 2), .index⟩

/-- Step 5a: `a < SM_SIZE`. -/
def wordCheck (s : State) (a : Nat) : Check := ⟨decide (a < s.cfg.smSize), .address⟩

/-- Step 5b: `a + len <= SM_SIZE`, in unbounded integers (R52). -/
def rangeCheck (s : State) (a len : Nat) : Check := ⟨decide (a + len ≤ s.cfg.smSize), .address⟩

/-- Step 6: not `overlap(a, b, len)`. -/
def overlapCheck (a b len : Nat) : Check := ⟨!overlap a b len, .overlap⟩

/-- The checks of CDIVN (41_complex_arith.md R136). -/
def divisionChecks (s : State) (len : Nat) : List Check := [lengthCheck len, resourceCheck s len]

/-- The checks of TWID, TWMUL and BFLY (42_twiddle_butterfly.md R141). -/
def twiddleChecks (s : State) (k len : Nat) : List Check := [lengthCheck len, resourceCheck s len, indexCheck k len]

/-- The checks of CLD and CST (43_load_store.md R150, R151). -/
def accessChecks (s : State) (a : Nat) : List Check := [wordCheck s a]

/-- The checks of BITREV, FFT and IFFT: source range before destination range, then overlap (R158, R170, R171). -/
def sequenceChecks (s : State) (a b len : Nat) : List Check :=
  [lengthCheck len, resourceCheck s len, rangeCheck s a len, rangeCheck s b len, overlapCheck a b len]

end Sys2Proof.Machine
end

