-- ==== Sys2Proof/Machine/BitReverse.lean ====
section
/-! DEFINITION. The bit-reversal permutation of a sequence and BITREV (44_bitrev.md R158). -/

namespace Sys2Proof.Machine

/-- `bitrev(x)[i] = x[rev(i, n)]` for every `i` in `[0, 2^n)` (R158). -/
def bitrev {α : Type} [Inhabited α] (n : Nat) (x : List α) : List α :=
  (List.range (2 ^ n)).map fun i => x[rev i n]?.getD default

/-- BITREV `[dst], [src], N` (R158): `a` is the source, `b` the destination; a bit-exact copy in reversed order. -/
def execBitrev (a b len : Word32) (s : State) : Outcome :=
  command (sequenceChecks s (address a) (address b) (integer len))
    (fun s => s.memWrite (address b) (bitrev (log2 (integer len)) (s.memRead (address a) (integer len)))) s

end Sys2Proof.Machine
end

