-- ==== Sys2Proof/Machine/Scalar.lean ====
section
/-! DEFINITION. The scalar operations (40_numerics.md R102 to R107).  Each operation is
exact integer arithmetic followed by one rounding (R103); it has no trap, no flag and no status (R104).  `d` is the place of
the operation, used only for the free bits of a NaN result (R105). -/

namespace Sys2Proof.Machine

/-- The NaN an operation at `d` on `x` and `y` produces: quiet, its sign and payload free (R105). -/
def nanResult (d : Draw) (x y : F) : F := quietNaN (Config.nanBits d x y)

/-- An infinity of the given sign. -/
def infinity (neg : Bool) : F := ofSignMag neg infMag

/-- `fadd` (R102, R104c, R106): a sum of zeros or an exact cancellation is `-0` only when both operands are negative. -/
def fadd (d : Draw) (x y : F) : F :=
  if isNaN x || isNaN y then nanResult d x y
  else if isInf x then
    if isInf y && signBit x != signBit y then nanResult d x y else x
  else if isInf y then y
  else
    let z := signedUnits x + signedUnits y
    if z = 0 then ofSignMag (signBit x && signBit y) 0 else roundUnits (decide (z < 0)) z.natAbs 1

/-- `fsub` (R102): the sum with the negated operand (R109c, which also fixes its zeros, R106). -/
def fsub (d : Draw) (x y : F) : F := fadd d x (fneg y)

/-- `fmul` (R102, R104c, R106). -/
def fmul (d : Draw) (x y : F) : F :=
  let neg := signBit x != signBit y
  if isNaN x || isNaN y then nanResult d x y
  else if isInf x || isInf y then
    if isZero x || isZero y then nanResult d x y else infinity neg
  else roundUnits neg (units x * units y) (2 ^ 1074)

/-- `fdiv` (R102, R104c, R104d, R106). -/
def fdiv (d : Draw) (x y : F) : F :=
  let neg := signBit x != signBit y
  if isNaN x || isNaN y then nanResult d x y
  else if isInf x then
    if isInf y then nanResult d x y else infinity neg
  else if isInf y then ofSignMag neg 0
  else if isZero y then
    if isZero x then nanResult d x y else infinity neg
  else roundUnits neg (units x * 2 ^ 1074) (units y)

/-- `fsqrt` (R102), used only by the host's spectrum reporter.  The root of `u` units is the root of `u * 2^1074` in units;
the integer root and whether it is exact decide every rounding. -/
def fsqrt (d : Draw) (x : F) : F :=
  if isNaN x then nanResult d x x
  else if isZero x then x
  else if signBit x then nanResult d x x
  else if isInf x then x
  else
    let a := units x * 2 ^ 1074
    let r := isqrt a
    roundUnits false (2 * r + if r * r = a then 0 else 1) 2

/-- `ofNat(n)`: a non-negative integer rounded to nearest even (R107). -/
def ofNat (n : Nat) : F := roundUnits false (n * 2 ^ 1074) 1

/-- `ofInt(n)`: a signed integer rounded to nearest even (R107); zero gives `+0`. -/
def ofInt (n : Int) : F := roundUnits (decide (n < 0)) (n.natAbs * 2 ^ 1074) 1

end Sys2Proof.Machine
end

