-- ==== Sys2Proof/Laws/Integers.lean ====
section
/-! SUPPORT. Powers of two: `isPow2` says what R108 says, and what follows for the lengths a transform meets (R168). -/

namespace Sys2Proof.Machine

theorem isPow2_iff (N : Nat) : isPow2 N = true ↔ ∃ n, N = 2 ^ n := by
  have := @Nat.ne_zero_and_sub_one_eq_zero_iff_isPowerOfTwo N
  rw [Nat.isPowerOfTwo] at this
  simpa [isPow2] using this

@[simp] theorem isPow2_two_pow (n : Nat) : isPow2 (2 ^ n) = true := (isPow2_iff _).mpr ⟨n, rfl⟩

@[simp] theorem log2_two_pow (n : Nat) : log2 (2 ^ n) = n := Nat.log2_two_pow

theorem two_pow_log2 {N : Nat} (h : isPow2 N = true) : 2 ^ log2 N = N := by
  obtain ⟨n, rfl⟩ := (isPow2_iff N).mp h
  rw [log2_two_pow]

theorem isPow2_pos {N : Nat} (h : isPow2 N = true) : 1 ≤ N := by
  obtain ⟨n, rfl⟩ := (isPow2_iff N).mp h
  exact Nat.one_le_two_pow

theorem isPow2_of_dvd {M N : Nat} (h : isPow2 N = true) (hd : M ∣ N) : isPow2 M = true := by
  obtain ⟨n, rfl⟩ := (isPow2_iff N).mp h
  obtain ⟨m, -, rfl⟩ := (Nat.dvd_prime_pow Nat.prime_two).mp hd
  exact isPow2_two_pow m

theorem isPow2_even {N : Nat} (h : isPow2 N = true) (h2 : 2 ≤ N) : N % 2 = 0 := by
  obtain ⟨n, rfl⟩ := (isPow2_iff N).mp h
  cases n with
  | zero => simp at h2
  | succ n => rw [pow_succ]; omega

end Sys2Proof.Machine
end

