-- ==== Sys2Proof/Machine/CorrectRounding.lean ====
section
/-! DEFINITION. Correct rounding of a real number to binary64 (40_numerics.md R102, and `RN` of R118), said without the
algorithm that rounds; and a test, in integers, that a rational enclosure of a real number decides what it rounds to. -/

namespace Sys2Proof.Machine

/-- `z` is the real number `q` rounded to nearest even (40_numerics.md R102), with the infinity of `q`'s sign when the rounded
magnitude exceeds the greatest finite number (R104a): from `2^1024 - 2^970` on, which is half a step above that number.  Below,
`z` is finite, no finite number is nearer, and of two equally near the fraction of `z` is the even one. -/
structure RoundsTo (q : ℝ) (z : F) : Prop where
  finite : |q| < 2 ^ 1024 - 2 ^ 970 → isFinite z = true ∧ ∀ w : F, isFinite w = true →
    |((value z : ℚ) : ℝ) - q| ≤ |((value w : ℚ) : ℝ) - q| ∧
      (|((value z : ℚ) : ℝ) - q| = |((value w : ℚ) : ℝ) - q| → value w = value z ∨ fracField z % 2 = 0)
  overflow : 2 ^ 1024 - 2 ^ 970 ≤ |q| → isInf z = true ∧ (signBit z = true ↔ q < 0)

/-- The units of the magnitude pattern `m`, the lower 63 bits of a finite number (R101). -/
def magUnits (m : Nat) : Nat :=
  if m / 2 ^ 52 = 0 then m % 2 ^ 52 else (2 ^ 52 + m % 2 ^ 52) * 2 ^ (m / 2 ^ 52 - 1)

/-- The signed units of the number at place `k` of the numeric order (`orderKey`). -/
def keyUnits (k : Int) : Int := if k < 0 then -(magUnits k.natAbs : Int) else (magUnits k.natAbs : Int)

/-- Every real number within `e / q` of `p / q` rounds to `z`: `z` is finite with finite neighbours, and the whole enclosure
lies strictly between the two midpoints of `z` and its neighbours. -/
def roundsWithin (p : Int) (e q : Nat) (z : F) : Bool :=
  let k := orderKey z
  decide (k.natAbs + 1 < infMag) && decide ((keyUnits (k - 1) + keyUnits k) * q < (p - e) * 2 ^ 1075) &&
    decide ((p + e) * 2 ^ 1075 < (keyUnits k + keyUnits (k + 1)) * q)

end Sys2Proof.Machine
end

