-- ==== Sys2Proof/Laws/CorrectRounding.lean ====
section
/-! SUPPORT. The finite numbers in numeric order, what a correctly rounded value is, that one exists, and how far the rounding
of Machine/Binary64.lean is from the exact magnitude. -/

namespace Sys2Proof.Machine

/-! ## The numeric order of the finite numbers -/

theorem magUnits_lt_succ (m : Nat) : magUnits m < magUnits (m + 1) := by
  unfold magUnits
  by_cases hc : m % 2 ^ 52 = 2 ^ 52 - 1
  · have h1 : (m + 1) / 2 ^ 52 = m / 2 ^ 52 + 1 := by omega
    have h2 : (m + 1) % 2 ^ 52 = 0 := by omega
    rw [h1, h2, hc, if_neg (by omega : ¬ m / 2 ^ 52 + 1 = 0)]
    split
    · next h => rw [h]; norm_num
    · next h =>
      obtain ⟨e, he⟩ : ∃ e, m / 2 ^ 52 = e + 1 := ⟨m / 2 ^ 52 - 1, by omega⟩
      rw [he, Nat.add_sub_cancel, Nat.add_sub_cancel, pow_succ]
      have : 0 < 2 ^ e := by positivity
      omega
  · have h1 : (m + 1) / 2 ^ 52 = m / 2 ^ 52 := by omega
    have h2 : (m + 1) % 2 ^ 52 = m % 2 ^ 52 + 1 := by omega
    rw [h1, h2]
    split
    · omega
    · exact Nat.mul_lt_mul_of_pos_right (by omega) (by positivity)

theorem magUnits_strictMono : StrictMono magUnits := strictMono_nat_of_lt_succ magUnits_lt_succ

@[simp] theorem magUnits_zero : magUnits 0 = 0 := rfl

theorem keyUnits_strictMono : StrictMono keyUnits := by
  refine strictMono_int_of_lt_succ fun k => ?_
  unfold keyUnits
  rcases lt_trichotomy k (-1) with h | rfl | h
  · rw [if_pos (by omega), if_pos (by omega), show k.natAbs = (k + 1).natAbs + 1 by omega]
    have := magUnits_lt_succ (k + 1).natAbs
    omega
  · decide
  · rw [if_neg (by omega), if_neg (by omega), show (k + 1).natAbs = k.natAbs + 1 by omega]
    have := magUnits_lt_succ k.natAbs
    omega

theorem orderKey_eq (x : F) :
    orderKey x = if signBit x then -((x.toNat % 2 ^ 63 : Nat) : Int) else ((x.toNat % 2 ^ 63 : Nat) : Int) := by
  simp [orderKey]

theorem natAbs_orderKey (x : F) : (orderKey x).natAbs = x.toNat % 2 ^ 63 := by
  rw [orderKey_eq]; split <;> omega

theorem units_eq_magUnits (x : F) : units x = magUnits (x.toNat % 2 ^ 63) := by
  rw [units, magUnits, expField_eq, fracField_eq, show x.toNat % 2 ^ 63 / 2 ^ 52 = x.toNat / 2 ^ 52 % 2 ^ 11 by omega,
    show x.toNat % 2 ^ 63 % 2 ^ 52 = x.toNat % 2 ^ 52 by omega]

/-- The units of a number are those of its place in the order. -/
theorem signedUnits_eq_keyUnits (x : F) : signedUnits x = keyUnits (orderKey x) := by
  rw [signedUnits, units_eq_magUnits, keyUnits, natAbs_orderKey, orderKey_eq]
  generalize x.toNat % 2 ^ 63 = m
  cases signBit x
  · simp only [Bool.false_eq_true, if_false]
    rw [if_neg (by omega)]
  · by_cases h : m = 0
    · subst h; rfl
    · simp only [if_true]
      rw [if_pos (by omega)]

theorem isFinite_iff (x : F) : isFinite x = true ↔ (orderKey x).natAbs < infMag := by
  have := x.isLt
  rw [natAbs_orderKey]
  simp only [isFinite, expField_eq, bne_iff_ne, ne_eq, infMag]
  omega

theorem fracField_parity (x : F) : (fracField x % 2 : Nat) = (orderKey x).natAbs % 2 := by
  rw [natAbs_orderKey, fracField_eq]; omega

theorem ofSignMag_key {k : Int} (h : k.natAbs < infMag) : orderKey (ofSignMag (decide (k < 0)) k.natAbs) = k := by
  have h63 : k.natAbs < 2 ^ 63 := lt_trans h (by decide)
  unfold infMag at h
  rw [orderKey_eq, signBit_ofSignMag _ h63, ofSignMag_toNat _ h63]
  by_cases hk : k < 0
  · simp only [hk, decide_true, if_true]; omega
  · simp only [hk, decide_false, Bool.false_eq_true, if_false]; omega

/-- The value at place `k` of the order. -/
noncomputable def keyValue (k : Int) : ℝ := (keyUnits k : ℝ) / 2 ^ 1074

theorem keyValue_strictMono : StrictMono keyValue := fun _ _ h =>
  div_lt_div_of_pos_right (Int.cast_lt.mpr (keyUnits_strictMono h)) (by positivity)

theorem value_eq_keyValue (x : F) : ((value x : ℚ) : ℝ) = keyValue (orderKey x) := by
  rw [value, signedUnits_eq_keyUnits, keyValue]; push_cast; rfl

/-- A number at every place of the order below the infinities. -/
theorem exists_key {k : Int} (h : k.natAbs < infMag) : ∃ x : F, isFinite x = true ∧ orderKey x = k :=
  ⟨_, (isFinite_iff _).mpr (by rw [ofSignMag_key h]; exact h), ofSignMag_key h⟩

/-! ## Correctly rounded values -/

theorem one_lt_overflow : (1 : ℝ) < 2 ^ 1024 - 2 ^ 970 := by
  have h : (1 : ℝ) ≤ 2 ^ 970 := one_le_pow₀ (by norm_num)
  rw [show (1024 : ℕ) = 54 + 970 by norm_num, pow_add]
  generalize (2 : ℝ) ^ 970 = a at *
  norm_num
  linarith

/-- Below the overflow threshold a correctly rounded value is the nearest finite number, ties to even. -/
theorem roundsTo_of_small {r : ℝ} {z : F} (hr : |r| ≤ 1) (hf : isFinite z = true)
    (h : ∀ w : F, isFinite w = true → |((value z : ℚ) : ℝ) - r| ≤ |((value w : ℚ) : ℝ) - r| ∧
      (|((value z : ℚ) : ℝ) - r| = |((value w : ℚ) : ℝ) - r| → value w = value z ∨ fracField z % 2 = 0)) :
    RoundsTo r z :=
  ⟨fun _ => ⟨hf, h⟩, fun h' => absurd (le_trans h' hr) one_lt_overflow.not_ge⟩

theorem RoundsTo.near {r : ℝ} {z : F} (h : RoundsTo r z) (hr : |r| ≤ 1) {w : F} (hw : isFinite w = true) :
    |((value z : ℚ) : ℝ) - r| ≤ |((value w : ℚ) : ℝ) - r| :=
  ((h.finite (lt_of_le_of_lt hr one_lt_overflow)).2 w hw).1

theorem RoundsTo.isFinite {r : ℝ} {z : F} (h : RoundsTo r z) (hr : |r| ≤ 1) : Machine.isFinite z = true :=
  (h.finite (lt_of_le_of_lt hr one_lt_overflow)).1

/-- A number strictly between the midpoints around the place `k` is nearer to `k`'s value than to any other. -/
theorem nearest_of_midpoints {r : ℝ} {k : Int} (h1 : (keyValue (k - 1) + keyValue k) / 2 < r)
    (h2 : r < (keyValue k + keyValue (k + 1)) / 2) {j : Int} (hj : j ≠ k) : |keyValue k - r| < |keyValue j - r| := by
  have hm := keyValue_strictMono (show k - 1 < k by omega)
  have hp := keyValue_strictMono (show k < k + 1 by omega)
  rcases lt_or_gt_of_ne hj with h | h
  · have := keyValue_strictMono.monotone (show j ≤ k - 1 by omega)
    rw [abs_sub_comm (keyValue j), abs_of_pos (show 0 < r - keyValue j by linarith), abs_lt]
    constructor <;> linarith
  · have := keyValue_strictMono.monotone (show k + 1 ≤ j by omega)
    rw [abs_of_pos (show 0 < keyValue j - r by linarith), abs_lt]
    constructor <;> linarith

theorem two_pow_pos' : (0 : ℝ) < 2 ^ 1074 := by positivity

theorem midpoint_below {a b p e q T : ℝ} (hq : 0 < q) (hT : 0 < T) :
    (a + b) * q < (p - e) * (2 * T) ↔ (a / T + b / T) / 2 < p / q - e / q := by
  rw [← add_div a b T, div_div, ← sub_div, div_lt_div_iff₀ (by positivity) hq, mul_comm T 2]

theorem midpoint_above {a b p e q T : ℝ} (hq : 0 < q) (hT : 0 < T) :
    (p + e) * (2 * T) < (a + b) * q ↔ p / q + e / q < (a / T + b / T) / 2 := by
  rw [← add_div a b T, div_div, ← add_div p e q, div_lt_div_iff₀ hq (by positivity), mul_comm T 2]

/-- The integer test of `roundsWithin` over the real numbers. -/
theorem roundsWithin_iff (p : Int) (e : Nat) {q : Nat} (hq : 0 < q) (z : F) :
    roundsWithin p e q z = true ↔ (orderKey z).natAbs + 1 < infMag ∧
      (keyValue (orderKey z - 1) + keyValue (orderKey z)) / 2 < (p : ℝ) / q - (e : ℝ) / q ∧
      (p : ℝ) / q + (e : ℝ) / q < (keyValue (orderKey z) + keyValue (orderKey z + 1)) / 2 := by
  have hq' : (0 : ℝ) < q := by exact_mod_cast hq
  simp only [roundsWithin, Bool.and_eq_true, decide_eq_true_eq, and_assoc]
  rw [← @Int.cast_lt ℝ, ← @Int.cast_lt ℝ]
  simp only [Int.cast_mul, Int.cast_add, Int.cast_sub, Int.cast_pow, Int.cast_ofNat, Int.cast_natCast]
  rw [show (2 : ℝ) ^ 1075 = 2 * 2 ^ 1074 from pow_succ' 2 1074, midpoint_below hq' two_pow_pos',
    midpoint_above hq' two_pow_pos']
  rfl

/-- The test decides the rounding of every real number in the enclosure. -/
theorem roundsWithin_sound {p : Int} {e q : Nat} (hq : 0 < q) {z : F} {r : ℝ} (h : roundsWithin p e q z = true) (hr : |r| ≤ 1)
    (hd : |r - (p : ℝ) / q| ≤ (e : ℝ) / q) : RoundsTo r z := by
  obtain ⟨hk, hlo, hhi⟩ := (roundsWithin_iff p e hq z).mp h
  rw [abs_le] at hd
  refine roundsTo_of_small hr ((isFinite_iff z).mpr (by omega)) fun w _ => ?_
  rw [value_eq_keyValue, value_eq_keyValue]
  by_cases hw : orderKey w = orderKey z
  · refine ⟨by rw [hw], fun _ => .inl ?_⟩
    rw [value, value, signedUnits_eq_keyUnits, signedUnits_eq_keyUnits, hw]
  · have := nearest_of_midpoints (k := orderKey z) (r := r) (by linarith) (by linarith) hw
    exact ⟨this.le, fun h => absurd h this.ne⟩

/-- Two finite numbers equally near a real number, with different values, are neighbours in the order. -/
theorem neighbours_of_tie {r : ℝ} {z w : F} (hz : isFinite z = true) (hw : isFinite w = true)
    (hmin : ∀ v : F, isFinite v = true → |((value z : ℚ) : ℝ) - r| ≤ |((value v : ℚ) : ℝ) - r|)
    (htie : |((value z : ℚ) : ℝ) - r| = |((value w : ℚ) : ℝ) - r|) (hne : orderKey w ≠ orderKey z) :
    orderKey w = orderKey z + 1 ∨ orderKey w = orderKey z - 1 := by
  have hz' := (isFinite_iff z).mp hz
  have hw' := (isFinite_iff w).mp hw
  rw [value_eq_keyValue, value_eq_keyValue] at htie
  by_contra hc
  push Not at hc
  obtain ⟨j, hj⟩ : ∃ j, (orderKey z < j ∧ j < orderKey w) ∨ (orderKey w < j ∧ j < orderKey z) := by
    rcases lt_or_gt_of_ne hne with h | h
    · exact ⟨orderKey w + 1, .inr ⟨by omega, by omega⟩⟩
    · exact ⟨orderKey z + 1, .inl ⟨by omega, by omega⟩⟩
  obtain ⟨v, hv, hvk⟩ := exists_key (k := j) (by omega)
  have := hmin v hv
  rw [value_eq_keyValue, value_eq_keyValue, hvk] at this
  rcases hj with ⟨h1, h2⟩ | ⟨h1, h2⟩ <;>
  · have a1 := keyValue_strictMono h1
    have a2 := keyValue_strictMono h2
    rcases abs_cases (keyValue (orderKey z) - r) with ⟨b, _⟩ | ⟨b, _⟩ <;>
    rcases abs_cases (keyValue (orderKey w) - r) with ⟨c, _⟩ | ⟨c, _⟩ <;>
    rcases abs_cases (keyValue j - r) with ⟨d, _⟩ | ⟨d, _⟩ <;> linarith

/-- Every real number in `[-1, 1]` has a correctly rounded value. -/
theorem exists_roundsTo {r : ℝ} (hr : |r| ≤ 1) : ∃ z, RoundsTo r z := by
  obtain ⟨z, hz, hmin⟩ := Finset.exists_min_image (Finset.univ.filter fun x : F => isFinite x = true)
    (fun x => |((value x : ℚ) : ℝ) - r|) ⟨posZero, by simp; decide⟩
  simp only [Finset.mem_filter, Finset.mem_univ, true_and] at hz hmin
  by_cases heven : ∀ w : F, isFinite w = true → |((value z : ℚ) : ℝ) - r| = |((value w : ℚ) : ℝ) - r| →
      value w = value z ∨ fracField z % 2 = 0
  · exact ⟨z, roundsTo_of_small hr hz fun w hw => ⟨hmin w hw, heven w hw⟩⟩
  · push Not at heven
    obtain ⟨w, hw, htie, hne, hodd⟩ := heven
    have hk : orderKey w ≠ orderKey z := fun h =>
      hne (by rw [value, value, signedUnits_eq_keyUnits, signedUnits_eq_keyUnits, h])
    have hadj := neighbours_of_tie hz hw hmin htie hk
    have hev : fracField w % 2 = 0 := by
      have := fracField_parity z
      have := fracField_parity w
      omega
    exact ⟨w, roundsTo_of_small hr hw fun v hv => ⟨htie ▸ hmin v hv, fun _ => .inr hev⟩⟩

/-! ## When the test succeeds -/

theorem keyUnits_neg (k : Int) : keyUnits (-k) = -keyUnits k := by
  unfold keyUnits
  rcases lt_trichotomy k 0 with h | rfl | h
  · rw [if_neg (by omega), if_pos h, Int.natAbs_neg, neg_neg]
  · rfl
  · rw [if_pos (by omega), if_neg (by omega), Int.natAbs_neg]

/-- A midpoint of two neighbours is a rational number other than zero. -/
theorem midpoint_rational (k : Int) : ∃ c : ℚ, c ≠ 0 ∧ (keyValue k + keyValue (k + 1)) / 2 = (c : ℝ) := by
  refine ⟨(keyUnits k + keyUnits (k + 1) : Int) / (2 ^ 1074) / 2, ?_, ?_⟩
  · have h : keyUnits k + keyUnits (k + 1) ≠ 0 := fun h => by
      have h1 : keyUnits (k + 1) = keyUnits (-k) := by rw [keyUnits_neg]; omega
      have := keyUnits_strictMono.injective h1
      omega
    exact div_ne_zero (div_ne_zero (by exact_mod_cast h) (by positivity)) (by norm_num)
  · rw [keyValue, keyValue, ← add_div]
    push_cast
    rfl

/-- The nearest number to a real number in `[-1, 1]` that is no midpoint: both its neighbours are finite, and the real number
lies strictly between the midpoints. -/
theorem RoundsTo.strictly_between {r : ℝ} {z : F} (h : RoundsTo r z) (hr : |r| ≤ 1)
    (hmid : ∀ k, (keyValue k + keyValue (k + 1)) / 2 ≠ r) : (orderKey z).natAbs + 1 < infMag ∧
      (keyValue (orderKey z - 1) + keyValue (orderKey z)) / 2 < r ∧ r < (keyValue (orderKey z) + keyValue (orderKey z + 1)) / 2 := by
  have hone : ((value one : ℚ) : ℝ) = 1 := by rw [show value one = 1 by decide +kernel]; norm_num
  have hmone : ((value (fneg one) : ℚ) : ℝ) = -1 := by rw [show value (fneg one) = -1 by decide +kernel]; norm_num
  have hkey : orderKey (fneg one) ≤ orderKey z ∧ orderKey z ≤ orderKey one := by
    have h1 := h.near hr (w := one) (by decide)
    have h2 := h.near hr (w := fneg one) (by decide)
    rw [hone] at h1
    rw [hmone] at h2
    rw [abs_le] at hr
    rw [abs_of_nonneg (show (0 : ℝ) ≤ 1 - r by linarith), abs_le] at h1
    rw [abs_of_nonpos (show (-1 : ℝ) - r ≤ 0 by linarith), abs_le] at h2
    rw [← keyValue_strictMono.le_iff_le, ← keyValue_strictMono.le_iff_le, ← value_eq_keyValue, ← value_eq_keyValue,
      ← value_eq_keyValue, hone, hmone]
    constructor <;> linarith
  have hk : (orderKey z).natAbs + 1 < infMag := by
    have h1 : orderKey (fneg one) = -0x3FF0000000000000 := by decide
    have h2 : orderKey one = 0x3FF0000000000000 := by decide
    unfold infMag
    omega
  have hne1 := hmid (orderKey z - 1)
  have hne2 := hmid (orderKey z)
  rw [sub_add_cancel] at hne1
  refine ⟨hk, lt_of_le_of_ne ?_ hne1, lt_of_le_of_ne ?_ hne2.symm⟩
  · obtain ⟨w, hw, hwk⟩ := exists_key (k := orderKey z - 1) (by omega)
    have h1 := h.near hr hw
    have h2 := keyValue_strictMono (show orderKey z - 1 < orderKey z by omega)
    rw [value_eq_keyValue, value_eq_keyValue, hwk] at h1
    by_contra hc
    rw [abs_of_pos (show 0 < keyValue (orderKey z) - r by linarith), le_abs] at h1
    rcases h1 with h1 | h1 <;> linarith
  · obtain ⟨w, hw, hwk⟩ := exists_key (k := orderKey z + 1) (by omega)
    have h1 := h.near hr hw
    have h2 := keyValue_strictMono (show orderKey z < orderKey z + 1 by omega)
    rw [value_eq_keyValue, value_eq_keyValue, hwk] at h1
    by_contra hc
    rw [abs_of_neg (show keyValue (orderKey z) - r < 0 by linarith), le_abs] at h1
    rcases h1 with h1 | h1 <;> linarith

/-- A sequence of enclosures that narrows to a real number which is no midpoint decides its rounding at some point. -/
theorem roundsWithin_eventually {r : ℝ} (hr : |r| ≤ 1) (hmid : ∀ k, (keyValue k + keyValue (k + 1)) / 2 ≠ r)
    {p : ℕ → Int} {e q : ℕ → ℕ} (hq : ∀ n, 0 < q n) {M : ℕ} (hd : ∀ n, M ≤ n → |r - (p n : ℝ) / q n| ≤ (e n : ℝ) / q n)
    (hlim : Filter.Tendsto (fun n => (e n : ℝ) / q n) Filter.atTop (nhds 0)) :
    ∃ n z, M ≤ n ∧ roundsWithin (p n) (e n) (q n) z = true := by
  obtain ⟨z, hz⟩ := exists_roundsTo hr
  obtain ⟨hk, hlo, hhi⟩ := hz.strictly_between hr hmid
  obtain ⟨g, hg0, hg1, hg2⟩ : ∃ g : ℝ, 0 < g ∧
      (keyValue (orderKey z - 1) + keyValue (orderKey z)) / 2 ≤ r - g ∧
      r + g ≤ (keyValue (orderKey z) + keyValue (orderKey z + 1)) / 2 :=
    ⟨min (r - (keyValue (orderKey z - 1) + keyValue (orderKey z)) / 2)
        ((keyValue (orderKey z) + keyValue (orderKey z + 1)) / 2 - r), lt_min (by linarith) (by linarith), by
      have := min_le_left (r - (keyValue (orderKey z - 1) + keyValue (orderKey z)) / 2)
        ((keyValue (orderKey z) + keyValue (orderKey z + 1)) / 2 - r)
      linarith, by
      have := min_le_right (r - (keyValue (orderKey z - 1) + keyValue (orderKey z)) / 2)
        ((keyValue (orderKey z) + keyValue (orderKey z + 1)) / 2 - r)
      linarith⟩
  obtain ⟨K, hK⟩ := Filter.eventually_atTop.mp (hlim.eventually_lt_const (show (0 : ℝ) < g / 2 by linarith))
  have h1 := hK (max K M) (le_max_left _ _)
  have h2 := abs_le.mp (hd (max K M) (le_max_right _ _))
  exact ⟨max K M, z, le_max_right _ _, (roundsWithin_iff _ _ (hq _) z).mpr ⟨hk, by linarith, by linarith⟩⟩

end Sys2Proof.Machine
end

