-- ==== Sys2Proof/Laws/RoundingError.lean ====
section
/-! SUPPORT. How far the rounding of Machine/Binary64.lean is from the exact magnitude: at most `2^-53` of it, and nothing when
the magnitude has 53 bits. -/

namespace Sys2Proof.Machine

theorem roundHalfEven_near (a : Nat) {D : Nat} (hD : 0 < D) :
    2 * (roundHalfEven a D * D) ≤ 2 * a + D ∧ 2 * a ≤ 2 * (roundHalfEven a D * D) + D := by
  have h := Nat.div_add_mod a D
  have hr := Nat.mod_lt a hD
  simp only [roundHalfEven]
  have e : D * (a / D) = a / D * D := mul_comm _ _
  split
  · omega
  split
  · rw [add_mul]; omega
  · have h2 : a / D % 2 = 0 ∨ a / D % 2 = 1 := by omega
    rcases h2 with h2 | h2 <;> rw [h2, add_mul] <;> omega

theorem roundHalfEven_exact (c : Nat) {D : Nat} (hD : 0 < D) : roundHalfEven (c * D) D = c := by
  simp only [roundHalfEven, Nat.mul_mod_left, Nat.mul_div_cancel _ hD]
  rw [if_pos (by omega)]

/-- A pattern built from dropped bits and a significand has the units of their product, a carry into the exponent included. -/
theorem magUnits_pattern {d m : Nat} (hm : m ≤ 2 ^ 53) (h : d = 0 ∨ 2 ^ 52 ≤ m) : magUnits (d * 2 ^ 52 + m) = m * 2 ^ d := by
  unfold magUnits
  rcases Nat.lt_or_ge m (2 ^ 52) with h1 | h1
  · obtain rfl : d = 0 := by omega
    rw [if_pos (by omega)]
    omega
  rcases Nat.lt_or_ge m (2 ^ 53) with h2 | h2
  · rw [show (d * 2 ^ 52 + m) / 2 ^ 52 = d + 1 by omega, show (d * 2 ^ 52 + m) % 2 ^ 52 = m - 2 ^ 52 by omega,
      if_neg (by omega), Nat.add_sub_cancel, Nat.add_sub_cancel' h1]
  · obtain rfl : m = 2 ^ 53 := by omega
    rw [show (d * 2 ^ 52 + 2 ^ 53) / 2 ^ 52 = d + 2 by omega, show (d * 2 ^ 52 + 2 ^ 53) % 2 ^ 52 = 0 by omega,
      if_neg (by omega), show d + 2 - 1 = d + 1 by omega, pow_succ]
    ring

/-- The significand `roundMag` keeps is at most `2^53`, and at least `2^52` when bits are dropped. -/
theorem roundMag_significand {a b : Nat} (hb : 0 < b) :
    roundHalfEven a (b * 2 ^ (Nat.log2 (a / b) - 52)) ≤ 2 ^ 53 ∧
      (Nat.log2 (a / b) - 52 = 0 ∨ 2 ^ 52 ≤ roundHalfEven a (b * 2 ^ (Nat.log2 (a / b) - 52))) := by
  obtain ⟨d, hd⟩ : ∃ d, d = Nat.log2 (a / b) - 52 := ⟨_, rfl⟩
  rw [← hd]
  obtain ⟨D, hD⟩ : ∃ D, D = b * 2 ^ d := ⟨_, rfl⟩
  have hD0 : 0 < D := hD ▸ Nat.mul_pos hb (by positivity)
  obtain ⟨h1, h2⟩ := roundHalfEven_near a hD0
  rw [← hD]
  generalize roundHalfEven a D = m at *
  have hup : a < 2 ^ 53 * D := by
    have h3 : a / b < 2 ^ (53 + d) :=
      lt_of_lt_of_le (@Nat.lt_log2_self (a / b)) (Nat.pow_le_pow_right (by norm_num) (by omega))
    have := (Nat.div_lt_iff_lt_mul hb).mp h3
    calc a < 2 ^ (53 + d) * b := this
      _ = 2 ^ 53 * D := by rw [hD, pow_add]; ring
  constructor
  · by_contra hc
    have : (2 ^ 53 + 1) * D ≤ m * D := Nat.mul_le_mul_right _ (by omega)
    omega
  · rcases Nat.eq_zero_or_pos d with h0 | h0
    · exact .inl h0
    right
    have h3 : a / b ≠ 0 := by
      intro h; rw [h] at hd; simp at hd; omega
    have h4 : 2 ^ (52 + d) ≤ a / b :=
      le_trans (Nat.pow_le_pow_right (by norm_num) (by omega)) (Nat.log2_self_le h3)
    have h5 : 2 ^ 52 * D ≤ a := by
      calc 2 ^ 52 * D = 2 ^ (52 + d) * b := by rw [hD, pow_add]; ring
        _ ≤ a := (Nat.le_div_iff_mul_le hb).mp h4
    by_contra hc
    have : m * D ≤ (2 ^ 52 - 1) * D := Nat.mul_le_mul_right _ (by omega)
    omega

/-- Short of overflow the units of the rounded pattern are the significand times the power of two of the dropped bits. -/
theorem roundMag_units {a b : Nat} (hb : 0 < b) (h : Nat.log2 (a / b) ≤ 2096) :
    roundMag a b < infMag ∧ magUnits (roundMag a b) =
      roundHalfEven a (b * 2 ^ (Nat.log2 (a / b) - 52)) * 2 ^ (Nat.log2 (a / b) - 52) := by
  obtain ⟨h1, h2⟩ := roundMag_significand (a := a) hb
  have hlt : (Nat.log2 (a / b) - 52) * 2 ^ 52 + roundHalfEven a (b * 2 ^ (Nat.log2 (a / b) - 52)) < infMag := by
    unfold infMag; omega
  rw [roundMag, min_eq_left hlt.le]
  exact ⟨hlt, magUnits_pattern h1 h2⟩

/-- The relative error of one rounding of a normal magnitude is at most `2^-53`. -/
theorem roundMag_error {a b : Nat} (hb : 0 < b) (h : Nat.log2 (a / b) ≤ 2096) (hn : 2 ^ 52 ≤ a / b) :
    |(magUnits (roundMag a b) : ℝ) - a / b| ≤ a / b / 2 ^ 53 := by
  rw [(roundMag_units hb h).2]
  obtain ⟨d, hd⟩ : ∃ d, d = Nat.log2 (a / b) - 52 := ⟨_, rfl⟩
  rw [← hd]
  have hD0 : 0 < b * 2 ^ d := Nat.mul_pos hb (by positivity)
  obtain ⟨h1, h2⟩ := roundHalfEven_near a hD0
  generalize roundHalfEven a (b * 2 ^ d) = m at *
  have hb' : (0 : ℝ) < b := by exact_mod_cast hb
  have h3 : 2 ^ (52 + d) * b ≤ a := by
    have hl : Nat.log2 (a / b) = 52 + d := by
      have : 52 ≤ Nat.log2 (a / b) := (Nat.le_log2 (by omega)).mpr hn
      omega
    exact (Nat.le_div_iff_mul_le hb).mp (hl ▸ Nat.log2_self_le (by omega))
  have h1' : 2 * ((m : ℝ) * (b * 2 ^ d)) ≤ 2 * a + b * 2 ^ d := by exact_mod_cast h1
  have h2' : 2 * (a : ℝ) ≤ 2 * (m * (b * 2 ^ d)) + b * 2 ^ d := by exact_mod_cast h2
  have h3' : (2 : ℝ) ^ (52 + d) * b ≤ a := by exact_mod_cast h3
  rw [pow_add] at h3'
  push_cast
  have e : (m : ℝ) * 2 ^ d - a / b = (m * (b * 2 ^ d) - a) / b := by field_simp
  rw [e, abs_div, abs_of_pos hb', div_right_comm]
  refine div_le_div_of_nonneg_right ?_ hb'.le
  have h4 : (2 : ℝ) ^ 52 * (b * 2 ^ d) ≤ a := by linarith
  rw [abs_le]
  constructor <;> linarith

/-- A magnitude of at most 53 significant bits is not changed by the rounding. -/
theorem roundMag_exact {b c j : Nat} (hb : 0 < b) (hc : c < 2 ^ 53) (hj : j ≤ 2044) :
    roundMag (c * 2 ^ j * b) b < infMag ∧ magUnits (roundMag (c * 2 ^ j * b) b) = c * 2 ^ j := by
  have hq : c * 2 ^ j * b / b = c * 2 ^ j := Nat.mul_div_cancel _ hb
  have hl : Nat.log2 (c * 2 ^ j) < 53 + j := by
    rcases Nat.eq_zero_or_pos c with h0 | h0
    · rw [h0]; simp
    · refine (Nat.log2_lt (Nat.mul_ne_zero (by omega) (by positivity))).mpr ?_
      rw [pow_add]; exact Nat.mul_lt_mul_of_pos_right hc (by positivity)
  have hu := roundMag_units (a := c * 2 ^ j * b) hb (by rw [hq]; omega)
  refine ⟨hu.1, ?_⟩
  rw [hu.2, hq]
  obtain ⟨d, hd⟩ : ∃ d, d = Nat.log2 (c * 2 ^ j) - 52 := ⟨_, rfl⟩
  rw [← hd]
  obtain ⟨i, rfl⟩ := Nat.exists_eq_add_of_le (show d ≤ j by omega)
  rw [show c * 2 ^ (d + i) * b = c * 2 ^ i * (b * 2 ^ d) by rw [pow_add]; ring,
    roundHalfEven_exact _ (Nat.mul_pos hb (by positivity)), pow_add]
  ring

/-! ## Values of built patterns -/

theorem units_ofSignMag (neg : Bool) {m : Nat} (h : m < infMag) : units (ofSignMag neg m) = magUnits m := by
  have h63 : m < 2 ^ 63 := lt_trans h (by decide)
  rw [units, magUnits, expField_ofSignMag _ h63, fracField_ofSignMag _ h63]

theorem isFinite_ofSignMag (neg : Bool) {m : Nat} (h : m < infMag) : isFinite (ofSignMag neg m) = true := by
  have h63 : m < 2 ^ 63 := lt_trans h (by decide)
  simp only [isFinite, expField_ofSignMag _ h63, bne_iff_ne, ne_eq]
  unfold infMag at h
  omega

theorem value_ofSignMag (neg : Bool) {m : Nat} (h : m < infMag) :
    ((value (ofSignMag neg m) : ℚ) : ℝ) = (if neg then -(magUnits m : ℝ) else magUnits m) / 2 ^ 1074 := by
  have h63 : m < 2 ^ 63 := lt_trans h (by decide)
  rw [value, signedUnits, units_ofSignMag neg h, signBit_ofSignMag neg h63]
  cases neg <;> simp

/-- A magnitude of at most 53 significant bits is a binary64 number. -/
theorem exists_exact (neg : Bool) {c j : Nat} (hc : c < 2 ^ 53) (hj : j ≤ 2044) :
    ∃ w : F, isFinite w = true ∧
      ((value w : ℚ) : ℝ) = (if neg then -((c : ℝ) * 2 ^ j) else (c : ℝ) * 2 ^ j) / 2 ^ 1074 := by
  have h := roundMag_exact (b := 1) one_pos hc hj
  refine ⟨_, isFinite_ofSignMag neg h.1, ?_⟩
  rw [value_ofSignMag neg h.1, h.2]
  push_cast
  rfl

/-- Some binary64 number is within `2^-54` of any real number in `[-1, 1]`. -/
theorem exists_near_unit {r : ℝ} (hr : |r| ≤ 1) : ∃ w : F, isFinite w = true ∧ |((value w : ℚ) : ℝ) - r| ≤ 1 / 2 ^ 54 := by
  obtain ⟨a, ha⟩ : ∃ a : ℕ, a = ⌊|r| * 2 ^ 53 + 1 / 2⌋₊ := ⟨_, rfl⟩
  have hnn : 0 ≤ |r| * 2 ^ 53 + 1 / 2 := by positivity
  have h1 := Nat.floor_le hnn
  have h2 := Nat.lt_floor_add_one (|r| * 2 ^ 53 + 1 / 2)
  rw [← ha] at h1 h2
  have hle : a ≤ 2 ^ 53 := by
    have : (a : ℝ) < 2 ^ 53 + 1 := by linarith
    have : a < 2 ^ 53 + 1 := by exact_mod_cast this
    omega
  have key : ∃ w : F, isFinite w = true ∧
      ((value w : ℚ) : ℝ) = (if decide (r < 0) = true then -((a : ℝ) / 2 ^ 53) else (a : ℝ) / 2 ^ 53) := by
    rcases Nat.lt_or_ge a (2 ^ 53) with h | h
    · obtain ⟨w, hw, hv⟩ := exists_exact (decide (r < 0)) (j := 1021) h (by norm_num)
      refine ⟨w, hw, hv.trans ?_⟩
      have e : (a : ℝ) * 2 ^ 1021 / 2 ^ 1074 = a / 2 ^ 53 := by
        rw [show (1074 : ℕ) = 53 + 1021 by norm_num, pow_add, mul_div_mul_right _ _ (by positivity)]
      split <;> [rw [neg_div, e]; exact e]
    · obtain rfl : a = 2 ^ 53 := by omega
      obtain ⟨w, hw, hv⟩ := exists_exact (decide (r < 0)) (c := 1) (j := 1074) (by norm_num) (by norm_num)
      refine ⟨w, hw, hv.trans ?_⟩
      have e : ((1 : ℕ) : ℝ) * 2 ^ 1074 / 2 ^ 1074 = ((2 ^ 53 : ℕ) : ℝ) / 2 ^ 53 := by
        rw [Nat.cast_one, one_mul, div_self (by positivity)]; norm_num
      split <;> [rw [neg_div, e]; exact e]
  obtain ⟨w, hw, hv⟩ := key
  refine ⟨w, hw, ?_⟩
  rw [hv, abs_le]
  have e : (a : ℝ) / 2 ^ 53 = a * (1 / 2 ^ 53) := by ring
  by_cases hneg : r < 0
  · rw [abs_of_neg hneg] at h1 h2
    rw [if_pos (by simpa using hneg), e]
    constructor <;> norm_num at * <;> linarith
  · rw [abs_of_nonneg (not_lt.mp hneg)] at h1 h2
    rw [if_neg (by simpa using hneg), e]
    constructor <;> norm_num at * <;> linarith

/-- A correctly rounded value of a real number in `[-1, 1]` is within `2^-54` of it, and in `[-1, 1]`. -/
theorem RoundsTo.error {r : ℝ} {z : F} (h : RoundsTo r z) (hr : |r| ≤ 1) : |((value z : ℚ) : ℝ) - r| ≤ 1 / 2 ^ 54 := by
  obtain ⟨w, hw, hn⟩ := exists_near_unit hr
  exact le_trans (h.near hr hw) hn

theorem RoundsTo.in_unit {r : ℝ} {z : F} (h : RoundsTo r z) (hr : |r| ≤ 1) : |((value z : ℚ) : ℝ)| ≤ 1 := by
  obtain ⟨p, hp, vp⟩ := exists_exact false (c := 1) (j := 1074) (by norm_num) (by norm_num)
  obtain ⟨m, hm, vm⟩ := exists_exact true (c := 1) (j := 1074) (by norm_num) (by norm_num)
  have e : ((1 : ℕ) : ℝ) * 2 ^ 1074 / 2 ^ 1074 = 1 := by rw [Nat.cast_one, one_mul, div_self (by positivity)]
  simp only [Bool.false_eq_true, if_false, if_true, neg_div, e] at vp vm
  have h1 := h.near hr hp
  have h2 := h.near hr hm
  rw [vp] at h1
  rw [vm] at h2
  rw [abs_le] at hr ⊢
  rw [abs_of_nonneg (show (0 : ℝ) ≤ 1 - r by linarith), abs_le] at h1
  rw [abs_of_nonpos (show (-1 : ℝ) - r ≤ 0 by linarith), abs_le] at h2
  constructor <;> linarith

end Sys2Proof.Machine
end

