-- ==== Sys2Proof/Laws/NoTies.lean ====
section
/-! SUPPORT. Cosine and sine of a rational number other than zero are no rational number but zero (from the analytic part of
the Lindemann-Weierstrass theorem), so a correctly rounded cosine or sine is never a tie (40_numerics.md R118). -/

namespace Sys2Proof.Machine

open Polynomial in
/-- The value of an integer polynomial at `(a/b)i`, cleared of its denominator, is a Gaussian integer. -/
theorem clear_denominator (a : ℤ) {b : ℕ} (hb : 0 < b) {g : ℤ[X]} {m : ℕ} (hg : g.natDegree ≤ m) :
    ∃ u v : ℤ, (b : ℂ) ^ m * aeval ((a : ℂ) / b * Complex.I) g = u + v * Complex.I := by
  obtain ⟨z, hz⟩ : ∃ z : GaussianInt, (z : ℂ) = (b : ℂ) ^ m * aeval ((a : ℂ) / b * Complex.I) g := by
    refine ⟨∑ j ∈ Finset.range (m + 1), (g.coeff j : GaussianInt) * ⟨0, a⟩ ^ j * (b : GaussianInt) ^ (m - j), ?_⟩
    rw [aeval_eq_sum_range' (Nat.lt_succ_of_le hg), Finset.mul_sum, map_sum]
    refine Finset.sum_congr rfl fun j hj => ?_
    have hjm : j ≤ m := Nat.lt_succ_iff.mp (Finset.mem_range.mp hj)
    obtain ⟨i, rfl⟩ := Nat.exists_eq_add_of_le hjm
    have hb' : (b : ℂ) ≠ 0 := by exact_mod_cast hb.ne'
    rw [map_mul, map_mul, map_pow, map_pow, map_intCast, map_natCast, GaussianInt.toComplex_def', zsmul_eq_mul, mul_pow, div_pow,
      pow_add, Nat.add_sub_cancel_left]
    field_simp
    push_cast
    ring
  exact ⟨z.re, z.im, by rw [← hz, GaussianInt.toComplex_def]⟩

open Polynomial in
/-- The exponential of a rational multiple of `i`, approximated by Gaussian integers as the theorem needs it: for every scale
`D` and bound `B` there are a prime `p > B` and an integer `n` it does not divide. -/
theorem exp_approx {a : ℤ} (ha : a ≠ 0) {b : ℕ} (hb : 0 < b) {D : ℝ} (hD : 0 ≤ D) (B : ℕ) :
    ∃ p : ℕ, p.Prime ∧ B < p ∧ ∃ n u v : ℤ, ¬(p : ℤ) ∣ n ∧
      ‖(n : ℂ) * (b : ℂ) ^ (2 * p) * Complex.exp ((a : ℂ) / b * Complex.I) - p * (u + v * Complex.I)‖ * D < 1 := by
  have hb' : (b : ℂ) ≠ 0 := by exact_mod_cast hb.ne'
  obtain ⟨f, hf⟩ : ∃ f : ℤ[X], f = C ((b : ℤ) ^ 2) * X ^ 2 + C (a ^ 2) := ⟨_, rfl⟩
  have hf0 : f.eval 0 ≠ 0 := by rw [hf]; simp [ha]
  have hdeg : f.natDegree ≤ 2 := by rw [hf]; compute_degree
  have hroot : (a : ℂ) / b * Complex.I ∈ f.aroots ℂ := by
    rw [mem_aroots]
    refine ⟨fun h => hf0 (by rw [h]; simp), ?_⟩
    rw [hf]
    simp [mul_pow, div_pow]
    field_simp
    ring
  obtain ⟨c, hc⟩ := LindemannWeierstrass.exp_polynomial_approx f hf0
  have hlim : Filter.Tendsto (fun p : ℕ => ((b : ℝ) ^ 2 * |c|) * (((b : ℝ) ^ 2 * |c|) ^ p / (p.factorial : ℝ)) * |D|)
      Filter.atTop (nhds 0) := by
    have := ((FloorSemiring.tendsto_pow_div_factorial_atTop ((b : ℝ) ^ 2 * |c|)).const_mul ((b : ℝ) ^ 2 * |c|)).mul_const |D|
    simpa using this
  obtain ⟨P, hP⟩ := Filter.eventually_atTop.mp (hlim.eventually_lt_const one_pos)
  obtain ⟨p, hpge, hp⟩ := Nat.exists_infinite_primes (B + (eval 0 f).natAbs + P + 2)
  obtain ⟨n, hn, gp, hgp, happ⟩ := hc p (by omega) hp
  obtain ⟨u, v, huv⟩ := clear_denominator a hb (g := gp) (m := 2 * p) (le_trans hgp (by
    have : p * f.natDegree ≤ p * 2 := Nat.mul_le_mul_left _ hdeg
    omega))
  refine ⟨p, hp, by omega, n, u, v, hn, ?_⟩
  have h1 := happ hroot
  rw [zsmul_eq_mul, nsmul_eq_mul] at h1
  have e : (n : ℂ) * (b : ℂ) ^ (2 * p) * Complex.exp ((a : ℂ) / b * Complex.I) - p * (u + v * Complex.I) =
      (b : ℂ) ^ (2 * p) * (n * Complex.exp ((a : ℂ) / b * Complex.I) - p * aeval ((a : ℂ) / b * Complex.I) gp) := by
    rw [← huv]; ring
  have hnb : ‖(b : ℂ) ^ (2 * p)‖ = (b : ℝ) ^ (2 * p) := by simp
  obtain ⟨q, rfl⟩ : ∃ q, p = q + 1 := ⟨p - 1, by omega⟩
  have h2 := hP q (by omega)
  rw [e, norm_mul, hnb]
  refine lt_of_le_of_lt ?_ h2
  calc (b : ℝ) ^ (2 * (q + 1)) * ‖_‖ * D ≤ (b : ℝ) ^ (2 * (q + 1)) * (|c| ^ (q + 1) / (q.factorial : ℝ)) * |D| := by
        refine mul_le_mul (mul_le_mul_of_nonneg_left (le_trans h1 ?_) (by positivity)) (le_abs_self D) hD (by positivity)
        rw [Nat.add_sub_cancel]
        exact div_le_div_of_nonneg_right (le_trans (le_abs_self _) (abs_pow c _).le) (by positivity)
    _ = _ := by rw [pow_mul, pow_succ, pow_succ |c|, mul_pow]; ring

/-- Neither the real nor the imaginary part of the approximated exponential is a rational number but zero. -/
theorem no_integer_match {a : ℤ} (ha : a ≠ 0) {b : ℕ} (hb : 0 < b) {c : ℤ} (hc : c ≠ 0) {d : ℕ} (hd : 0 < d)
    (part : ℂ → ℝ) (hpart : ∀ z, |part z| ≤ ‖z‖)
    (hlin : ∀ (n p : ℤ) (m : ℕ) (u v : ℤ), ∃ w : ℤ,
      part ((n : ℂ) * (b : ℂ) ^ m * Complex.exp ((a : ℂ) / b * Complex.I) - p * (u + v * Complex.I)) =
        n * (b : ℝ) ^ m * part (Complex.exp ((a : ℂ) / b * Complex.I)) - p * w) :
    part (Complex.exp ((a : ℂ) / b * Complex.I)) ≠ (c : ℝ) / d := by
  intro he
  have hd' : (0 : ℝ) < d := by exact_mod_cast hd
  obtain ⟨p, hp, hlt, n, u, v, hn, happ⟩ := exp_approx ha hb hd'.le (b + c.natAbs)
  obtain ⟨w, hw⟩ := hlin n p (2 * p) u v
  rw [he] at hw
  have h1 : |((n * b ^ (2 * p) * c - p * w * d : ℤ) : ℝ)| < 1 := by
    have e : ((n * b ^ (2 * p) * c - p * w * d : ℤ) : ℝ) =
        part ((n : ℂ) * (b : ℂ) ^ (2 * p) * Complex.exp ((a : ℂ) / b * Complex.I) - p * (u + v * Complex.I)) * d := by
      have hw' := hw
      push_cast at hw' ⊢
      rw [hw']
      field_simp
    rw [e, abs_mul, abs_of_pos hd']
    exact lt_of_le_of_lt (mul_le_mul_of_nonneg_right (hpart _) hd'.le) happ
  have h2 : n * (b : ℤ) ^ (2 * p) * c - p * w * d = 0 := by
    rw [← Int.abs_lt_one_iff]; exact_mod_cast h1
  have hpp : Prime (p : ℤ) := Nat.prime_iff_prime_int.mp hp
  have h3 : (p : ℤ) ∣ n * (b : ℤ) ^ (2 * p) * c := ⟨w * d, by linarith⟩
  rcases hpp.dvd_mul.mp h3 with h4 | h4
  · rcases hpp.dvd_mul.mp h4 with h5 | h5
    · exact hn h5
    · have := Nat.le_of_dvd hb (Int.natCast_dvd_natCast.mp (hpp.dvd_of_dvd_pow h5))
      omega
  · have := Nat.le_of_dvd (Int.natAbs_pos.mpr hc) (Int.natCast_dvd.mp h4)
    omega

theorem rat_as_quotient (q : ℚ) : (q : ℝ) = ((q.num : ℤ) : ℝ) / (q.den : ℕ) := by
  conv_lhs => rw [← Rat.num_div_den q]
  push_cast
  rfl

theorem exp_arg (t : ℚ) : ((t.num : ℤ) : ℂ) / (t.den : ℕ) * Complex.I = ((t : ℝ) : ℂ) * Complex.I := by
  rw [rat_as_quotient]; push_cast; rfl

/-- The cosine of a rational number other than zero is no rational number but zero. -/
theorem cos_ne_rat {t c : ℚ} (ht : t ≠ 0) (hc : c ≠ 0) : Real.cos (t : ℝ) ≠ (c : ℝ) := by
  have h := no_integer_match (Rat.num_ne_zero.mpr ht) t.pos (Rat.num_ne_zero.mpr hc) c.pos Complex.re Complex.abs_re_le_norm
    (fun n p m u v => ⟨u, by
      rw [show (n : ℂ) * (t.den : ℂ) ^ m = ((n * (t.den : ℝ) ^ m : ℝ) : ℂ) by push_cast; rfl, Complex.sub_re,
        Complex.re_ofReal_mul]
      simp⟩)
  rwa [exp_arg, Complex.exp_ofReal_mul_I_re, ← rat_as_quotient] at h

/-- The sine of a rational number other than zero is no rational number but zero. -/
theorem sin_ne_rat {t c : ℚ} (ht : t ≠ 0) (hc : c ≠ 0) : Real.sin (t : ℝ) ≠ (c : ℝ) := by
  have h := no_integer_match (Rat.num_ne_zero.mpr ht) t.pos (Rat.num_ne_zero.mpr hc) c.pos Complex.im Complex.abs_im_le_norm
    (fun n p m u v => ⟨v, by
      rw [show (n : ℂ) * (t.den : ℂ) ^ m = ((n * (t.den : ℝ) ^ m : ℝ) : ℂ) by push_cast; rfl, Complex.sub_im,
        Complex.im_ofReal_mul]
      simp⟩)
  rwa [exp_arg, Complex.exp_ofReal_mul_I_im, ← rat_as_quotient] at h

end Sys2Proof.Machine
end

