-- ==== Sys2Proof/Machine/ReferenceTrig.lean ====
section
/-! DEFINITION. `RN(cos θ)` and `RN(sin θ)` (40_numerics.md R118): the exact real cosine and sine of a finite binary64 number,
rounded once to nearest even.  That they are is proved (`cosRounded_roundsTo`, `sinRounded_roundsTo`); the partial sums only
find the value, and no cosine is trusted (R120).  Forty terms decide every value that has been met; should they not, more terms
do, since a tie is impossible. -/

namespace Sys2Proof.Machine

/-- The magnitude of a finite number as a fraction in lowest terms, its numerator. -/
def fractionNum (x : F) : Nat := units x / Nat.gcd (units x) (2 ^ 1074)

/-- The denominator of that fraction, a power of two. -/
def fractionDen (x : F) : Nat := 2 ^ 1074 / Nat.gcd (units x) (2 ^ 1074)

/-- A series as the search sees it: for each number of terms the numerator of the partial sum at `x`, over
`seriesDen (2^1074) n`. -/
abbrev Series := F → Nat → Int

/-- The cosine series; the cosine is even. -/
def cosSeries : Series := fun x n => cosNum (fractionNum x) (fractionDen x) n

/-- The sine series; the sine is odd. -/
def sinSeries : Series := fun x n =>
  if signBit x then -sinNum (fractionNum x) (fractionDen x) n else sinNum (fractionNum x) (fractionDen x) n

/-- `n` terms of the series decide that the value at `x` rounds to `z`: the error of the sum is known, and every number within it
rounds to `z`. -/
def decides (f : Series) (x : F) (n : Nat) (z : F) : Bool :=
  decide (2 * fractionNum x ≤ fractionDen x * (2 * n + 1)) &&
    roundsWithin (f x n) (2 * fractionNum x ^ (2 * n)) (seriesDen (fractionDen x) n) z

/-- The partial sum of forty terms, rounded: the number the search tries first. -/
def firstTry (f : Series) (x : F) : F :=
  roundUnits (decide (f x 40 < 0)) ((f x 40).natAbs * 2 ^ 1074) (seriesDen (fractionDen x) 40)

/-- `f` is a series for the real function `g`: each partial sum with enough terms is within its error of `g`. -/
def Approximates (f : Series) (g : ℝ → ℝ) : Prop :=
  ∀ (x : F) (n : Nat), 2 * fractionNum x ≤ fractionDen x * (2 * n + 1) →
    |g ((value x : ℚ) : ℝ) - (f x n : ℝ) / seriesDen (fractionDen x) n| ≤
      ((2 * fractionNum x ^ (2 * n) : ℕ) : ℝ) / seriesDen (fractionDen x) n

theorem fractionDen_pos (x : F) : 0 < fractionDen x :=
  Nat.div_pos (Nat.gcd_le_right _ (by positivity)) (Nat.gcd_pos_of_pos_right _ (by positivity))

theorem fraction_eq (x : F) : (fractionNum x : ℚ) / fractionDen x = (units x : ℚ) / 2 ^ 1074 := by
  have hg : (Nat.gcd (units x) (2 ^ 1074) : ℚ) ≠ 0 := by
    exact_mod_cast (Nat.gcd_pos_of_pos_right _ (by positivity : 0 < 2 ^ 1074)).ne'
  rw [fractionNum, fractionDen, Nat.cast_div (Nat.gcd_dvd_left _ _) hg, Nat.cast_div (Nat.gcd_dvd_right _ _) hg,
    div_div_div_cancel_right₀ hg, Nat.cast_pow, Nat.cast_ofNat]

theorem value_eq_quotient (x : F) :
    value x = if signBit x then -((fractionNum x : ℚ) / (fractionDen x : ℚ)) else (fractionNum x : ℚ) / (fractionDen x : ℚ) := by
  rw [fraction_eq, value, signedUnits]
  push_cast
  split <;> simp [neg_div]

/-- The error of the sums in integers. -/
theorem series_error (u : Nat) {B : Nat} (hB : 0 < B) (n : Nat) :
    |(((u : ℚ) / (B : ℚ) : ℚ) : ℝ)| ^ (2 * n) / ((2 * n).factorial : ℝ) * 2 = ((2 * u ^ (2 * n) : ℕ) : ℝ) / seriesDen B n := by
  have hB' : (B : ℝ) ≠ 0 := by exact_mod_cast hB.ne'
  have hf : (((2 * n).factorial : ℕ) : ℝ) ≠ 0 := by exact_mod_cast (Nat.factorial_pos _).ne'
  rw [seriesDen, evenFactorial_eq]
  push_cast
  rw [abs_of_nonneg (by positivity), div_pow]
  field_simp

theorem terms_enough {u n B : Nat} (hB : 0 < B) (h : 2 * u ≤ B * (2 * n + 1)) :
    2 * |(((u : ℚ) / (B : ℚ) : ℚ) : ℝ)| ≤ 2 * n + 1 := by
  have h' : 2 * (u : ℝ) ≤ B * (2 * n + 1) := by exact_mod_cast h
  have hB' : (0 : ℝ) < B := by exact_mod_cast hB
  push_cast
  rw [abs_of_nonneg (by positivity), ← mul_div_assoc, div_le_iff₀ hB', mul_comm _ (B : ℝ)]
  exact h'

theorem cosSeries_approximates : Approximates cosSeries Real.cos := by
  intro x n h
  have hb := cosSum_bound (terms_enough (fractionDen_pos x) h)
  rw [series_error _ (fractionDen_pos x), ← cosNum_eq _ (fractionDen_pos x)] at hb
  have e : Real.cos ((value x : ℚ) : ℝ) = Real.cos (((fractionNum x : ℚ) / (fractionDen x : ℚ) : ℚ) : ℝ) := by
    rw [value_eq_quotient]; split <;> [rw [Rat.cast_neg, Real.cos_neg]; rfl]
  rw [e]
  simpa only [cosSeries, Rat.cast_div, Rat.cast_intCast, Rat.cast_natCast] using hb

theorem sinSeries_approximates : Approximates sinSeries Real.sin := by
  intro x n h
  have hb := sinSum_bound (terms_enough (fractionDen_pos x) h)
  rw [series_error _ (fractionDen_pos x), ← sinNum_eq _ (fractionDen_pos x)] at hb
  rw [value_eq_quotient, sinSeries]
  split
  · rw [Rat.cast_neg, Real.sin_neg, ← abs_neg, Int.cast_neg, neg_div, sub_neg_eq_add, neg_add_rev, neg_neg, neg_add_eq_sub]
    simpa only [Rat.cast_div, Rat.cast_intCast, Rat.cast_natCast] using hb
  · simpa only [Rat.cast_div, Rat.cast_intCast, Rat.cast_natCast] using hb

theorem decides_sound {f : Series} {g : ℝ → ℝ} (hf : Approximates f g) (hg : ∀ r, |g r| ≤ 1) {x z : F} {n : Nat}
    (h : decides f x n z = true) : RoundsTo (g ((value x : ℚ) : ℝ)) z := by
  simp only [decides, Bool.and_eq_true, decide_eq_true_eq] at h
  exact roundsWithin_sound (seriesDen_pos (fractionDen_pos x) n) h.2 (hg _) (hf x n h.1)

theorem series_error_tendsto (x : F) : Filter.Tendsto
    (fun n => ((2 * fractionNum x ^ (2 * n) : ℕ) : ℝ) / seriesDen (fractionDen x) n) Filter.atTop (nhds 0) := by
  have h := (FloorSemiring.tendsto_pow_div_factorial_atTop
    |(((fractionNum x : ℚ) / (fractionDen x : ℚ) : ℚ) : ℝ)|).mul_const 2
  rw [zero_mul] at h
  have h2 := h.comp (Filter.tendsto_id.const_mul_atTop' (show 0 < 2 by norm_num))
  refine h2.congr fun n => ?_
  rw [← series_error _ (fractionDen_pos x)]
  rfl

/-- Some number of terms decides the rounding, when the value is no midpoint of two binary64 numbers. -/
theorem decides_eventually {f : Series} {g : ℝ → ℝ} (hf : Approximates f g) (hg : ∀ r, |g r| ≤ 1) {x : F}
    (hmid : ∀ c : ℚ, c ≠ 0 → g ((value x : ℚ) : ℝ) ≠ (c : ℝ)) : ∃ m : Nat, decides f x (m / 2 ^ 64) (BitVec.ofNat 64 m) = true := by
  have hno : ∀ k, (keyValue k + keyValue (k + 1)) / 2 ≠ g ((value x : ℚ) : ℝ) := fun k h => by
    obtain ⟨c, hc, e⟩ := midpoint_rational k
    exact hmid c hc (h ▸ e)
  have henough : ∀ n, fractionNum x ≤ n → 2 * fractionNum x ≤ fractionDen x * (2 * n + 1) := fun n hn =>
    le_trans (show 2 * fractionNum x ≤ 1 * (2 * n + 1) by omega) (Nat.mul_le_mul_right _ (fractionDen_pos x))
  obtain ⟨n, z, hn, hz⟩ := roundsWithin_eventually (M := fractionNum x) (hg _) hno (fun n => seriesDen_pos (fractionDen_pos x) n)
    (fun n hn => hf x n (henough n hn)) (series_error_tendsto x)
  refine ⟨n * 2 ^ 64 + z.toNat, ?_⟩
  have h1 : (n * 2 ^ 64 + z.toNat) / 2 ^ 64 = n := by have := z.isLt; omega
  have h2 : BitVec.ofNat 64 (n * 2 ^ 64 + z.toNat) = z := by
    apply BitVec.eq_of_toNat_eq
    rw [BitVec.toNat_ofNat]
    have := z.isLt
    omega
  rw [h1, h2]
  simp only [decides, Bool.and_eq_true, decide_eq_true_eq]
  exact ⟨henough n hn, hz⟩

theorem isZero_iff_value {x : F} (h : isZero x = false) : value x ≠ 0 := by
  intro hv
  have hu : units x = 0 := by
    rw [value, div_eq_zero_iff] at hv
    rcases hv with hv | hv
    · have : signedUnits x = 0 := by exact_mod_cast hv
      unfold signedUnits at this
      split at this <;> omega
    · exact absurd hv (by positivity)
  unfold units at hu
  split at hu
  · next he => simp [isZero, he, hu] at h
  · have : 0 < (2 ^ 52 + fracField x) * 2 ^ (expField x - 1) := by positivity
    omega

theorem cos_decided {x : F} (h : isZero x = false) : ∃ m : Nat, decides cosSeries x (m / 2 ^ 64) (BitVec.ofNat 64 m) = true :=
  decides_eventually cosSeries_approximates Real.abs_cos_le_one fun _ hc => cos_ne_rat (isZero_iff_value h) hc

theorem sin_decided {x : F} (h : isZero x = false) : ∃ m : Nat, decides sinSeries x (m / 2 ^ 64) (BitVec.ofNat 64 m) = true :=
  decides_eventually sinSeries_approximates Real.abs_sin_le_one fun _ hc => sin_ne_rat (isZero_iff_value h) hc

/-- `RN(cos x)` of a number other than zero (R118); of a zero it is 1. -/
def cosRounded (x : F) : F :=
  if h : isZero x = false then
    if decides cosSeries x 40 (firstTry cosSeries x) then firstTry cosSeries x else BitVec.ofNat 64 (Nat.find (cos_decided h))
  else one

/-- `RN(sin x)` of a number other than zero (R118); of a zero it is that zero. -/
def sinRounded (x : F) : F :=
  if h : isZero x = false then
    if decides sinSeries x 40 (firstTry sinSeries x) then firstTry sinSeries x else BitVec.ofNat 64 (Nat.find (sin_decided h))
  else x

theorem cosRounded_roundsTo {x : F} (hx : isZero x = false) : RoundsTo (Real.cos ((value x : ℚ) : ℝ)) (cosRounded x) := by
  rw [cosRounded, dif_pos hx]
  split
  · next h => exact decides_sound cosSeries_approximates Real.abs_cos_le_one h
  · exact decides_sound cosSeries_approximates Real.abs_cos_le_one (Nat.find_spec (cos_decided hx))

theorem sinRounded_roundsTo {x : F} (hx : isZero x = false) : RoundsTo (Real.sin ((value x : ℚ) : ℝ)) (sinRounded x) := by
  rw [sinRounded, dif_pos hx]
  split
  · next h => exact decides_sound sinSeries_approximates Real.abs_sin_le_one h
  · exact decides_sound sinSeries_approximates Real.abs_sin_le_one (Nat.find_spec (sin_decided hx))

end Sys2Proof.Machine
end

