-- ==== Sys2Proof/Machine/ReferenceAngle.lean ====
section
/-! DEFINITION. The angle and the factor of the reference generator (40_numerics.md R118). -/

namespace Sys2Proof.Machine

/-- `TWO_PI`, the binary64 number nearest 2π (R118). -/
def twoPi : F := 0x401921FB54442D18#64

/-- The angle `θ` of R118: the product first, then the quotient, each rounded.  No operand is a NaN where `TW_REF` asks for it,
so the place of the two operations selects nothing. -/
def refAngle (dir : Dir) (k N : Nat) : F :=
  let s := match dir with
    | .forward => fneg twoPi
    | .inverse => twoPi
  fdiv ⟨0, []⟩ (fmul ⟨0, []⟩ s (ofNat k)) (ofNat N)

/-- The factor of an angle (R118): `(1.0, θ)` if `θ` is a zero, else the correctly rounded cosine and sine of `θ`. -/
def refFactor (θ : F) : Sample := if isZero θ then ⟨one, θ⟩ else ⟨cosRounded θ, sinRounded θ⟩

end Sys2Proof.Machine
end

