-- ==== Sys2Proof/Laws/ReferenceAngle.lean ====
section
/-! SUPPORT. How near the angle of R118 is to the exact one, and that the factor made from it has TW-P2 and TW-P5
(40_numerics.md R119a). -/

namespace Sys2Proof.Machine

/-! ## The scalar operations on finite numbers -/

theorem isNaN_of_isFinite {x : F} (h : isFinite x = true) : isNaN x = false := by
  simp only [isFinite, bne_iff_ne, ne_eq] at h
  simp [isNaN, h]

theorem isInf_of_isFinite {x : F} (h : isFinite x = true) : isInf x = false := by
  simp only [isFinite, bne_iff_ne, ne_eq] at h
  simp [isInf, h]

theorem isZero_of_units {x : F} (h : units x ≠ 0) : isZero x = false := by
  by_contra hc
  simp only [Bool.not_eq_false, isZero, Bool.and_eq_true, beq_iff_eq] at hc
  exact h (by rw [units, if_pos hc.1, hc.2])

/-- `fmul` of finite numbers is one rounding of the exact product. -/
theorem fmul_finite (d : Draw) {x y : F} (hx : isFinite x = true) (hy : isFinite y = true) :
    fmul d x y = ofSignMag (signBit x != signBit y) (roundMag (units x * units y) (2 ^ 1074)) := by
  simp [fmul, isNaN_of_isFinite hx, isNaN_of_isFinite hy, isInf_of_isFinite hx, isInf_of_isFinite hy, roundUnits]

/-- `fdiv` of finite numbers, the divisor not zero, is one rounding of the exact quotient. -/
theorem fdiv_finite (d : Draw) {x y : F} (hx : isFinite x = true) (hy : isFinite y = true) (hz : isZero y = false) :
    fdiv d x y = ofSignMag (signBit x != signBit y) (roundMag (units x * 2 ^ 1074) (units y)) := by
  simp [fdiv, isNaN_of_isFinite hx, isNaN_of_isFinite hy, isInf_of_isFinite hx, isInf_of_isFinite hy, hz, roundUnits]

/-- An integer below `2^53` converts exactly (R107). -/
theorem ofNat_exact {n : Nat} (h : n < 2 ^ 53) :
    isFinite (ofNat n) = true ∧ signBit (ofNat n) = false ∧ units (ofNat n) = n * 2 ^ 1074 := by
  obtain ⟨hlt, hu⟩ := roundMag_exact (b := 1) (j := 1074) one_pos h (by norm_num)
  rw [mul_one] at hlt hu
  have h63 := lt_trans hlt (show infMag < 2 ^ 63 by decide)
  exact ⟨isFinite_ofSignMag _ hlt, signBit_ofSignMag _ h63, by rw [ofNat, roundUnits, units_ofSignMag _ hlt, hu]⟩

/-! ## The angle -/

/-- The angle of index 0 is `-0` for every length a build may serve (R118). -/
theorem refAngle_zero : ∀ n < 32, refAngle .forward 0 (2 ^ n) = negZero := by decide +kernel

theorem log2_le {m j : Nat} (h : m < 2 ^ (j + 1)) {l : Nat} (hj : j ≤ l) : Nat.log2 m ≤ l := by
  rcases Nat.eq_zero_or_pos m with rfl | h0
  · simp
  · have := (Nat.log2_lt (by omega)).mpr h
    omega

/-- The two roundings of the angle, over the real numbers: `x` is `C k` rounded, `y` is `x / N` rounded, and `C * 2^-50` is
`TWO_PI`. -/
theorem angle_error {x y k N : ℝ} (hk : 0 ≤ k) (hN : 0 < N) (h2 : 2 * k ≤ N)
    (hx : |x - 7074237752028440 * k| ≤ 7074237752028440 * k / 2 ^ 53) (hy : |y - x / N| ≤ x / N / 2 ^ 53) :
    |-(y / 2 ^ 50) - -(2 * Real.pi * k / N)| ≤ 1 / 2 ^ 50 - 1 / 2 ^ 54 := by
  obtain ⟨κ, hκ⟩ : ∃ κ, κ = k / N := ⟨_, rfl⟩
  have hκ0 : 0 ≤ κ := hκ ▸ div_nonneg hk hN.le
  have hκ1 : κ ≤ 1 / 2 := by rw [hκ, div_le_iff₀ hN]; linarith
  obtain ⟨z, hz⟩ : ∃ z, z = x / N := ⟨_, rfl⟩
  have hxz : |z - 7074237752028440 * κ| ≤ 7074237752028440 * κ / 2 ^ 53 := by
    have e : z - 7074237752028440 * κ = (x - 7074237752028440 * k) / N := by rw [hz, hκ]; ring
    rw [e, abs_div, abs_of_pos hN, div_le_iff₀ hN]
    refine le_trans hx (le_of_eq ?_)
    rw [hκ]; field_simp
  rw [← hz] at hy
  have hp1 := Real.pi_gt_d20
  have hp2 := Real.pi_lt_d20
  have hπ1 : Real.pi * κ ≤ 3.14159265358979323847 * κ := mul_le_mul_of_nonneg_right hp2.le hκ0
  have hπ2 : 3.14159265358979323846 * κ ≤ Real.pi * κ := mul_le_mul_of_nonneg_right hp1.le hκ0
  have e : 2 * Real.pi * k / N = 2 * (Real.pi * κ) := by rw [hκ]; ring
  rw [e]
  rw [abs_le] at hxz hy ⊢
  norm_num at *
  constructor <;> linarith

/-- The angle of R118 is within `2^-50 - 2^-54` of the exact angle of R115 (R119a). -/
theorem refAngle_near {k n : Nat} (hn : n < 32) (h2 : 2 * k ≤ 2 ^ n) : isFinite (refAngle .forward k (2 ^ n)) = true ∧
    |((value (refAngle .forward k (2 ^ n)) : ℚ) : ℝ) - -(2 * Real.pi * k / ((2 ^ n : ℕ) : ℝ))| ≤ 1 / 2 ^ 50 - 1 / 2 ^ 54 := by
  rcases Nat.eq_zero_or_pos k with rfl | hk
  · rw [refAngle_zero n hn, show value negZero = 0 by decide +kernel]
    exact ⟨by decide, by norm_num⟩
  have hn31 : 2 ^ n ≤ 2 ^ 31 := Nat.pow_le_pow_right (by norm_num) (by omega)
  obtain ⟨kf, ks, ku⟩ := ofNat_exact (n := k) (by omega)
  obtain ⟨nf, ns, nu⟩ := ofNat_exact (n := 2 ^ n) (by omega)
  have hN0 : 0 < 2 ^ n := by positivity
  have hT : 0 < 2 ^ 1074 := by positivity
  -- the product
  have hsu : units (fneg twoPi) = 7074237752028440 * 2 ^ 1024 := by decide +kernel
  obtain ⟨A, hA⟩ : ∃ A, A = 7074237752028440 * 2 ^ 1024 * (k * 2 ^ 1074) := ⟨_, rfl⟩
  have hAq : A / 2 ^ 1074 = 7074237752028440 * k * 2 ^ 1024 := by
    rw [hA, ← mul_assoc, Nat.mul_div_cancel _ hT, mul_right_comm]
  obtain ⟨hlow, hhigh⟩ : 2 ^ 1076 ≤ 7074237752028440 * k * 2 ^ 1024 ∧ 7074237752028440 * k * 2 ^ 1024 < 2 ^ 1110 := by
    rw [show 1076 = 52 + 1024 from rfl, show 1110 = 86 + 1024 from rfl, pow_add, pow_add]
    constructor
    · exact Nat.mul_le_mul_right (2 ^ 1024) (show 2 ^ 52 ≤ 7074237752028440 * k by omega)
    · exact Nat.mul_lt_mul_of_pos_right (show 7074237752028440 * k < 2 ^ 86 by omega) (by positivity)
  rw [← hAq] at hlow hhigh
  obtain ⟨mx, hmx⟩ : ∃ m, m = roundMag A (2 ^ 1074) := ⟨_, rfl⟩
  have hxf := (roundMag_units hT (log2_le hhigh (by norm_num))).1
  have hxe := roundMag_error hT (log2_le hhigh (by norm_num)) (le_trans (Nat.pow_le_pow_right (by norm_num) (by norm_num)) hlow)
  have hx : fmul ⟨0, []⟩ (fneg twoPi) (ofNat k) = ofSignMag true mx := by
    rw [fmul_finite _ (by decide) kf, hsu, ku, ks, ← hA, ← hmx]; rfl
  rw [← hmx] at hxf hxe
  -- the quotient
  obtain ⟨X, hX⟩ : ∃ X, X = magUnits mx := ⟨_, rfl⟩
  obtain ⟨my, hmy⟩ : ∃ m, m = roundMag (X * 2 ^ 1074) (2 ^ n * 2 ^ 1074) := ⟨_, rfl⟩
  have hθ : refAngle .forward k (2 ^ n) = ofSignMag true my := by
    have hz : isZero (ofNat (2 ^ n)) = false := isZero_of_units (by rw [nu]; positivity)
    simp only [refAngle]
    rw [hx, fdiv_finite _ (isFinite_ofSignMag _ hxf) nf hz, units_ofSignMag _ hxf, nu, ns,
      signBit_ofSignMag _ (lt_trans hxf (by decide)), ← hX, ← hmy]
    rfl
  have hxe' : |(X : ℝ) / 2 ^ 1024 - 7074237752028440 * k| ≤ 7074237752028440 * (k : ℝ) / 2 ^ 53 := by
    have hA' : (A : ℝ) / ((2 ^ 1074 : ℕ) : ℝ) = 7074237752028440 * k * 2 ^ 1024 := by
      rw [hA, div_eq_iff (by positivity)]; push_cast; ring
    have e : (X : ℝ) / 2 ^ 1024 - 7074237752028440 * k = (X - 7074237752028440 * k * 2 ^ 1024) / 2 ^ 1024 := by
      rw [sub_div, mul_div_cancel_right₀ _ (by positivity)]
    rw [← hX, hA'] at hxe
    rw [e, abs_div, abs_of_pos (show (0 : ℝ) < 2 ^ 1024 by positivity), div_le_iff₀ (by positivity)]
    refine le_trans hxe (le_of_eq ?_)
    ring
  obtain ⟨hXlow, hXhigh⟩ : 2 ^ 51 * 2 ^ 1024 ≤ X ∧ X < 2 ^ 87 * 2 ^ 1024 := by
    have hk1 : (1 : ℝ) ≤ k := by exact_mod_cast hk
    have hk2 : (k : ℝ) ≤ 1073741824 := by exact_mod_cast (by omega : k ≤ 1073741824)
    have hb := abs_le.mp hxe'
    have h12 : (2 : ℝ) ^ 51 ≤ X / 2 ^ 1024 ∧ (X : ℝ) / 2 ^ 1024 < 2 ^ 87 := by
      generalize (X : ℝ) / 2 ^ 1024 = ξ at hb
      norm_num at hb ⊢
      constructor <;> linarith
    obtain ⟨h1, h2⟩ := h12
    rw [le_div_iff₀ (by positivity)] at h1
    rw [div_lt_iff₀ (by positivity)] at h2
    exact ⟨by exact_mod_cast h1, by exact_mod_cast h2⟩
  have hNT : 0 < 2 ^ n * 2 ^ 1074 := by positivity
  have hYq : X * 2 ^ 1074 / (2 ^ n * 2 ^ 1074) = X / 2 ^ n := Nat.mul_div_mul_right _ _ hT
  have hYhigh : X / 2 ^ n < 2 ^ (1110 + 1) := by
    refine lt_of_le_of_lt (Nat.div_le_self _ _) ?_
    rwa [show 1110 + 1 = 87 + 1024 from rfl, pow_add]
  have hYlow : 2 ^ 52 ≤ X / 2 ^ n := by
    rw [Nat.le_div_iff_mul_le hN0]
    refine le_trans (Nat.mul_le_mul_left _ hn31) (le_trans ?_ hXlow)
    rw [← pow_add, ← pow_add]
    exact Nat.pow_le_pow_right (by norm_num) (by norm_num)
  rw [← hYq] at hYhigh hYlow
  have hyf := (roundMag_units hNT (log2_le hYhigh (by norm_num))).1
  have hye := roundMag_error hNT (log2_le hYhigh (by norm_num)) hYlow
  rw [← hmy] at hyf hye
  have hY' : ((X * 2 ^ 1074 : ℕ) : ℝ) / ((2 ^ n * 2 ^ 1074 : ℕ) : ℝ) = X / ((2 ^ n : ℕ) : ℝ) := by
    rw [Nat.cast_mul, Nat.cast_mul, mul_div_mul_right _ _ (by positivity)]
  rw [hY'] at hye
  have hye' : |(magUnits my : ℝ) / 2 ^ 1024 - X / 2 ^ 1024 / ((2 ^ n : ℕ) : ℝ)| ≤
      X / 2 ^ 1024 / ((2 ^ n : ℕ) : ℝ) / 2 ^ 53 := by
    have e : (magUnits my : ℝ) / 2 ^ 1024 - X / 2 ^ 1024 / ((2 ^ n : ℕ) : ℝ) =
        (magUnits my - X / ((2 ^ n : ℕ) : ℝ)) / 2 ^ 1024 := by rw [sub_div, div_right_comm]
    rw [e, abs_div, abs_of_pos (show (0 : ℝ) < 2 ^ 1024 by positivity), div_le_iff₀ (by positivity)]
    refine le_trans hye (le_of_eq ?_)
    field_simp
  have hval : ((value (ofSignMag true my) : ℚ) : ℝ) = -((magUnits my : ℝ) / 2 ^ 1024 / 2 ^ 50) := by
    rw [value_ofSignMag true hyf, if_pos rfl, div_div, ← pow_add, neg_div]
  rw [hθ]
  refine ⟨isFinite_ofSignMag true hyf, ?_⟩
  rw [hval]
  have hN' : (0 : ℝ) < ((2 ^ n : ℕ) : ℝ) := by exact_mod_cast hN0
  exact angle_error (by positivity) hN' (by exact_mod_cast h2) hxe' hye'

/-- The factor of a finite angle: each component within `2^-54` of the cosine or sine of the angle, and in `[-1, 1]`. -/
theorem refFactor_close {θ : F} (hf : isFinite θ = true) :
    (InUnitRange (refFactor θ).re ∧ InUnitRange (refFactor θ).im) ∧
      |((value (refFactor θ).re : ℚ) : ℝ) - Real.cos ((value θ : ℚ) : ℝ)| ≤ 1 / 2 ^ 54 ∧
      |((value (refFactor θ).im : ℚ) : ℝ) - Real.sin ((value θ : ℚ) : ℝ)| ≤ 1 / 2 ^ 54 := by
  have hunit : ∀ {r : ℝ} {z : F}, RoundsTo r z → |r| ≤ 1 → InUnitRange z := fun h hr =>
    ⟨h.isFinite hr, by have := h.in_unit hr; rw [← Rat.cast_abs] at this; exact_mod_cast this⟩
  unfold refFactor
  cases hz : isZero θ with
  | true =>
    have hv : value θ = 0 := by
      simp only [isZero, Bool.and_eq_true, beq_iff_eq] at hz
      simp [value, signedUnits, units, hz.1, hz.2]
    simp only [if_true]
    refine ⟨⟨⟨by decide, by rw [show value one = 1 by decide +kernel]; norm_num⟩, hf, by rw [hv]; norm_num⟩, ?_, ?_⟩
    · rw [hv, show value one = 1 by decide +kernel]; norm_num
    · rw [hv]; norm_num
  | false =>
    simp only [Bool.false_eq_true, if_false]
    have hc := cosRounded_roundsTo hz
    have hs := sinRounded_roundsTo hz
    exact ⟨⟨hunit hc (Real.abs_cos_le_one _), hunit hs (Real.abs_sin_le_one _)⟩, hc.error (Real.abs_cos_le_one _),
      hs.error (Real.abs_sin_le_one _)⟩

/-- TW-P2 and TW-P5 of the factor R118 gives. -/
theorem refFactor_good {k N : Nat} (hN : isPow2 N = true) (h31 : N ≤ 2 ^ 31) (h2 : 2 * k ≤ N) :
    (InUnitRange (refFactor (refAngle .forward k N)).re ∧ InUnitRange (refFactor (refAngle .forward k N)).im) ∧
      CloseTo (refFactor (refAngle .forward k N)).re (Real.cos (-(2 * Real.pi * k / N))) ∧
      CloseTo (refFactor (refAngle .forward k N)).im (Real.sin (-(2 * Real.pi * k / N))) := by
  obtain ⟨n, rfl⟩ := (isPow2_iff N).mp hN
  have hn : n < 32 := by
    by_contra hc
    have : 2 ^ 32 ≤ 2 ^ n := Nat.pow_le_pow_right (by norm_num) (by omega)
    omega
  obtain ⟨hf, hθ⟩ := refAngle_near hn h2
  obtain ⟨hu, hc, hs⟩ := refFactor_close hf
  have e : (2 : ℝ) ^ (-50 : ℤ) = 1 / 2 ^ 54 + (1 / 2 ^ 50 - 1 / 2 ^ 54) := by norm_num
  refine ⟨hu, ?_, ?_⟩
  · rw [CloseTo, e]
    exact le_trans (abs_sub_le _ _ _) (add_le_add hc (le_trans (Real.abs_cos_sub_cos_le _ _) hθ))
  · rw [CloseTo, e]
    exact le_trans (abs_sub_le _ _ _) (add_le_add hs (le_trans (Real.abs_sin_sub_sin_le _ _) hθ))

end Sys2Proof.Machine
end

