-- ==== Sys2Proof/Machine/Twiddle.lean ====
section
/-! DEFINITION. The twiddle generator `TW(dir, k, N)` (40_numerics.md R115, R116) and the reference generator `TW_REF` (R118),
the default.  A build with another generator has a free one with the properties of R116. -/

namespace Sys2Proof.Machine

/-- The `n`-th generator a build may have (R116). -/
def freeGenerator (n : Nat) : Generator := @Config.generatorOf ⟨exampleGenerator⟩ n

/-- The pairs for which `TW_REF` is the formula of R118 as it stands: `N` at most the greatest length a build may serve
(00_scope.md R7), and `k` at most `N`.  Every pair a command can ask for is one of them. -/
abbrev InReach (k N : Nat) : Prop := 1 ≤ N ∧ N ≤ 2 ^ 31 ∧ k ≤ N

/-- The forward factor of `TW_REF` (R118).  For a length above `2^31`, which no command can name, it is that of the same fraction
in lowest terms (R119a), and free where that is out of reach too: DESIGN CHOICE, log entry 6. -/
def refForward (k N : Nat) : Sample :=
  if InReach k N then refFactor (refAngle .forward k N)
  else
    let g := Nat.gcd k N
    if InReach (k / g) (N / g) then refFactor (refAngle .forward (k / g) (N / g)) else (freeGenerator 0).fwd (k / g) (N / g)

/-- In lowest terms a pair of the domain with `k ≠ 0` is in the domain, and its angle is the same. -/
theorem lowest_terms {k N : Nat} (h : InTwiddleDomain k N) (hk : k ≠ 0) :
    InTwiddleDomain (k / Nat.gcd k N) (N / Nat.gcd k N) ∧
      ((k / Nat.gcd k N : Nat) : ℝ) / ((N / Nat.gcd k N : Nat) : ℝ) = (k : ℝ) / N := by
  obtain ⟨hN, h2, hlt⟩ := h
  obtain ⟨g, hg⟩ : ∃ g, g = Nat.gcd k N := ⟨_, rfl⟩
  have hg0 : 0 < g := hg ▸ Nat.gcd_pos_of_pos_left _ (by omega)
  obtain ⟨k', hk'⟩ : g ∣ k := hg ▸ Nat.gcd_dvd_left k N
  obtain ⟨N', hN'⟩ : g ∣ N := hg ▸ Nat.gcd_dvd_right k N
  rw [← hg]
  have e1 : k / g = k' := by rw [hk', Nat.mul_div_cancel_left _ hg0]
  have e2 : N / g = N' := by rw [hN', Nat.mul_div_cancel_left _ hg0]
  have hp : isPow2 N' = true := isPow2_of_dvd hN ⟨g, by rw [hN', mul_comm]⟩
  have hk0 : 1 ≤ k' := by
    rcases Nat.eq_zero_or_pos k' with h0 | h0
    · rw [h0] at hk'; omega
    · exact h0
  have hlt' : 2 * k' < N' := by
    have h3 : g * (2 * k') < g * N' := by rw [← hN', show g * (2 * k') = 2 * (g * k') by ring, ← hk']; omega
    exact Nat.lt_of_mul_lt_mul_left h3
  have hev := isPow2_even hp (by omega)
  rw [e1, e2]
  refine ⟨⟨hp, by omega, by omega⟩, ?_⟩
  rw [hk', hN']
  push_cast
  rw [mul_div_mul_left _ _ (by positivity)]

/-- Every pair of the domain is in reach of R118, or has an equal fraction in lowest terms that is, or is left free: what holds
of the factor in each of the three cases holds of it. -/
theorem refForward_cases {P : Sample → Prop} {k N : Nat} (h : InTwiddleDomain k N)
    (hformula : ∀ k' N', isPow2 N' = true → N' ≤ 2 ^ 31 → 2 * k' ≤ N' → ((k' : ℝ) / N' = (k : ℝ) / N) →
      (k = 0 → k' = 0) → P (refFactor (refAngle .forward k' N')))
    (hfree : k ≠ 0 → ∀ k' N', InTwiddleDomain k' N' → ((k' : ℝ) / N' = (k : ℝ) / N) → P ((freeGenerator 0).fwd k' N')) :
    P (refForward k N) := by
  obtain ⟨hN, h2, hlt⟩ := h
  unfold refForward
  split
  · next hr => exact hformula k N hN hr.2.1 (by omega) rfl id
  simp only
  rcases Nat.eq_zero_or_pos k with rfl | hk
  · have e1 : 0 / Nat.gcd 0 N = 0 := Nat.zero_div _
    have e2 : N / Nat.gcd 0 N = 1 := by rw [Nat.gcd_zero_left, Nat.div_self (by omega)]
    rw [e1, e2, if_pos (by decide)]
    exact hformula 0 1 (by decide) (by norm_num) (by norm_num) (by simp) id
  obtain ⟨hd, he⟩ := lowest_terms ⟨hN, h2, hlt⟩ hk.ne'
  split
  · next hr => exact hformula _ _ hd.1 hr.2.1 (by have := hd.2.2; omega) he (fun h => absurd h hk.ne')
  · exact hfree hk.ne' _ _ hd he

/-- `TW_REF` as a generator: it has TW-P1 to TW-P5 (R119a). -/
def refGenerator : Generator where
  fwd := refForward
  inRange k N h := by
    refine refForward_cases (P := fun w => InUnitRange w.re ∧ InUnitRange w.im) h ?_ ?_
    · exact fun k' N' hN h31 h2 _ _ => (refFactor_good hN h31 h2).1
    · exact fun _ k' N' hd _ => (freeGenerator 0).inRange _ _ hd
  atZero N h := by
    refine refForward_cases (P := fun w => w.re = one ∧ isZero w.im = true) h ?_ ?_
    · intro k' N' hN h31 _ _ hk'
      obtain rfl := hk' rfl
      obtain ⟨n, rfl⟩ := (isPow2_iff N').mp hN
      have hn : n < 32 := by
        by_contra hc
        have : 2 ^ 32 ≤ 2 ^ n := Nat.pow_le_pow_right (by norm_num) (by omega)
        omega
      rw [refAngle_zero n hn]
      exact ⟨rfl, rfl⟩
    · exact fun h0 => absurd rfl h0
  accurate k N h := by
    refine refForward_cases (P := fun w => CloseTo w.re (Real.cos (-(2 * Real.pi * k / N))) ∧
      CloseTo w.im (Real.sin (-(2 * Real.pi * k / N)))) h ?_ ?_
    · intro k' N' hN h31 h2 he _
      rw [mul_div_assoc, ← he, ← mul_div_assoc]
      exact (refFactor_good hN h31 h2).2
    · intro _ k' N' hd he
      rw [mul_div_assoc, ← he, ← mul_div_assoc]
      exact (freeGenerator 0).accurate _ _ hd

/-- The generator a build's choice names. -/
def generator : TwChoice → Generator
  | .reference => refGenerator
  | .build n => freeGenerator (n + 1)

/-- `TW(dir, k, N)` (R115): the forward factor, or for the inverse its conjugate bit for bit (TW-P4). -/
def twiddle (c : TwChoice) (dir : Dir) (k N : Nat) : Sample :=
  let w := (generator c).fwd k N
  match dir with
  | .forward => w
  | .inverse => { w with im := fneg w.im }

end Sys2Proof.Machine
end

