-- ==== Sys2Proof/Machine/Numerics.lean ====
section
/-! DEFINITION. The numerics record of 40_numerics.md and the one of a build: binary64 with the build's twiddle generator. -/

namespace Sys2Proof.Machine

/-- A numerics record (40_numerics.md, preamble): what the value functions of files 41 to 45 are written over.  The hardware
instantiation is `hardware`, the ideal one (45_transform_engine.md R180) is `ideal` in `Machine/Ideal.lean`. -/
structure Numerics (R : Type) where
  add : Draw → R → R → R
  sub : Draw → R → R → R
  mul : Draw → R → R → R
  div : Draw → R → R → R
  ofNat : Nat → R
  tw : Dir → Nat → Nat → Cx R

/-- The numerics of a build: binary64 and the build's twiddle generator (R102, R116). -/
def hardware (c : TwChoice) : Numerics F where
  add := fadd
  sub := fsub
  mul := fmul
  div := fdiv
  ofNat := ofNat
  tw := twiddle c

end Sys2Proof.Machine
end

