-- ==== Sys2Proof/Machine/Complex.lean ====
section
/-! DEFINITION. The complex value functions (41_complex_arith.md R130) and the butterfly (42_twiddle_butterfly.md R140), over
any numerics record.  Every scalar operation written here is performed and rounded on its own, in the order and with the
operand order written (40_numerics.md R103). -/

namespace Sys2Proof.Machine

/-- `cadd(x, y)` (R130). -/
def cadd {R : Type} (num : Numerics R) (d : Draw) (x y : Cx R) : Cx R :=
  ⟨num.add (d.at 0) x.re y.re, num.add (d.at 1) x.im y.im⟩

/-- `csub(x, y)` (R130). -/
def csub {R : Type} (num : Numerics R) (d : Draw) (x y : Cx R) : Cx R :=
  ⟨num.sub (d.at 0) x.re y.re, num.sub (d.at 1) x.im y.im⟩

/-- `cmul(x, y)` (R130, R135): four products, one difference and one sum. -/
def cmul {R : Type} (num : Numerics R) (d : Draw) (x y : Cx R) : Cx R :=
  let p1 := num.mul (d.at 0) x.re y.re
  let p2 := num.mul (d.at 1) x.im y.im
  let p3 := num.mul (d.at 2) x.re y.im
  let p4 := num.mul (d.at 3) x.im y.re
  ⟨num.sub (d.at 4) p1 p2, num.add (d.at 5) p3 p4⟩

/-- `cdivn(x, N)` (R130): each component divided by `ofNat(N)`. -/
def cdivn {R : Type} (num : Numerics R) (d : Draw) (x : Cx R) (N : Nat) : Cx R :=
  ⟨num.div (d.at 0) x.re (num.ofNat N), num.div (d.at 1) x.im (num.ofNat N)⟩

/-- `bfly(dir, k, N, E, O)` (R140): the outputs at index `k` and at index `k + N/2`.  The factor is the left operand of the
product; `T` is computed once and used in both outputs. -/
def bfly {R : Type} (num : Numerics R) (d : Draw) (dir : Dir) (k N : Nat) (E O : Cx R) : Cx R × Cx R :=
  let T := cmul num (d.at 0) (num.tw dir k N) O
  (cadd num (d.at 1) E T, csub num (d.at 2) E T)

end Sys2Proof.Machine
end

