-- ==== Sys2Proof/Machine/Butterfly.lean ====
section
/-! DEFINITION. TWID, TWMUL, BFLY (42_twiddle_butterfly.md R141 to R144). -/

namespace Sys2Proof.Machine

/-- TWID `cd, k, N, F|I` (R142): the twiddle factor `W_k`; reads no register. -/
def execTwid (rd : Reg) (dir : Dir) (k len : Word32) (s : State) : Outcome :=
  command (twiddleChecks s (integer k) (integer len))
    (fun s => s.setReg rd (twiddle s.cfg.tw dir (integer k) (integer len))) s

/-- TWMUL `cd, ca, k, N, F|I` (R143): `T = W_k * c[ra]`, the factor on the left. -/
def execTwmul (rd ra : Reg) (dir : Dir) (k len : Word32) (s : State) : Outcome :=
  command (twiddleChecks s (integer k) (integer len))
    (fun s => s.setReg rd
      (cmul (hardware s.cfg.tw) s.place (twiddle s.cfg.tw dir (integer k) (integer len)) (s.reg ra))) s

/-- BFLY `cd, cd2, ca, cb, k, N, F|I` (R144): one butterfly.  Both sources are read before either destination is written, so
either destination may be either source. -/
def execBfly (rd rd2 ra rb : Reg) (dir : Dir) (k len : Word32) (s : State) : Outcome :=
  command (twiddleChecks s (integer k) (integer len))
    (fun s =>
      let out := bfly (hardware s.cfg.tw) s.place dir (integer k) (integer len) (s.reg ra) (s.reg rb)
      (s.setReg rd out.1).setReg rd2 out.2) s

end Sys2Proof.Machine
end

