-- ==== Sys2Proof/Machine/LoadStore.lean ====
section
/-! DEFINITION. CLD, CST (43_load_store.md R150, R151): they move all 128 bits and do no arithmetic. -/

namespace Sys2Proof.Machine

/-- CLD `cd, [addr]` (R150). -/
def execCld (rd : Reg) (a : Word32) (s : State) : Outcome :=
  command (accessChecks s (address a)) (fun s => s.setReg rd (s.word (address a))) s

/-- CST `ca, [addr]` (R151). -/
def execCst (ra : Reg) (a : Word32) (s : State) : Outcome :=
  command (accessChecks s (address a)) (fun s => s.memWrite (address a) [s.reg ra]) s

end Sys2Proof.Machine
end

