-- ==== Sys2Proof/Machine/RegisterArith.lean ====
section
/-! DEFINITION. NOP, CADD, CSUB, CMUL, CDIVN (41_complex_arith.md R131 to R136).  An operation reads all its sources, then
computes, then writes its destination (R131a). -/

namespace Sys2Proof.Machine

/-- NOP (R132): reads and writes nothing; its one effect is `STATUS.LAST <- 0`. -/
def execNop (s : State) : Outcome := command [] (fun s => s) s

/-- CADD `cd, ca, cb` (R133): complex sum. -/
def execCadd (rd ra rb : Reg) (s : State) : Outcome :=
  command [] (fun s => s.setReg rd (cadd (hardware s.cfg.tw) s.place (s.reg ra) (s.reg rb))) s

/-- CSUB `cd, ca, cb` (R134): complex difference, `c[ra]` minus `c[rb]`. -/
def execCsub (rd ra rb : Reg) (s : State) : Outcome :=
  command [] (fun s => s.setReg rd (csub (hardware s.cfg.tw) s.place (s.reg ra) (s.reg rb))) s

/-- CMUL `cd, ca, cb` (R135): complex product. -/
def execCmul (rd ra rb : Reg) (s : State) : Outcome :=
  command [] (fun s => s.setReg rd (cmul (hardware s.cfg.tw) s.place (s.reg ra) (s.reg rb))) s

/-- CDIVN `cd, ca, N` (R136): division of a sample by the length `N`. -/
def execCdivn (rd ra : Reg) (len : Word32) (s : State) : Outcome :=
  command (divisionChecks s (integer len))
    (fun s => s.setReg rd (cdivn (hardware s.cfg.tw) s.place (s.reg ra) (integer len))) s

end Sys2Proof.Machine
end

