-- ==== Sys2Proof/Machine/Transform.lean ====
section
/-! DEFINITION. The transform engine: the recursion `xform`, the two transforms and the operations FFT and IFFT
(45_transform_engine.md R165 to R171), and the iterative form of R174, which computes the same values in another order. -/

namespace Sys2Proof.Machine

/-- `even(x)[i] = x[2i]` (R166). -/
def evens {α : Type} : List α → List α
  | [] => []
  | [a] => [a]
  | a :: _ :: t => a :: evens t

/-- `odd(x)[i] = x[2i+1]` (R166). -/
def odds {α : Type} : List α → List α
  | [] => []
  | [_] => []
  | _ :: b :: t => b :: odds t

/-- The combination step: `(X[k], X[k + N/2]) = bfly(dir, k, N, E[k], O[k])` for every `k` in `[0, N/2)` (R167). -/
def combine {R : Type} (num : Numerics R) (d : Draw) (dir : Dir) (N : Nat) (E O : List (Cx R)) : List (Cx R) :=
  let out := (E.zip O).mapIdx fun k p => bfly num (d.at k) dir k N p.1 p.2
  out.map Prod.fst ++ out.map Prod.snd

/-- `xform(dir, x)` for `|x| = 2^n`, by recursion on `n` (R167, R168): the inner lengths are powers of two, so there is no
error case inside.  The base case copies the sample bit for bit. -/
def xform {R : Type} (num : Numerics R) (d : Draw) (dir : Dir) : Nat → List (Cx R) → List (Cx R)
  | 0, x => x
  | n + 1, x =>
    combine num (d.at 2) dir (2 ^ (n + 1)) (xform num (d.at 0) dir n (evens x)) (xform num (d.at 1) dir n (odds x))

/-- `fft(x) = xform(0, x)` (R169): no scaling of any kind. -/
def fft {R : Type} (num : Numerics R) (d : Draw) (n : Nat) (x : List (Cx R)) : List (Cx R) := xform num d .forward n x

/-- `ifft(X)`: `xform(1, X)`, then every output divided once by `N` (R169). -/
def ifft {R : Type} (num : Numerics R) (d : Draw) (n : Nat) (X : List (Cx R)) : List (Cx R) :=
  (xform num (d.at 0) .inverse n X).mapIdx fun i y => cdivn num ((d.at 1).at i) y (2 ^ n)

/-- FFT `[dst], [src], N` (R170): forward transform, natural order in and out (R172). -/
def execFft (a b len : Word32) (s : State) : Outcome :=
  command (sequenceChecks s (address a) (address b) (integer len))
    (fun s => s.memWrite (address b)
      (fft (hardware s.cfg.tw) s.place (log2 (integer len)) (s.memRead (address a) (integer len)))) s

/-- IFFT `[dst], [src], N` (R171): inverse transform with normalisation. -/
def execIfft (a b len : Word32) (s : State) : Outcome :=
  command (sequenceChecks s (address a) (address b) (integer len))
    (fun s => s.memWrite (address b)
      (ifft (hardware s.cfg.tw) s.place (log2 (integer len)) (s.memRead (address a) (integer len)))) s

/-! ## The iterative bottom-up form (R174): an engine schedule, not visible in any result (R175) -/

/-- One stage: the butterflies of length `m` on each of `blocks` adjacent blocks. -/
def stage {R : Type} (num : Numerics R) (d : Draw) (dir : Dir) (m : Nat) : Nat → List (Cx R) → List (Cx R)
  | 0, y => y
  | blocks + 1, y =>
    combine num (d.at blocks) dir m (y.take (m / 2)) ((y.take m).drop (m / 2)) ++ stage num d dir m blocks (y.drop m)

/-- The sequence after stages `1 … s`; stage `s` works on `2^(n-s)` blocks of length `2^s`. -/
def stages {R : Type} (num : Numerics R) (d : Draw) (dir : Dir) (n : Nat) (y : List (Cx R)) : Nat → List (Cx R)
  | 0 => y
  | s + 1 => stage num (d.at s) dir (2 ^ (s + 1)) (2 ^ (n - (s + 1))) (stages num d dir n y s)

/-- `xform_iter(dir, x)` (R174): bit reversal, then `n` stages. -/
def xformIter {R : Type} [Inhabited R] (num : Numerics R) (d : Draw) (dir : Dir) (n : Nat) (x : List (Cx R)) : List (Cx R) :=
  stages num d dir n (bitrev n x) n

end Sys2Proof.Machine
end

