-- ==== Sys2Proof/Machine/Dispatch.lean ====
section
/-! DEFINITION. One arm per operation (30_encoding.md R78). -/

namespace Sys2Proof.Machine

def exec (i : Instr) (s : State) : Host.Outcome State Fault Refusal :=
  match i with
  | .nop => Sys2Proof.Machine.execNop s
  | .cadd rd ra rb => Sys2Proof.Machine.execCadd rd ra rb s
  | .csub rd ra rb => Sys2Proof.Machine.execCsub rd ra rb s
  | .cmul rd ra rb => Sys2Proof.Machine.execCmul rd ra rb s
  | .cdivn rd ra len => Sys2Proof.Machine.execCdivn rd ra len s
  | .twid rd dir k len => Sys2Proof.Machine.execTwid rd dir k len s
  | .twmul rd ra dir k len => Sys2Proof.Machine.execTwmul rd ra dir k len s
  | .bfly rd rd2 ra rb dir k len => Sys2Proof.Machine.execBfly rd rd2 ra rb dir k len s
  | .cld rd a => Sys2Proof.Machine.execCld rd a s
  | .cst ra a => Sys2Proof.Machine.execCst ra a s
  | .bitrev a b len => Sys2Proof.Machine.execBitrev a b len s
  | .fft a b len => Sys2Proof.Machine.execFft a b len s
  | .ifft a b len => Sys2Proof.Machine.execIfft a b len s

end Sys2Proof.Machine
end

