-- ==== Sys2Proof/Machine/Ports.lean ====
section
/-! DEFINITION. The unit's four interfaces as whole transactions (10_state.md R40): the command port, the SM port (20_memory.md
R55, R56), the CSR port (10_state.md R33) and reset (70_reset_and_hazards.md R240 to R242).  Every transaction is complete before
the next one (R58, R61), so each is one function of the state. -/

namespace Sys2Proof.Machine

/-- The host is answered. -/
def State.answer (s : State) (a : Answer) : State := { s with answers := a :: s.answers }

/-- `Issue(D)` (10_state.md R28): decode, then the checks and effects of the operation; an illegal descriptor answers
`ERR_ILLEGAL` from its bits alone (60_exceptions.md R211). -/
def issue (D : Word) (s : State) : Outcome :=
  match decode D with
  | .ok i => exec i s
  | .error _ => .next (s.raiseError .illegal)

/-- `SMWrite(a, w)` (20_memory.md R55): stores the 128 bits unchanged, or `HERR`. -/
def smWrite (a : Word32) (w : Word) (s : State) : State :=
  if address a < s.cfg.smSize then (s.memWrite (address a) [ofWord w]).answer .done else s.answer .herr

/-- `SMRead(a)` (R56): returns the word and changes nothing, or `HERR`. -/
def smRead (a : Word32) (s : State) : State :=
  if address a < s.cfg.smSize then s.answer (.word (toWord (s.word (address a)))) else s.answer .herr

/-- `CSRRead(i)` (10_state.md R33): index 0 is `STATUS`, 1 is `ERRFLAGS`, any other is refused. -/
def csrRead (i : Nat) (s : State) : State :=
  match i with
  | 0 => s.answer (.csr (statusRead s.status))
  | 1 => s.answer (.csr (errflagsRead s.errflags))
  | _ => s.answer .herr

/-- `CSRWrite(i, v)` (R33): index 1 clears the named error bits (R31); index 0 and any other are refused. -/
def csrWrite (i : Nat) (v : BitVec 32) (s : State) : State :=
  match i with
  | 1 => { s with errflags := clearFlags s.errflags v }.answer .done
  | _ => s.answer .herr

/-- `Reset` (70_reset_and_hazards.md R240): registers, `STATUS` and `ERRFLAGS` zero; every word of sample memory holds a fresh
draw, so nothing written before is known to survive (R241).  A command it cuts short is the command not issued (R242).  The
parameters are the build's, and the host's own transactions stay with the host. -/
def resetUnit (s : State) : State :=
  { s with
    regs := zeroRegs
    sm := []
    status := 0#32
    errflags := 0#32
    smDraw := Config.smDrawAfter s.smDraw s.sm s.regs.toList }

/-- One transaction of the host (R40, 00_scope.md R16). -/
def perform (act : HostAction) (s : State) : Outcome :=
  match act with
  | .reset => .next (resetUnit s)
  | .issue D => issue D s
  | .smWrite a w => .next (smWrite a w s)
  | .smRead a => .next (smRead a s)
  | .csrRead i => .next (csrRead i s)
  | .csrWrite i v => .next (csrWrite i v s)

/-- The next transaction in the order in which the host performs them (20_memory.md R61a); with none waiting the unit is idle
and holds its state (60_exceptions.md R232). -/
def performNext (s : State) : Outcome :=
  match s.inbox with
  | [] => .next s
  | act :: rest => perform act { s with inbox := rest }

/-! ## The unit on a byte-addressed host bus (20_memory.md R51), an observation outside the unit -/

/-- The byte at offset `j` from the base of the mapped sample memory: byte `j mod 16` of word `j div 16`. -/
def busByte (s : State) (j : Nat) : Option (BitVec 8) :=
  if j / 16 < s.cfg.smSize then some (wordByte (toWord (s.word (j / 16))) (j % 16)) else none

/-- Byte `j` of a 32-bit CSR on such a bus, little-endian too. -/
def csrByte (v : BitVec 32) (j : Nat) : BitVec 8 := v.extractLsb' (8 * j) 8

end Sys2Proof.Machine
end

