-- ==== Sys2Proof/Machine/Step.lean ====
section
/-! DEFINITION. One step of the machine: the next transaction of the host (00_scope.md R16).  The unit has no program counter and
fetches nothing (10_state.md R27): its next command is the one the host issues next. -/

namespace Sys2Proof.Machine

/-- One transaction, or nothing when none waits. -/
def step (s : State) : Host.Outcome State Fault Refusal := performNext s

/-- The machine with the command of table word `w` as the next transaction the host performs. -/
def State.withFetchWord (s : State) (nbits w : Nat) : State :=
  { s with inbox := .issue (tableWord nbits w) :: s.inbox }

end Sys2Proof.Machine
end

