-- ==== Sys2Proof/Machine/HostSide.lean ====
section
/-! DEFINITION. The host functions around the unit (48_host_collaborators.md R190 to R204): the sample converter, the padding
policy, the spectrum reporter and the host's sequence of actions.  They are outside the unit: nothing here has an opcode or a bit
of the unit's state, and the unit is reached only through `perform`. -/

namespace Sys2Proof.Machine

/-- A signed 16-bit PCM sample (R190). -/
abbrev Pcm := BitVec 16

/-! ## The sample converter -/

/-- `toComplex(s)[i] = (ofInt(s[i]), +0.0)` (R190): total and length-preserving. -/
def toComplex (s : List Pcm) : List Sample := s.map fun v => ⟨ofInt v.toInt, posZero⟩

/-- `round_half_away(r)` for a finite `r` (R192): the nearest integer, a half going away from zero. -/
def roundHalfAway (r : F) : Int :=
  let m : Nat := (2 * units r + 2 ^ 1074) / 2 ^ 1075
  if signBit r then -(m : Int) else (m : Int)

/-- Whether a conversion to PCM lost anything: the lossy-conversion event (R191, 60_exceptions.md R234). -/
inductive Exactness where
  | exact
  | lossy
  deriving DecidableEq, Repr

/-- `toPcm1(c)` (R191): rounded first, clamped second, never wrapped; the imaginary part is not looked at. -/
def toPcm1 (c : Sample) : Pcm × Exactness :=
  let r := c.re
  if isNaN r then (0#16, .lossy)
  else if isInf r then
    if signBit r then (BitVec.ofInt 16 (-32768), .lossy) else (32767#16, .lossy)
  else
    let q := roundHalfAway r
    if q > 32767 then (32767#16, .lossy)
    else if q < -32768 then (BitVec.ofInt 16 (-32768), .lossy)
    else (BitVec.ofInt 16 q, .exact)

/-- `toPcm(y)` (R191): the values, and the indices of the lossy events in increasing order. -/
def toPcm (y : List Sample) : List Pcm × List Nat :=
  (y.map fun c => (toPcm1 c).1,
   (List.range y.length).filter fun i => decide (((y[i]?).map fun c => (toPcm1 c).2) = some .lossy))

/-! ## The padding policy -/

/-- `padLength(n)` (R194): the least power of two that is at least `n`; `padLength(0)` is not defined and the host rejects an
empty input before it computes a length. -/
def padLength (n : Nat) : Option Nat :=
  if n = 0 then none else if n = 1 then some 1 else some (2 ^ (Nat.log2 (n - 1) + 1))

/-- The extension with silent samples at the end, up to length `N` (R195). -/
def extend (s : List Pcm) (N : Nat) : List Pcm := s ++ List.replicate (N - s.length) 0#16

/-! ## The spectrum reporter -/

/-- `magnitude(z)` (R197): two squares, a sum and a square root, each rounded. -/
def magnitude (d : Draw) (z : Sample) : F :=
  fsqrt (d.at 3) (fadd (d.at 2) (fmul (d.at 0) z.re z.re) (fmul (d.at 1) z.im z.im))

/-- `frequency(k, rate, N)` (R197), formed in `F`. -/
def frequency (d : Draw) (k rate N : Nat) : F := fdiv (d.at 1) (fmul (d.at 0) (ofNat k) (ofNat rate)) (ofNat N)

/-- What the host does after an error response, `ON_ERROR` (R203). -/
inductive OnError where
  | abort
  | continue
  deriving DecidableEq, Repr

/-- The output report destination (R200), an "opaque sink": nothing is known of it but which one it is.  Writing to it is outside
the model (00_scope.md R6a, log entry 12). -/
structure Sink where
  name : Nat
  deriving DecidableEq, Repr

/-- The host's parameters (R200, 00_scope.md R7), none of which reaches the unit: the sample rate, default 44100 (R198); the
significance threshold, which has no default (R199); the destination of the report; the policy on errors, default `abort`
(R203). -/
structure HostConfig where
  rate : Nat := 44100
  threshold : F
  destination : Sink
  onError : OnError := .abort
  deriving DecidableEq, Repr

/-- What the spec requires of the parameters: `rate >= 1` (R198). -/
abbrev HostConfig.Legal (h : HostConfig) : Prop := 1 ≤ h.rate

/-- Whether the host goes on with what does not depend on a command that was answered `r` (`ON_ERROR`, R203): after OK always,
after an error only under `continue`. -/
def HostConfig.goesOn (h : HostConfig) (r : Response) : Bool := r == .ok || h.onError == .continue

/-- One entry of the report (R196), with the significance flag (R199): strictly greater, as IEEE 754 compares. -/
structure Bin where
  frequency : F
  magnitude : F
  significant : Bool
  deriving DecidableEq, Repr

/-- The report on the `N` words of a spectrum, in increasing bin order, the upper half included (R196). -/
def report (h : HostConfig) (d : Draw) (X : List Sample) : List Bin :=
  X.mapIdx fun k z =>
    let m := magnitude ((d.at 0).at k) z
    ⟨frequency ((d.at 1).at k) k h.rate X.length, m, numGt m h.threshold⟩

/-! ## The host's sequence of actions (R202) -/

/-- The state after a transaction; no transaction stops the unit. -/
def transact (act : HostAction) (s : State) : State :=
  match perform act s with
  | .next t => t
  | .fault r => nomatch r
  | .refused _ => s

/-- Issuing a command (R202): its response, and the state after. -/
def issueCommand (i : Instr) (s : State) : Option Response × State :=
  let t := transact (.issue (encode i)) s
  match t.answers with
  | .response r :: _ => (some r, t)
  | _ => (none, t)

/-- `SMWrite(A + i, word(z[i]))` for every `i` (R202). -/
def writeSequence (A : Nat) : List Sample → State → State
  | [], s => s
  | z :: zs, s => writeSequence (A + 1) zs (transact (.smWrite (BitVec.ofNat 32 A) (toWord z)) s)

/-- `SMRead(B + k)` for `n` words from `B` on: the samples read and the state after. -/
def readSequence (B : Nat) : Nat → State → List Sample × State
  | 0, s => ([], s)
  | n + 1, s =>
    let t := transact (.smRead (BitVec.ofNat 32 B)) s
    let rest := readSequence (B + 1) n t
    match t.answers with
    | .word w :: _ => (ofWord w :: rest.1, rest.2)
    | _ => rest

/-- Where a frame's sequences are placed: source, spectrum and reconstruction (R202); pairwise disjoint ranges are the host's
duty (70_reset_and_hazards.md R246). -/
structure Placement where
  source : Nat
  spectrum : Nat
  reconstruction : Nat
  deriving DecidableEq, Repr

/-- A report on its way to its destination (R196, R200). -/
structure Delivery where
  destination : Sink
  bins : List Bin
  deriving DecidableEq, Repr

/-- The output of the IFFT path: all `N` samples, the padding included (R201), and the indices of the lossy ones (R191). -/
structure Reconstruction where
  pcm : List Pcm
  lossy : List Nat
  deriving DecidableEq, Repr

/-- What one frame yields: the responses to its commands, in order (none for an empty input); the report and the
reconstruction, each there when nothing it depends on failed (R202: "independently", R203); and whether the host goes on to what
follows the frame. -/
structure FrameResult where
  responses : List Response
  report : Option Delivery
  reconstruction : Option Reconstruction
  goesOn : Bool
  deriving DecidableEq, Repr

/-- The second half of R202, once the spectrum is at `B`: the inverse transform into `C`, and its words back to integers.  It
yields no reconstruction when the command answered an error. -/
def reconstruct (at_ : Placement) (N : Nat) (s : State) : Option Response × Option Reconstruction × State :=
  let B := BitVec.ofNat 32 at_.spectrum
  let C := BitVec.ofNat 32 at_.reconstruction
  let r := issueCommand (.ifft B C (BitVec.ofNat 32 N)) s
  if r.1 = some .ok then
    let y := readSequence at_.reconstruction N r.2
    (r.1, some ⟨(toPcm y.1).1, (toPcm y.1).2⟩, y.2)
  else (r.1, none, r.2)

/-- R202 on one input.  An empty input is rejected before any length is computed and no command is issued.  When FFT answers an
error there is no spectrum, so neither the report nor the inverse transform is done; when IFFT does, the report, which was made
before and does not depend on it, stands.  After an error `ON_ERROR` says whether the host goes on (R203).  After an empty input,
to which no error response belongs, it goes on: DESIGN CHOICE, log entry 12. -/
def runFrame (h : HostConfig) (at_ : Placement) (samples : List Pcm) (s : State) : FrameResult × State :=
  match padLength samples.length with
  | none => (⟨[], none, none, true⟩, s)
  | some N =>
    let A := BitVec.ofNat 32 at_.source
    let B := BitVec.ofNat 32 at_.spectrum
    let s1 := writeSequence at_.source (toComplex (extend samples N)) s
    let r1 := issueCommand (.fft A B (BitVec.ofNat 32 N)) s1
    if r1.1 = some .ok then
      let X := readSequence at_.spectrum N r1.2
      let bins := report h ⟨X.2.serial, [0]⟩ X.1
      let r2 := reconstruct at_ N X.2
      (⟨r1.1.toList ++ r2.1.toList, some ⟨h.destination, bins⟩, r2.2.1, r2.1.all h.goesOn⟩, r2.2.2)
    else (⟨r1.1.toList, none, none, r1.1.all h.goesOn⟩, r1.2)

/-- Frames one after another, as one pipeline (R203): after an error response `abort` issues no further command of it, `continue`
skips what depended on the failed command and goes on with the next frame.  `ON_ERROR` is about error responses, and an empty
frame, which R194 has rejected without a command, has none: the batch goes on with the next frame under either policy.  The spec
does not say what a batch does with an empty frame; that it goes on is the model's DESIGN CHOICE, log entry 12. -/
def runBatch (h : HostConfig) (at_ : Placement) : List (List Pcm) → State → List FrameResult × State
  | [], s => ([], s)
  | f :: fs, s =>
    let r := runFrame h at_ f s
    if r.1.goesOn then
      let rest := runBatch h at_ fs r.2
      (r.1 :: rest.1, rest.2)
    else ([r.1], r.2)

end Sys2Proof.Machine
end

