-- ==== Sys2Proof/Machine/Ideal.lean ====
section
/-! DEFINITION. The ideal instantiation of the numerics record (45_transform_engine.md R180): exact real arithmetic and exact
twiddle factors.  It is the meaning the source's algebraic properties are stated in; no step of the machine uses it. -/

namespace Sys2Proof.Machine

/-- The exact angle of R115: `θ = -2πk/N` forward, `+2πk/N` inverse. -/
noncomputable def exactAngle (dir : Dir) (k N : Nat) : ℝ :=
  match dir with
  | .forward => -(2 * Real.pi * k / N)
  | .inverse => 2 * Real.pi * k / N

/-- The real numbers with exact arithmetic and the exact `(cos θ, sin θ)` (R180). -/
noncomputable def ideal : Numerics ℝ where
  add _ x y := x + y
  sub _ x y := x - y
  mul _ x y := x * y
  div _ x y := x / y
  ofNat n := n
  tw dir k N := ⟨Real.cos (exactAngle dir k N), Real.sin (exactAngle dir k N)⟩

/-- A pair of reals as a complex number. -/
def toComplexNumber (z : Cx ℝ) : ℂ := ⟨z.re, z.im⟩

/-- The `k`-th bin of the discrete Fourier transform of `x` (R180): `sum over j in [0, N) of x[j] * e^(-2πi*j*k/N)`. -/
noncomputable def dftBin (N : Nat) (x : List (Cx ℝ)) (k : Nat) : ℂ :=
  ∑ j ∈ Finset.range N, (x.map toComplexNumber).getD j 0 * Complex.exp (-(2 * Real.pi * Complex.I * j * k / N))

/-- The `j`-th sample of the inverse transform of `X` (R180): `(1/N) * sum over k in [0, N) of X[k] * e^(+2πi*j*k/N)`. -/
noncomputable def inverseDftSample (N : Nat) (X : List (Cx ℝ)) (j : Nat) : ℂ :=
  (1 / N) * ∑ k ∈ Finset.range N, (X.map toComplexNumber).getD k 0 * Complex.exp (2 * Real.pi * Complex.I * j * k / N)

end Sys2Proof.Machine
end

