-- ==== Sys2Proof/Safety.lean ====
section
/-! DEFINITION. What counts as a safe state and a safe run, in the terms the statements use. -/

namespace Sys2Proof.Machine

/-- The invariant of the unit: sample memory in canonical form with only addresses that exist (20_memory.md R59), the reserved
bits of the two status registers zero (10_state.md R30, R31), `LAST` a response code that exists (60_exceptions.md R210), and
parameters within the constraints of 00_scope.md R7. -/
structure State.Inv (s : State) : Prop where
  canonical : s.sm.wf
  inRange : ∀ p ∈ s.sm, p.1 < s.cfg.smSize
  statusReserved : s.status.extractLsb' 4 28 = 0#28
  lastIsCode : ∃ r : Response, lastField s.status = r.code
  flagsReserved : s.errflags &&& ~~~flagMask = 0#32
  legal : s.cfg.Legal

/-- `n` steps of the machine end in the state `t`. -/
def Reaches : Nat → State → State → Prop
  | 0, s, t => s = t
  | n + 1, s, t => ∃ u, step s = .next u ∧ Reaches n u t

/-- No step of a run from `s` faults or is refused: the machine always has a next state. -/
def NeverStops (s : State) : Prop := ∀ n, ∃ t, Reaches n s t

/-! ## Values up to what the spec leaves free -/

/-- Equal bits, or two NaNs, whose sign and payload are unspecified (40_numerics.md R105). -/
def SameScalar (x y : F) : Prop := x = y ∨ (isNaN x = true ∧ isNaN y = true)

/-- Equal in both components up to the free bits of a NaN. -/
def SameSample (x y : Sample) : Prop := SameScalar x.re y.re ∧ SameScalar x.im y.im

/-- Numerically equal in both components (00_scope.md R15): `-0` equals `+0`. -/
def NumEqSample (x y : Sample) : Prop := numEq x.re y.re = true ∧ numEq x.im y.im = true

/-- Both components finite. -/
def FiniteSample (x : Sample) : Prop := isFinite x.re = true ∧ isFinite x.im = true

/-! ## What a command leaves alone, and how it ends -/

/-- Every register outside `ws` holds what it held. -/
def RegsKeptBut (ws : List Reg) (s t : State) : Prop := ∀ r, r ∉ ws → t.reg r = s.reg r

/-- Every word of sample memory outside the `n` words from `b` on reads as before. -/
def WordsKeptOutside (b n : Nat) (s t : State) : Prop := ∀ a, ¬(b ≤ a ∧ a < b + n) → t.word a = s.word a

/-- Every word of sample memory reads as before. -/
def WordsKept (s t : State) : Prop := ∀ a, t.word a = s.word a

/-- The command that led from `s` to `t` was answered `r`: `STATUS.LAST` is its code, the reserved bits of `STATUS` are as they
were, and the host has the response (10_state.md R30, 60_exceptions.md R210).  The model's own fields change only in the serial
number of the command. -/
structure Responded (r : Response) (s t : State) : Prop where
  last : lastField t.status = r.code
  reserved : t.status.extractLsb' 4 28 = s.status.extractLsb' 4 28
  answer : t.answers = .response r :: s.answers
  build : t.cfg = s.cfg
  waiting : t.inbox = s.inbox
  drawKept : t.smDraw = s.smDraw
  serialNext : t.serial = s.serial + 1

/-- The success effects of 60_exceptions.md R215: response 0, `ERRFLAGS` unchanged. -/
structure Succeeded (s t : State) : Prop where
  responded : Responded .ok s t
  flagsKept : t.errflags = s.errflags

/-- The error effects of 60_exceptions.md R216: response `e`, bit `e` of `ERRFLAGS` set, no register, no word of sample memory
and no other bit changed. -/
structure Failed (e : Response) (s t : State) : Prop where
  isError : e ≠ .ok
  responded : Responded e s t
  flagSet : t.errflags = s.errflags ||| 1#32 <<< e.code.toNat
  regsKept : RegsKeptBut [] s t
  wordsKept : WordsKept s t

/-! ## When a command executes normally -/

/-- The conditions under which the checks of TWID, TWMUL and BFLY pass (42_twiddle_butterfly.md R141). -/
structure TwiddleReady (s : State) (k len : Word32) : Prop where
  isPower : ∃ n, integer len = 2 ^ n
  served : integer len ≤ s.cfg.lenMax
  indexInRange : integer k < integer len / 2

/-- The conditions under which the checks of BITREV, FFT and IFFT pass, for the length `2^n` (44_bitrev.md R158,
45_transform_engine.md R170): both ranges exist and they do not meet. -/
structure SequenceReady (s : State) (a b len : Word32) (n : Nat) : Prop where
  length : integer len = 2 ^ n
  served : 2 ^ n ≤ s.cfg.lenMax
  sourceExists : address a + 2 ^ n ≤ s.cfg.smSize
  destinationExists : address b + 2 ^ n ≤ s.cfg.smSize
  disjoint : address a + 2 ^ n ≤ address b ∨ address b + 2 ^ n ≤ address a

/-! ## The checks of 60_exceptions.md R218, by the column "applies to" -/

/-- The length a command names, if it uses `len`. -/
def lengthOf : Instr → Option Nat
  | .nop => none
  | .cadd _ _ _ => none
  | .csub _ _ _ => none
  | .cmul _ _ _ => none
  | .cdivn _ _ len => some len.toNat
  | .twid _ _ _ len => some len.toNat
  | .twmul _ _ _ _ len => some len.toNat
  | .bfly _ _ _ _ _ _ len => some len.toNat
  | .cld _ _ => none
  | .cst _ _ => none
  | .bitrev _ _ len => some len.toNat
  | .fft _ _ len => some len.toNat
  | .ifft _ _ len => some len.toNat

/-- The twiddle index a command names. -/
def indexOf : Instr → Option Nat
  | .twid _ _ k _ => some k.toNat
  | .twmul _ _ _ k _ => some k.toNat
  | .bfly _ _ _ _ _ k _ => some k.toNat
  | .nop | .cadd _ _ _ | .csub _ _ _ | .cmul _ _ _ | .cdivn _ _ _ | .cld _ _ | .cst _ _ | .bitrev _ _ _ | .fft _ _ _
  | .ifft _ _ _ => none

/-- The single word a command accesses. -/
def wordOf : Instr → Option Nat
  | .cld _ a => some a.toNat
  | .cst _ a => some a.toNat
  | .nop | .cadd _ _ _ | .csub _ _ _ | .cmul _ _ _ | .cdivn _ _ _ | .twid _ _ _ _ | .twmul _ _ _ _ _
  | .bfly _ _ _ _ _ _ _ | .bitrev _ _ _ | .fft _ _ _ | .ifft _ _ _ => none

/-- The bases of the source and destination ranges of a sequence operation. -/
def basesOf : Instr → Option (Nat × Nat)
  | .bitrev a b _ => some (a.toNat, b.toNat)
  | .fft a b _ => some (a.toNat, b.toNat)
  | .ifft a b _ => some (a.toNat, b.toNat)
  | .nop | .cadd _ _ _ | .csub _ _ _ | .cmul _ _ _ | .cdivn _ _ _ | .twid _ _ _ _ | .twmul _ _ _ _ _
  | .bfly _ _ _ _ _ _ _ | .cld _ _ | .cst _ _ => none

/-- The check of R218 whose error is `e` fails for the command `i` on a build with parameters `p`.  The codes number the steps
of R218 in their order. -/
def CheckFails (p : Params) (i : Instr) : Response → Prop
  | .ok => False
  | .illegal => False
  | .length => ∃ N, lengthOf i = some N ∧ ¬∃ n, N = 2 ^ n
  | .resource => ∃ N, lengthOf i = some N ∧ p.lenMax < N
  | .index => ∃ k N, indexOf i = some k ∧ lengthOf i = some N ∧ N / 2 ≤ k
  | .address =>
    (∃ a, wordOf i = some a ∧ p.smSize ≤ a) ∨
      ∃ a b N, basesOf i = some (a, b) ∧ lengthOf i = some N ∧ (p.smSize < a + N ∨ p.smSize < b + N)
  | .overlap => ∃ a b N, basesOf i = some (a, b) ∧ lengthOf i = some N ∧ a < b + N ∧ b < a + N

/-! ## Encodings as the spec writes them out -/

/-- The rows of spec/opcode_table.json, in its order: mask and match. -/
def opcodeRows : List TableRow :=
  [ tableRow .nop, tableRow (.cadd 0 0 0), tableRow (.csub 0 0 0), tableRow (.cmul 0 0 0), tableRow (.cdivn 0 0 0),
    tableRow (.twid 0 .forward 0 0), tableRow (.twmul 0 0 .forward 0 0) ] ++
  [ tableRow (.bfly 0 0 0 0 .forward 0 0), tableRow (.cld 0 0), tableRow (.cst 0 0), tableRow (.bitrev 0 0 0),
    tableRow (.fft 0 0 0), tableRow (.ifft 0 0 0) ]

/-- The worked encodings of 30_encoding.md R84. -/
def workedEncodings : List (Word × Instr) :=
  [ (0x00000000_00000000_00000000_00000000#128, .nop),
    (0x01200100_00000000_00000000_00000000#128, .cadd 2 0 1),
    (0x02300100_00000000_00000000_00000000#128, .csub 3 0 1),
    (0x03F0ED00_00000000_00000000_00000000#128, .cmul 15 14 13),
    (0x04101000_00000000_00000000_00000008#128, .cdivn 1 1 8) ] ++
  [ (0x08400000_00000001_00000000_00000008#128, .twid 4 .forward 1 8),
    (0x08400001_00000001_00000000_00000008#128, .twid 4 .inverse 1 8),
    (0x09501000_00000003_00000000_00000008#128, .twmul 5 1 .forward 3 8),
    (0x0A230100_00000000_00000000_00000002#128, .bfly 2 3 0 1 .forward 0 2),
    (0x0A674501_00000001_00000000_00000004#128, .bfly 6 7 4 5 .inverse 1 4) ] ++
  [ (0x10000000_00000010_00000000_00000000#128, .cld 0 16),
    (0x11009000_0001FFFF_00000000_00000000#128, .cst 9 0x1FFFF),
    (0x18000000_00000000_00000008_00000008#128, .bitrev 0 8 8),
    (0x20000000_00000000_00000008_00000008#128, .fft 0 8 8),
    (0x20000001_00000008_00000010_00000008#128, .ifft 8 16 8) ]

/-! ## Powers of two as scalars -/

/-- The binary64 pattern of `2^j`, for `-1022 ≤ j ≤ 1023`. -/
def powerOfTwo (j : ℤ) : F := BitVec.ofNat 64 ((1023 + j).toNat * 2 ^ 52)

end Sys2Proof.Machine
end

