-- ==== Sys2Proof/Certificates/Slice0/Obligations.lean ====
section
/-! DEFINITION. The statements for the provers.  Each says which rule of spec/ it formalises; the vocabulary stands in
Safety.lean.  A statement about a free value (`NANBITS`, `SM_INIT`, `TW`) holds whatever the value is. -/

section

open Sys2Proof Sys2Proof.Machine

/-! ## Encoding and the step -/

/-- R84: each worked encoding decodes to its command and is what the command encodes to. -/
def Obligations.DecodesSpecWords : Prop :=
  ∀ row ∈ workedEncodings, decode row.1 = .ok row.2 ∧ encode row.2 = row.1

/-- R71, R73, R78, R79: decoding the descriptor of a command that has an encoding gives the command back, every operand whole. -/
def Obligations.DecodeOfEncode : Prop := ∀ i : Instr, WellFormed i → decode (encode i) = .ok i

/-- R79, R80: a legal descriptor is the one descriptor of its command; no bit of it is ignored. -/
def Obligations.EncodeOfDecode : Prop := ∀ (D : Word) (i : Instr), decode D = .ok i → WellFormed i ∧ encode i = D

/-- R211: `ERR_ILLEGAL` is the answer exactly when `decode` returns Illegal, that is when the descriptor lies in no row of
the opcode table or is a BFLY with `rd = rd2`; it depends on the 128 bits alone; only `LAST` and `F_ILLEGAL` change. -/
def Obligations.IllegalDescriptorsAnswered : Prop :=
  ∀ (D : Word) (s : State), ∃ t r, issue D s = .next t ∧ Responded r s t ∧
    (r = .illegal ↔ ∃ e, decode D = .error e) ∧
    (r = .illegal ↔
      (∀ row ∈ opcodeRows, D &&& row.mask ≠ row.pattern) ∨ (opField D = 0x0A#8 ∧ rdBits D = rd2Bits D)) ∧
    (r = .illegal → Failed .illegal s t)

/-- R16, R61a: a step is the next transaction of the host, and one that issues a legal descriptor runs the decoded command;
with none waiting the machine holds its state (R232).  `withFetchWord` makes a table word the next command.  That the waiting
transactions are a list in the state is the model's choice (log entry 2). -/
def Obligations.StepRunsDecoded : Prop :=
  (∀ s : State, s.inbox = [] → step s = .next s) ∧
  (∀ (s : State) (act : HostAction) (rest : List HostAction), s.inbox = act :: rest →
    step s = perform act { s with inbox := rest }) ∧
  (∀ (s : State) (D : Word) (rest : List HostAction) (i : Instr), s.inbox = .issue D :: rest → decode D = .ok i →
    step s = exec i { s with inbox := rest }) ∧
  (∀ (s : State) (w : Nat) (i : Instr), decodeTableWord 128 w = some i → step (s.withFetchWord 128 w) = exec i s)

/-- R28 and 93_implementation_defined.md: nothing in the unit is stuck; every run goes on for any number of steps. -/
def Obligations.NothingIsStuck : Prop := ∀ s : State, NeverStops s

/-! ## The operations -/

/-- R132: the all-zero descriptor is NOP; NOP answers OK and does nothing else; a descriptor with `op = 0x00` and any other bit
set is `ERR_ILLEGAL`. -/
def Obligations.NopOnlyAnswers : Prop :=
  encode .nop = 0#128 ∧ decode 0#128 = .ok .nop ∧
  (∀ s : State, ∃ t, exec .nop s = .next t ∧ RegsKeptBut [] s t ∧ WordsKept s t ∧ Succeeded s t) ∧
  (∀ (D : Word) (s : State), opField D = 0x00#8 → D ≠ 0#128 → ∃ t, issue D s = .next t ∧ Failed .illegal s t)

/-- R133: CADD completes in every state; `c[rd]` is the componentwise `fadd` of the sources, nothing else changes. -/
def Obligations.CaddResult : Prop :=
  ∀ (rd ra rb : Reg) (s : State), ∃ t d₀ d₁, exec (.cadd rd ra rb) s = .next t ∧
    t.reg rd = ⟨fadd d₀ (s.reg ra).re (s.reg rb).re, fadd d₁ (s.reg ra).im (s.reg rb).im⟩ ∧
    RegsKeptBut [rd] s t ∧ WordsKept s t ∧ Succeeded s t

/-- R134: CSUB completes in every state; `c[rd]` is the componentwise `fsub` of the sources, nothing else changes. -/
def Obligations.CsubResult : Prop :=
  ∀ (rd ra rb : Reg) (s : State), ∃ t d₀ d₁, exec (.csub rd ra rb) s = .next t ∧
    t.reg rd = ⟨fsub d₀ (s.reg ra).re (s.reg rb).re, fsub d₁ (s.reg ra).im (s.reg rb).im⟩ ∧
    RegsKeptBut [rd] s t ∧ WordsKept s t ∧ Succeeded s t

/-- R135: CMUL completes in every state; four products, one difference and one sum, nothing else changes. -/
def Obligations.CmulResult : Prop :=
  ∀ (rd ra rb : Reg) (s : State), ∃ t d₁ d₂ d₃ d₄ d₅ d₆, exec (.cmul rd ra rb) s = .next t ∧
    t.reg rd =
      ⟨fsub d₅ (fmul d₁ (s.reg ra).re (s.reg rb).re) (fmul d₂ (s.reg ra).im (s.reg rb).im),
       fadd d₆ (fmul d₃ (s.reg ra).re (s.reg rb).im) (fmul d₄ (s.reg ra).im (s.reg rb).re)⟩ ∧
    RegsKeptBut [rd] s t ∧ WordsKept s t ∧ Succeeded s t

/-- R136: CDIVN of a power of two within `LEN_MAX` completes; both components are divided by `ofNat(len)`. -/
def Obligations.CdivnResult : Prop :=
  ∀ (rd ra : Reg) (len : Word32) (s : State), (∃ n, integer len = 2 ^ n) → integer len ≤ s.cfg.lenMax →
    ∃ t d₀ d₁, exec (.cdivn rd ra len) s = .next t ∧
      t.reg rd = ⟨fdiv d₀ (s.reg ra).re (ofNat (integer len)), fdiv d₁ (s.reg ra).im (ofNat (integer len))⟩ ∧
      RegsKeptBut [rd] s t ∧ WordsKept s t ∧ Succeeded s t

/-- R142: TWID whose checks pass completes; `c[rd]` is `TW(dir, k, N)` and no register is read: the value does not depend on
any. -/
def Obligations.TwidResult : Prop :=
  ∀ (rd : Reg) (dir : Dir) (k len : Word32) (s : State), TwiddleReady s k len →
    ∃ t, exec (.twid rd dir k len) s = .next t ∧ t.reg rd = twiddle s.cfg.tw dir (integer k) (integer len) ∧
      RegsKeptBut [rd] s t ∧ WordsKept s t ∧ Succeeded s t

/-- R143: TWMUL whose checks pass completes; `c[rd]` is the product of the factor, on the left, and `c[ra]`. -/
def Obligations.TwmulResult : Prop :=
  ∀ (rd ra : Reg) (dir : Dir) (k len : Word32) (s : State), TwiddleReady s k len →
    let W := twiddle s.cfg.tw dir (integer k) (integer len)
    let x := s.reg ra
    ∃ t d₁ d₂ d₃ d₄ d₅ d₆, exec (.twmul rd ra dir k len) s = .next t ∧
      t.reg rd =
        ⟨fsub d₅ (fmul d₁ W.re x.re) (fmul d₂ W.im x.im), fadd d₆ (fmul d₃ W.re x.im) (fmul d₄ W.im x.re)⟩ ∧
      RegsKeptBut [rd] s t ∧ WordsKept s t ∧ Succeeded s t

/-- R140, R144: BFLY whose checks pass completes; `T` is computed once, `c[rd]` is `E + T` and `c[rd2]` is `E - T`, with both
sources read before either destination is written.  (`rd = rd2` has no encoding: `IllegalDescriptorsAnswered`.) -/
def Obligations.BflyResult : Prop :=
  ∀ (rd rd2 ra rb : Reg) (dir : Dir) (k len : Word32) (s : State), rd ≠ rd2 → TwiddleReady s k len →
    let W := twiddle s.cfg.tw dir (integer k) (integer len)
    let E := s.reg ra
    let O := s.reg rb
    ∃ (t : State) (T : Sample) (d₁ d₂ d₃ d₄ d₅ d₆ d₇ d₈ d₉ d₁₀ : Draw),
      exec (.bfly rd rd2 ra rb dir k len) s = .next t ∧
      T = ⟨fsub d₅ (fmul d₁ W.re O.re) (fmul d₂ W.im O.im), fadd d₆ (fmul d₃ W.re O.im) (fmul d₄ W.im O.re)⟩ ∧
      t.reg rd = ⟨fadd d₇ E.re T.re, fadd d₈ E.im T.im⟩ ∧
      t.reg rd2 = ⟨fsub d₉ E.re T.re, fsub d₁₀ E.im T.im⟩ ∧
      RegsKeptBut [rd, rd2] s t ∧ WordsKept s t ∧ Succeeded s t

/-- R150: CLD of an address that exists completes; `c[rd]` is the word, bit for bit; sample memory is not changed. -/
def Obligations.CldResult : Prop :=
  ∀ (rd : Reg) (a : Word32) (s : State), address a < s.cfg.smSize →
    ∃ t, exec (.cld rd a) s = .next t ∧ t.reg rd = s.word (address a) ∧
      RegsKeptBut [rd] s t ∧ WordsKept s t ∧ Succeeded s t

/-- R151: CST to an address that exists completes; the word is the register, bit for bit; exactly one word changes and no
register does. -/
def Obligations.CstResult : Prop :=
  ∀ (ra : Reg) (a : Word32) (s : State), address a < s.cfg.smSize →
    ∃ t, exec (.cst ra a) s = .next t ∧ t.word (address a) = s.reg ra ∧
      RegsKeptBut [] s t ∧ WordsKeptOutside (address a) 1 s t ∧ Succeeded s t

/-- R158: BITREV whose checks pass completes; destination word `i` is source word `rev(i, n)`, bit for bit; no other word and
no register changes. -/
def Obligations.BitrevResult : Prop :=
  ∀ (a b len : Word32) (n : Nat) (s : State), SequenceReady s a b len n →
    ∃ t, exec (.bitrev a b len) s = .next t ∧
      (∀ i, i < 2 ^ n → t.word (address b + i) = s.word (address a + rev i n)) ∧
      RegsKeptBut [] s t ∧ WordsKeptOutside (address b) (2 ^ n) s t ∧ Succeeded s t

/-- R170, R172: FFT whose checks pass completes; destination word `k` is bin `k` of the forward `xform` of the source
sequence; no other word and no register changes. -/
def Obligations.FftResult : Prop :=
  ∀ (a b len : Word32) (n : Nat) (s : State), SequenceReady s a b len n →
    ∃ t d, exec (.fft a b len) s = .next t ∧
      (∀ k, k < 2 ^ n → some (t.word (address b + k)) =
        (xform (hardware s.cfg.tw) d .forward n ((List.range (2 ^ n)).map fun i => s.word (address a + i)))[k]?) ∧
      RegsKeptBut [] s t ∧ WordsKeptOutside (address b) (2 ^ n) s t ∧ Succeeded s t

/-- R171, R172: IFFT whose checks pass completes; destination word `i` is element `i` of the inverse `xform` of the source
sequence, both components divided by `ofNat(N)`; no other word and no register changes. -/
def Obligations.IfftResult : Prop :=
  ∀ (a b len : Word32) (n : Nat) (s : State), SequenceReady s a b len n →
    ∃ t d, exec (.ifft a b len) s = .next t ∧
      (∀ i, i < 2 ^ n → ∃ y d₀ d₁,
        (xform (hardware s.cfg.tw) d .inverse n ((List.range (2 ^ n)).map fun j => s.word (address a + j)))[i]? = some y ∧
        t.word (address b + i) = ⟨fdiv d₀ y.re (ofNat (2 ^ n)), fdiv d₁ y.im (ofNat (2 ^ n))⟩) ∧
      RegsKeptBut [] s t ∧ WordsKeptOutside (address b) (2 ^ n) s t ∧ Succeeded s t

/-- R57, R172: the destination of a sequence operation is a function of the source range alone (and of the build): two states
that agree there get the same destination words, bit for bit from BITREV and up to the free bits of a NaN from FFT and IFFT. -/
def Obligations.DestinationDependsOnSourceAlone : Prop :=
  ∀ (a b len : Word32) (n : Nat) (s s' : State), SequenceReady s a b len n → s'.cfg = s.cfg →
    (∀ i, i < 2 ^ n → s'.word (address a + i) = s.word (address a + i)) →
    (∃ t t', exec (.bitrev a b len) s = .next t ∧ exec (.bitrev a b len) s' = .next t' ∧
      ∀ i, i < 2 ^ n → t'.word (address b + i) = t.word (address b + i)) ∧
    ∀ op ∈ [Instr.fft a b len, Instr.ifft a b len],
      ∃ t t', exec op s = .next t ∧ exec op s' = .next t' ∧
        ∀ i, i < 2 ^ n → SameSample (t'.word (address b + i)) (t.word (address b + i))

/-- R151, R248: CST then CLD of the same address returns the stored bits, and CLD then CST to the same address leaves every
word of memory as it was. -/
def Obligations.StoreThenLoad : Prop :=
  ∀ (ra rd : Reg) (a : Word32) (s : State), address a < s.cfg.smSize →
    (∃ t u, exec (.cst ra a) s = .next t ∧ exec (.cld rd a) t = .next u ∧ u.reg rd = s.reg ra) ∧
    (∃ t u, exec (.cld rd a) s = .next t ∧ exec (.cst rd a) t = .next u ∧ WordsKept s u)

/-- R145: TWMUL, CADD, CSUB leave what one BFLY leaves, and TWID then CMUL what TWMUL leaves, up to the free bits of a NaN.
`x ≠ y` is what BFLY needs to have an encoding, `w ≠ o` what TWID needs not to overwrite the operand. -/
def Obligations.ButterflyFromItsParts : Prop :=
  (∀ (t e o x y : Reg) (dir : Dir) (k len : Word32) (s : State), TwiddleReady s k len → t ≠ e → x ≠ e → x ≠ t → x ≠ y →
    ∃ s₁ s₂ s₃ u, exec (.twmul t o dir k len) s = .next s₁ ∧ exec (.cadd x e t) s₁ = .next s₂ ∧
      exec (.csub y e t) s₂ = .next s₃ ∧ exec (.bfly x y e o dir k len) s = .next u ∧
      SameSample (s₃.reg x) (u.reg x) ∧ SameSample (s₃.reg y) (u.reg y)) ∧
  (∀ (w t o : Reg) (dir : Dir) (k len : Word32) (s : State), TwiddleReady s k len → w ≠ o →
    ∃ s₁ s₂ u, exec (.twid w dir k len) s = .next s₁ ∧ exec (.cmul t w o) s₁ = .next s₂ ∧
      exec (.twmul t o dir k len) s = .next u ∧ SameSample (s₂.reg t) (u.reg t))

/-! ## Responses, errors and the status registers -/

/-- R218: every command is answered by the first check that fails, in the order of the table, or by OK when none does. -/
def Obligations.FirstFailingCheckAnswers : Prop :=
  ∀ (D : Word) (s : State), ∃ t r, issue D s = .next t ∧ Responded r s t ∧
    (∀ e, decode D = .error e → r = .illegal) ∧
    (∀ i, decode D = .ok i →
      (r = .ok ↔ ∀ e, ¬CheckFails s.cfg i e) ∧
      (r ≠ .ok → CheckFails s.cfg i r ∧ ∀ e, e.code.toNat < r.code.toNat → ¬CheckFails s.cfg i e))

/-- R216: whatever command is answered with an error, the state after it is the state before it apart from `STATUS.LAST` and
one bit of `ERRFLAGS`. -/
def Obligations.ErrorsArePrecise : Prop :=
  ∀ (D : Word) (s t : State) (e : Response), issue D s = .next t → t.answers = .response e :: s.answers → e ≠ .ok →
    Failed e s t

/-- R30: `STATUS` reads as the code of the most recent command in bits 3:0 and zero above; every command writes `LAST` with
its response code; nothing else but a reset changes it; a reset makes it 0; a host write of it is refused. -/
def Obligations.StatusHoldsLastResponse : Prop :=
  (∀ s : State, ∃ t v, perform (.csrRead 0) s = .next t ∧ t.answers = .csr v :: s.answers ∧
    v.extractLsb' 0 4 = s.status.extractLsb' 0 4 ∧ v.extractLsb' 4 28 = 0#28) ∧
  (∀ (D : Word) (s : State), ∃ t r, issue D s = .next t ∧ t.answers = .response r :: s.answers ∧
    t.status.extractLsb' 0 4 = r.code) ∧
  (∀ (act : HostAction) (s t : State), (∀ D, act ≠ .issue D) → act ≠ .reset → perform act s = .next t →
    t.status = s.status) ∧
  (State.reset.status = 0#32 ∧ ∀ s : State, ∃ t, perform .reset s = .next t ∧ t.status = 0#32) ∧
  (∀ (v : BitVec 32) (s : State), perform (.csrWrite 0 v) s = .next { s with answers := .herr :: s.answers })

/-- R31: the bits of `ERRFLAGS`: what a read returns, which command sets which bit, what a host write clears, that nothing
else sets one, and reset. -/
def Obligations.ErrflagsAreSticky : Prop :=
  (∀ s : State, ∃ t v, perform (.csrRead 1) s = .next t ∧ t.answers = .csr v :: s.answers ∧
    ∀ i, v.getLsbD i = (s.errflags.getLsbD i && decide (1 ≤ i ∧ i ≤ 6))) ∧
  (∀ (D : Word) (s : State), ∃ t r, issue D s = .next t ∧ t.answers = .response r :: s.answers ∧
    ∀ i, t.errflags.getLsbD i = (s.errflags.getLsbD i || decide (r ≠ .ok ∧ i = r.code.toNat))) ∧
  (∀ (v : BitVec 32) (s : State), ∃ t, perform (.csrWrite 1 v) s = .next t ∧
    ∀ i, t.errflags.getLsbD i = (s.errflags.getLsbD i && !(v.getLsbD i && decide (1 ≤ i ∧ i ≤ 6)))) ∧
  (∀ (act : HostAction) (s t : State), (∀ D, act ≠ .issue D) → perform act s = .next t →
    ∀ i, t.errflags.getLsbD i = true → s.errflags.getLsbD i = true) ∧
  (State.reset.errflags = 0#32 ∧ ∀ s : State, ∃ t, perform .reset s = .next t ∧ t.errflags = 0#32)

/-- R33: the CSR port: index 0 and 1 are read without side effect, a write of index 1 acts as R31 says and on nothing else, and
every other access is refused with `HERR`, no data and no state change. -/
def Obligations.CsrPortAccess : Prop :=
  ∀ s : State,
    (∃ v, perform (.csrRead 0) s = .next { s with answers := .csr v :: s.answers } ∧ v = 0#28 ++ s.status.extractLsb' 0 4) ∧
    (∃ v, perform (.csrRead 1) s = .next { s with answers := .csr v :: s.answers } ∧ v = s.errflags &&& 0x7E#32) ∧
    (∀ v, perform (.csrWrite 1 v) s =
      .next { s with errflags := s.errflags &&& ~~~(v &&& 0x7E#32), answers := .done :: s.answers }) ∧
    (∀ v, perform (.csrWrite 0 v) s = .next { s with answers := .herr :: s.answers }) ∧
    (∀ i v, 2 ≤ i → perform (.csrRead i) s = .next { s with answers := .herr :: s.answers } ∧
      perform (.csrWrite i v) s = .next { s with answers := .herr :: s.answers })

/-- R55, R56: the SM port: a write of a word that exists stores its 128 bits and changes nothing else, a read returns them and
changes nothing, and an access at or above `SM_SIZE` is refused with `HERR` and changes nothing. -/
def Obligations.SmPortAccess : Prop :=
  ∀ (a : Word32) (w : Word) (s : State),
    (address a < s.cfg.smSize → ∃ t, perform (.smWrite a w) s = .next t ∧ toWord (t.word (address a)) = w ∧
      WordsKeptOutside (address a) 1 s t ∧ t = { s with sm := t.sm, answers := .done :: s.answers }) ∧
    (s.cfg.smSize ≤ address a → perform (.smWrite a w) s = .next { s with answers := .herr :: s.answers }) ∧
    (address a < s.cfg.smSize →
      perform (.smRead a) s = .next { s with answers := .word (toWord (s.word (address a))) :: s.answers }) ∧
    (s.cfg.smSize ≤ address a → perform (.smRead a) s = .next { s with answers := .herr :: s.answers })

/-- R24, R41: after `Reset`, in whatever state it is given, and in `State.reset`, every register is 128 zero bits, `STATUS` and
`ERRFLAGS` are 0, every word of sample memory holds its draw, and every command is accepted. -/
def Obligations.ResetState : Prop :=
  (∀ s : State, ∃ t, perform .reset s = .next t ∧
    (∀ i, t.reg i = ⟨posZero, posZero⟩ ∧ toWord (t.reg i) = 0#128) ∧ t.status = 0#32 ∧ t.errflags = 0#32 ∧
    (∃ draw, ∀ a, t.word a = Config.smInit draw a) ∧ ∀ D, ∃ u, issue D t = .next u) ∧
  (∀ i, State.reset.reg i = ⟨posZero, posZero⟩ ∧ toWord (State.reset.reg i) = 0#128) ∧
  State.reset.status = 0#32 ∧ State.reset.errflags = 0#32 ∧ ∃ draw, ∀ a, State.reset.word a = Config.smInit draw a

/-- R222: neither status register affects any command: with other contents in both, the same descriptor leaves the same
registers and the same memory, up to the free bits of a NaN it produces, and gets the same response. -/
def Obligations.StatusDoesNotAffectCommands : Prop :=
  ∀ (D : Word) (s : State) (v w : BitVec 32), ∃ t t', issue D s = .next t ∧
    issue D { s with status := v, errflags := w } = .next t' ∧
    (∀ i, SameSample (t'.reg i) (t.reg i)) ∧ (∀ a, SameSample (t'.word a) (t.word a)) ∧ t'.answers = t.answers

/-- R66: `overlap(a, b, n)` says that the ranges share an address, for equal bases in particular; a sequence operation whose
ranges exist and overlap is refused with `ERR_OVERLAP` and changes no word. -/
def Obligations.OverlappingRangesRefused : Prop :=
  (∀ a b n : Nat, overlap a b n = true ↔ ∃ x, (a ≤ x ∧ x < a + n) ∧ (b ≤ x ∧ x < b + n)) ∧
  (∀ a n : Nat, 1 ≤ n → overlap a a n = true) ∧
  (∀ (a b len : Word32) (s : State), (∃ n, integer len = 2 ^ n) → integer len ≤ s.cfg.lenMax →
    address a + integer len ≤ s.cfg.smSize → address b + integer len ≤ s.cfg.smSize →
    overlap (address a) (address b) (integer len) = true →
    ∀ op ∈ [Instr.bitrev a b len, Instr.fft a b len, Instr.ifft a b len], ∃ t, exec op s = .next t ∧ Failed .overlap s t)

/-- R23: only a command or a reset changes a register.  That no transaction changes the parameters of the build is said of the
field that holds them; that they stand in the state is the model's choice (log entry 1: R17 says they are not state), so that
clause is about the model alone. -/
def Obligations.HostPortsKeepRegisters : Prop :=
  ∀ (act : HostAction) (s : State), ∃ t, perform act s = .next t ∧ t.cfg = s.cfg ∧
    ((∀ D, act ≠ .issue D) → act ≠ .reset → RegsKeptBut [] s t)

/-- R35, R51: the layout of a word, `re` in bits 63:0 and `im` in bits 127:64, and on a byte-addressed host bus byte `16*a + j`
of the mapped memory holds `w[8j+7 : 8j]` of word `a`: the eight lower bytes are `re`, least significant first, and the eight
upper ones `im`; a CSR is little-endian too. -/
def Obligations.WordLayoutAndBusBytes : Prop :=
  (∀ (z : Sample) (w : Word), (toWord z).extractLsb' 0 64 = z.re ∧ (toWord z).extractLsb' 64 64 = z.im ∧
    toWord z = z.im ++ z.re ∧ ofWord (toWord z) = z ∧ toWord (ofWord w) = w) ∧
  (∀ (s : State) (a j : Nat), a < s.cfg.smSize → j < 16 →
    busByte s (16 * a + j) = some ((toWord (s.word a)).extractLsb' (8 * j) 8) ∧
    (j < 8 → busByte s (16 * a + j) = some ((s.word a).re.extractLsb' (8 * j) 8)) ∧
    (8 ≤ j → busByte s (16 * a + j) = some ((s.word a).im.extractLsb' (8 * (j - 8)) 8))) ∧
  (∀ v : BitVec 32, v = csrByte v 3 ++ csrByte v 2 ++ csrByte v 1 ++ csrByte v 0)

/-! ## Invariants -/

/-- Every step keeps the invariant: memory canonical and inside `[0, SM_SIZE)`, reserved status bits zero, `LAST` a code that
exists, parameters legal.  The canonical form of memory and the parameters in the state are the model's (log entries 5, 1). -/
def Obligations.StepKeepsInv : Prop := ∀ s t : State, s.Inv → step s = .next t → t.Inv

/-- The invariant holds after reset. -/
def Obligations.ResetHasInv : Prop := State.reset.Inv

/-! ## Scalar arithmetic -/

/-- R102, R104a, R104b: on finite operands `fadd`, `fsub`, `fmul`, `fdiv` are the exact result rounded to nearest even. -/
def Obligations.ArithmeticCorrectlyRounded : Prop :=
  ∀ (d : Draw) (x y : F), isFinite x = true → isFinite y = true →
    RoundsTo (((value x + value y : ℚ)) : ℝ) (fadd d x y) ∧
    RoundsTo (((value x - value y : ℚ)) : ℝ) (fsub d x y) ∧
    RoundsTo (((value x * value y : ℚ)) : ℝ) (fmul d x y) ∧
    (isZero y = false → RoundsTo (((value x / value y : ℚ)) : ℝ) (fdiv d x y))

/-- R102: on a finite operand that is not negative `fsqrt` is the exact square root rounded to nearest even; of `+inf` it is
`+inf`, and of a NaN a quiet NaN (R104c, R105), which is what R197 says a magnitude that overflows or has a NaN component
gives. -/
def Obligations.SquareRootCorrectlyRounded : Prop :=
  ∀ (d : Draw) (x : F),
    (isFinite x = true → (signBit x = false ∨ isZero x = true) → RoundsTo (Real.sqrt ((value x : ℚ) : ℝ)) (fsqrt d x)) ∧
    (isInf x = true → signBit x = false → fsqrt d x = x) ∧
    (isNaN x = true → isQuietNaN (fsqrt d x) = true)

/-- R102, R104c, R104d, R105: which operations give a NaN, that it is a quiet one, and the infinities: beside a finite operand and
beside another infinity. -/
def Obligations.ExceptionalResults : Prop :=
  ∀ (d : Draw) (x y : F),
    (isNaN (fadd d x y) = true ↔
      isNaN x = true ∨ isNaN y = true ∨ (isInf x = true ∧ isInf y = true ∧ signBit x ≠ signBit y)) ∧
    (isNaN (fsub d x y) = true ↔
      isNaN x = true ∨ isNaN y = true ∨ (isInf x = true ∧ isInf y = true ∧ signBit x = signBit y)) ∧
    (isNaN (fmul d x y) = true ↔
      isNaN x = true ∨ isNaN y = true ∨ (isInf x = true ∧ isZero y = true) ∨ (isZero x = true ∧ isInf y = true)) ∧
    (isNaN (fdiv d x y) = true ↔
      isNaN x = true ∨ isNaN y = true ∨ (isZero x = true ∧ isZero y = true) ∨ (isInf x = true ∧ isInf y = true)) ∧
    (∀ r ∈ [fadd d x y, fsub d x y, fmul d x y, fdiv d x y], isNaN r = true → isQuietNaN r = true) ∧
    (isInf x = true → isFinite y = true →
      fadd d x y = x ∧ fadd d y x = x ∧ fsub d x y = x ∧ fsub d y x = fneg x ∧
      isInf (fdiv d x y) = true ∧ isZero (fdiv d y x) = true ∧
      (isZero y = false → isInf (fmul d x y) = true ∧ isInf (fmul d y x) = true)) ∧
    (isInf x = true → isInf y = true →
      (signBit x = signBit y → fadd d x y = x) ∧ (signBit x ≠ signBit y → fsub d x y = x) ∧
      isInf (fmul d x y) = true ∧ signBit (fmul d x y) = (signBit x != signBit y)) ∧
    (isFinite x = true → isZero x = false → isZero y = true →
      isInf (fdiv d x y) = true ∧ signBit (fdiv d x y) = (signBit x != signBit y)) ∧
    (isNaN (fmul d x y) = false → signBit (fmul d x y) = (signBit x != signBit y)) ∧
    (isNaN (fdiv d x y) = false → signBit (fdiv d x y) = (signBit x != signBit y))

/-- R106: signed zeros. -/
def Obligations.SignedZeros : Prop :=
  (∀ (d : Draw) (x : F), isFinite x = true → fsub d x x = posZero) ∧
  (∀ d : Draw, fadd d posZero negZero = posZero ∧ fadd d negZero negZero = negZero ∧ fsub d posZero posZero = posZero ∧
    fsub d negZero posZero = negZero) ∧
  (∀ (d : Draw) (x y : F), (isZero (fmul d x y) = true → signBit (fmul d x y) = (signBit x != signBit y)) ∧
    (isZero (fdiv d x y) = true → signBit (fdiv d x y) = (signBit x != signBit y)))

/-- R107: `ofNat` and `ofInt` round an integer to nearest even; below `2^53` in magnitude they are exact, which covers every
32-bit field and every 16-bit sample. -/
def Obligations.IntegersConvert : Prop :=
  (∀ n : Nat, RoundsTo (n : ℝ) (ofNat n)) ∧ (∀ n : Int, RoundsTo (n : ℝ) (ofInt n)) ∧
  (∀ n : Nat, n < 2 ^ 53 → isFinite (ofNat n) = true ∧ value (ofNat n) = n) ∧
  (∀ n : Int, n.natAbs < 2 ^ 53 → isFinite (ofInt n) = true ∧ value (ofInt n) = n) ∧
  (∀ v : Word32, value (ofNat (integer v)) = integer v) ∧ (∀ p : Pcm, value (ofInt p.toInt) = p.toInt)

/-- R109: the laws of the scalar operations: (a) commutativity up to the bits of a NaN; (b) scaling by a power of two is exact
short of overflow and of the subnormal range, and division by `2^n` is multiplication by `2^-n`; (c) subtraction; (d) identities;
and that neither operation is associative and one does not distribute over the other. -/
def Obligations.ScalarLaws : Prop :=
  (∀ (d d' : Draw) (x y : F), SameScalar (fadd d x y) (fadd d' y x) ∧ SameScalar (fmul d x y) (fmul d' y x)) ∧
  (∀ (d : Draw) (x : F) (j : ℤ), -1022 ≤ j → j ≤ 1022 → isFinite x = true →
    |value x| * 2 ^ j < 2 ^ 1024 → (value x = 0 ∨ 1 / 2 ^ 1022 ≤ |value x| * 2 ^ j) →
    value (fmul d x (powerOfTwo j)) = value x * 2 ^ j ∧ value (fdiv d x (powerOfTwo (-j))) = value x * 2 ^ j) ∧
  (∀ (d d' : Draw) (x : F) (n : Nat), n ≤ 1022 →
    SameScalar (fdiv d x (ofNat (2 ^ n))) (fmul d' x (powerOfTwo (-n)))) ∧
  (∀ (d d' : Draw) (x y : F), SameScalar (fsub d x y) (fadd d' x (fneg y))) ∧
  (∀ (d : Draw) (x : F), isNaN x = false →
    fmul d one x = x ∧ (x ≠ negZero → fadd d x posZero = x) ∧ fadd d negZero posZero = posZero) ∧
  (∀ d : Draw, ∃ x y z : F, numEq (fadd d (fadd d x y) z) (fadd d x (fadd d y z)) = false ∧
    isFinite (fadd d (fadd d x y) z) = true ∧ isFinite (fadd d x (fadd d y z)) = true) ∧
  (∀ d : Draw, ∃ x y z : F, numEq (fmul d (fmul d x y) z) (fmul d x (fmul d y z)) = false ∧
    isFinite (fmul d (fmul d x y) z) = true ∧ isFinite (fmul d x (fmul d y z)) = true) ∧
  (∀ d : Draw, ∃ x y z : F, numEq (fmul d x (fadd d y z)) (fadd d (fmul d x y) (fmul d x z)) = false ∧
    isFinite (fmul d x (fadd d y z)) = true ∧ isFinite (fadd d (fmul d x y) (fmul d x z)) = true)

/-! ## The twiddle generator -/

/-- R116: whatever generator the build has, in the domain of R115 it has TW-P2, TW-P3, TW-P4 and TW-P5 (TW-P1 is that it is a
function of its arguments; TW-P6 is `TransformIsTheRecursion`). -/
def Obligations.TwiddleProperties : Prop :=
  ∀ (c : TwChoice) (k N : Nat), InTwiddleDomain k N →
    (∀ dir, InUnitRange (twiddle c dir k N).re ∧ InUnitRange (twiddle c dir k N).im) ∧
    (k = 0 → ∀ dir, (twiddle c dir k N).re = one ∧ isZero (twiddle c dir k N).im = true) ∧
    ((twiddle c .inverse k N).re = (twiddle c .forward k N).re ∧
      (twiddle c .inverse k N).im = fneg (twiddle c .forward k N).im) ∧
    (∀ dir, CloseTo (twiddle c dir k N).re (Real.cos (exactAngle dir k N)) ∧
      CloseTo (twiddle c dir k N).im (Real.sin (exactAngle dir k N)))

/-- R119: exact values of `TW_REF` at index 0, at a quarter and at an eighth of the length, and that it depends on `k/N`
alone.  For a length above `2^31`, which no build serves, that is the model's choice (log entry 6). -/
def Obligations.ReferenceTwiddleValues : Prop :=
  (∀ N : Nat, 1 ≤ N → twiddle .reference .forward 0 N = ⟨one, negZero⟩ ∧ twiddle .reference .inverse 0 N = ⟨one, posZero⟩) ∧
  (∀ n : Nat, twiddle .reference .forward (2 ^ n) (4 * 2 ^ n) = ⟨0x3C91A62633145C07#64, 0xBFF0000000000000#64⟩) ∧
  (∀ n : Nat, twiddle .reference .forward (2 ^ n) (8 * 2 ^ n) = ⟨0x3FE6A09E667F3BCD#64, 0xBFE6A09E667F3BCC#64⟩) ∧
  (∀ (dir : Dir) (k N n : Nat), InTwiddleDomain k N →
    twiddle .reference dir (k * 2 ^ n) (N * 2 ^ n) = twiddle .reference dir k N)

/-- R118: `TW_REF` is the default, and for every length a build may serve it is the formula of R118: `θ` is the product `s * k`
divided by `N`, each operation rounded, with `s` the binary64 number `TWO_PI` or its negation; the factor is `(1.0, θ)` when `θ`
is a zero, as it is for `k = 0`, and otherwise the exact real cosine and sine of `θ`, each rounded once to nearest even. -/
def Obligations.ReferenceFactorsCorrectlyRounded : Prop :=
  Params.default.tw = .reference ∧
  ∀ (dir : Dir) (k N : Nat) (d d' : Draw), InTwiddleDomain k N → N ≤ 2 ^ 31 →
    let s : F := match dir with
      | .forward => fneg 0x401921FB54442D18#64
      | .inverse => 0x401921FB54442D18#64
    let θ := fdiv d' (fmul d s (ofNat k)) (ofNat N)
    let W := twiddle .reference dir k N
    isFinite θ = true ∧
    (k = 0 → θ = match dir with
      | .forward => negZero
      | .inverse => posZero) ∧
    (isZero θ = true → W = ⟨one, θ⟩) ∧
    (isZero θ = false →
      RoundsTo (Real.cos ((value θ : ℚ) : ℝ)) W.re ∧ RoundsTo (Real.sin ((value θ : ℚ) : ℝ)) W.im)

/-- R117: multiplying by `W_0` leaves a finite sample numerically as it was, so a butterfly with `k = 0` is the plain sum and
difference; and the inverse transform is the forward one with every factor conjugated. -/
def Obligations.IdentityTwiddle : Prop :=
  (∀ (c : TwChoice) (dir : Dir) (N : Nat) (d : Draw) (z : Sample), InTwiddleDomain 0 N → FiniteSample z →
    NumEqSample (cmul (hardware c) d (twiddle c dir 0 N) z) z) ∧
  (∀ (c : TwChoice) (dir : Dir) (N : Nat) (d d' : Draw) (E O : Sample), InTwiddleDomain 0 N → FiniteSample E →
    FiniteSample O →
    NumEqSample (bfly (hardware c) d dir 0 N E O).1 (cadd (hardware c) d' E O) ∧
    NumEqSample (bfly (hardware c) d dir 0 N E O).2 (csub (hardware c) d' E O)) ∧
  (∀ (c : TwChoice) (d d' : Draw) (n : Nat) (x : List Sample), x.length = 2 ^ n →
    List.Forall₂ SameSample (xform (hardware c) d .inverse n x)
      (xform { hardware c with tw := fun _ k N => ⟨(twiddle c .forward k N).re, fneg (twiddle c .forward k N).im⟩ }
        d' .forward n x))

/-! ## Bit reversal -/

/-- R156: for `i` below `2^n`, where `rev(i, n)` is defined, it reverses the `n` bits of `i`, as a sum and by the recursion. -/
def Obligations.RevReversesBits : Prop :=
  (∀ n i : Nat, i < 2 ^ n → rev i n < 2 ^ n ∧ (∀ j, j < n → (rev i n).testBit j = i.testBit (n - 1 - j)) ∧
    rev i n = ∑ j ∈ Finset.range n, (i.testBit j).toNat * 2 ^ (n - 1 - j)) ∧
  (∀ i : Nat, i < 2 ^ 0 → rev i 0 = 0) ∧
  (∀ n i : Nat, i < 2 ^ (n + 1) → rev i (n + 1) = (i % 2) * 2 ^ n + rev (i / 2) n)

/-- R157: laws (a) to (g) of `rev`, and its tables for `n = 2, 3, 4`. -/
def Obligations.RevLaws : Prop :=
  (∀ n : Nat, Set.BijOn (fun i => rev i n) (Set.Iio (2 ^ n)) (Set.Iio (2 ^ n))) ∧
  (∀ n i : Nat, i < 2 ^ n → rev (rev i n) n = i) ∧
  (∀ n : Nat, rev 0 n = 0 ∧ rev (2 ^ n - 1) n = 2 ^ n - 1) ∧
  (rev 0 0 = 0 ∧ ∀ i, i < 2 → rev i 1 = i) ∧
  (∀ n i : Nat, i < 2 ^ n → rev (2 * i) (n + 1) = rev i n ∧ rev (2 * i + 1) (n + 1) = 2 ^ n + rev i n ∧
    rev (i + 2 ^ n) (n + 1) = 2 * rev i n + 1 ∧ rev i (n + 1) = 2 * rev i n) ∧
  (∀ n i : Nat, i < 2 ^ n → (rev i n = i ↔ ∀ j, j < n → i.testBit j = i.testBit (n - 1 - j))) ∧
  ((List.range 4).map (fun i => rev i 2) = [0, 2, 1, 3] ∧
    (List.range 8).map (fun i => rev i 3) = [0, 4, 2, 6, 1, 5, 3, 7] ∧
    (List.range 16).map (fun i => rev i 4) = [0, 8, 4, 12, 2, 10, 6, 14, 1, 9, 5, 13, 3, 11, 7, 15])

/-- R159: two BITREV commands copy a sequence, `bitrev` is an involution and a permutation, keeps both ends, and commutes with
the split by parity. -/
def Obligations.BitrevLaws : Prop :=
  (∀ (n : Nat) (x : List Sample), x.length = 2 ^ n →
    bitrev n (bitrev n x) = x ∧ (bitrev n x).Perm x ∧ (bitrev n x)[0]? = x[0]? ∧
    (bitrev n x)[2 ^ n - 1]? = x[2 ^ n - 1]?) ∧
  (∀ (n : Nat) (x : List Sample), x.length = 2 ^ (n + 1) →
    bitrev (n + 1) x = bitrev n (evens x) ++ bitrev n (odds x)) ∧
  (∀ (a b c len : Word32) (n : Nat) (s : State), SequenceReady s a b len n → SequenceReady s b c len n →
    ∃ t u, exec (.bitrev a b len) s = .next t ∧ exec (.bitrev b c len) t = .next u ∧
      ∀ i, i < 2 ^ n → u.word (address c + i) = s.word (address a + i))

/-! ## The transform -/

/-- R166: the split by parity. -/
def Obligations.SplitByParity : Prop :=
  ∀ (x : List Sample) (m : Nat), x.length = 2 * m →
    (evens x).length = m ∧ (odds x).length = m ∧ ∀ i, i < m → (evens x)[i]? = x[2 * i]? ∧ (odds x)[i]? = x[2 * i + 1]?

/-- R167: `xform` is the recursion, over any numerics record: the base case copies, and output `k` and output `k + N/2` are the
two outputs of the butterfly of index `k` and length `N` on the transformed halves. -/
def Obligations.TransformIsTheRecursion : Prop :=
  ∀ (num : Numerics F) (d : Draw) (dir : Dir),
    (∀ z : Sample, xform num d dir 0 [z] = [z]) ∧
    (∀ (n : Nat) (x : List Sample), x.length = 2 ^ (n + 1) →
      (xform num d dir (n + 1) x).length = 2 ^ (n + 1) ∧
      ∃ dE dO, ∀ k, k < 2 ^ n → ∃ E O d₁ d₂ d₃,
        (xform num dE dir n (evens x))[k]? = some E ∧ (xform num dO dir n (odds x))[k]? = some O ∧
        (xform num d dir (n + 1) x)[k]? = some (cadd num d₂ E (cmul num d₁ (num.tw dir k (2 ^ (n + 1))) O)) ∧
        (xform num d dir (n + 1) x)[k + 2 ^ n]? = some (csub num d₃ E (cmul num d₁ (num.tw dir k (2 ^ (n + 1))) O)))

/-- R169: the forward transform does not scale, the inverse divides every output once by `N`, and the two on one sample. -/
def Obligations.InverseDividesOnce : Prop :=
  ∀ (c : TwChoice) (d : Draw) (n : Nat) (x : List Sample), x.length = 2 ^ n →
    fft (hardware c) d n x = xform (hardware c) d .forward n x ∧
    (∃ d', ∀ i, i < 2 ^ n → ∃ y d₀ d₁, (xform (hardware c) d' .inverse n x)[i]? = some y ∧
      (ifft (hardware c) d n x)[i]? = some ⟨fdiv d₀ y.re (ofNat (2 ^ n)), fdiv d₁ y.im (ofNat (2 ^ n))⟩) ∧
    (n = 0 → ∀ z, x = [z] → fft (hardware c) d n x = [z] ∧
      ∃ y, ifft (hardware c) d n x = [y] ∧ SameSample y z)

/-- R174: the iterative bottom-up form with the bit-reversal permutation computes the same values as the recursion, bit for bit
up to the free bits of a NaN. -/
def Obligations.IterativeFormAgrees : Prop :=
  ∀ (c : TwChoice) (d d' : Draw) (dir : Dir) (n : Nat) (x : List Sample), x.length = 2 ^ n →
    List.Forall₂ SameSample (xformIter (hardware c) d dir n x) (xform (hardware c) d' dir n x)

/-- R182a: the impulse, bit exact for every generator. -/
def Obligations.ImpulseIsFlat : Prop :=
  ∀ (c : TwChoice) (d : Draw) (n : Nat),
    fft (hardware c) d n (⟨one, posZero⟩ :: List.replicate (2 ^ n - 1) ⟨posZero, posZero⟩) =
      List.replicate (2 ^ n) ⟨one, posZero⟩

/-- R182b: a constant sequence, exact while `N * c` does not overflow: bin 0 is `N * c`, every other bin numerically zero. -/
def Obligations.ConstantHasOneBin : Prop :=
  ∀ (c : TwChoice) (d : Draw) (n : Nat) (z : Sample), FiniteSample z →
    2 ^ n * |value z.re| < 2 ^ 1024 → 2 ^ n * |value z.im| < 2 ^ 1024 →
    ∃ X₀ rest, fft (hardware c) d n (List.replicate (2 ^ n) z) = X₀ :: rest ∧
      FiniteSample X₀ ∧ value X₀.re = 2 ^ n * value z.re ∧ value X₀.im = 2 ^ n * value z.im ∧
      ∀ y ∈ rest, isZero y.re = true ∧ isZero y.im = true

/-- R180: over the real numbers with exact factors, FFT is the discrete Fourier transform and IFFT its inverse. -/
def Obligations.IdealTransformIsTheSum : Prop :=
  ∀ (d : Draw) (n : Nat) (x : List (Cx ℝ)), x.length = 2 ^ n →
    (fft ideal d n x).length = 2 ^ n ∧ (ifft ideal d n x).length = 2 ^ n ∧
    ∀ k, k < 2 ^ n →
      ((fft ideal d n x).map toComplexNumber)[k]? = some (dftBin (2 ^ n) x k) ∧
      ((ifft ideal d n x).map toComplexNumber)[k]? = some (inverseDftSample (2 ^ n) x k)

/-- R181: the source's properties, exact over the real numbers: round trip, linearity, constant, impulse, and bin 0 as the
sum. -/
def Obligations.IdealTransformProperties : Prop :=
  (∀ (d d' : Draw) (n : Nat) (x : List (Cx ℝ)), x.length = 2 ^ n → ifft ideal d n (fft ideal d' n x) = x) ∧
  (∀ (d : Draw) (n : Nat) (x y z : List (Cx ℝ)) (a b : ℂ), x.length = 2 ^ n → y.length = 2 ^ n → z.length = 2 ^ n →
    (∀ j, j < 2 ^ n → (z.map toComplexNumber).getD j 0 =
      a * (x.map toComplexNumber).getD j 0 + b * (y.map toComplexNumber).getD j 0) →
    ∀ k, k < 2 ^ n → ((fft ideal d n z).map toComplexNumber).getD k 0 =
      a * ((fft ideal d n x).map toComplexNumber).getD k 0 + b * ((fft ideal d n y).map toComplexNumber).getD k 0) ∧
  (∀ (d : Draw) (n : Nat) (c : Cx ℝ), fft ideal d n (List.replicate (2 ^ n) c) =
    ⟨2 ^ n * c.re, 2 ^ n * c.im⟩ :: List.replicate (2 ^ n - 1) ⟨0, 0⟩) ∧
  (∀ (d : Draw) (n : Nat), fft ideal d n (⟨1, 0⟩ :: List.replicate (2 ^ n - 1) ⟨0, 0⟩) = List.replicate (2 ^ n) ⟨1, 0⟩) ∧
  (∀ (d : Draw) (n : Nat) (x : List (Cx ℝ)), x.length = 2 ^ n →
    ((fft ideal d n x).map toComplexNumber)[0]? = some (x.map toComplexNumber).sum)

/-! ## The host's functions -/

/-- R193: conversion to complex samples and back is the identity, with no lossy event. -/
def Obligations.ConversionRoundTrip : Prop := ∀ s : List Pcm, toPcm (toComplex s) = (s, [])

/-- R191: `toPcm1` on a NaN, an infinity, a number out of range on either side and a number in range; the imaginary part is not
looked at; `toPcm` converts each element and lists the lossy indices in increasing order. -/
def Obligations.PcmClampsAndReports : Prop :=
  (∀ c : Sample,
    (isNaN c.re = true → toPcm1 c = (0#16, .lossy)) ∧
    (isInf c.re = true → toPcm1 c = (if signBit c.re then BitVec.ofInt 16 (-32768) else 32767#16, .lossy)) ∧
    (isFinite c.re = true → 32767 < roundHalfAway c.re → toPcm1 c = (32767#16, .lossy)) ∧
    (isFinite c.re = true → roundHalfAway c.re < -32768 → toPcm1 c = (BitVec.ofInt 16 (-32768), .lossy)) ∧
    (isFinite c.re = true → -32768 ≤ roundHalfAway c.re → roundHalfAway c.re ≤ 32767 →
      (toPcm1 c).1.toInt = roundHalfAway c.re ∧ (toPcm1 c).2 = .exact) ∧
    ∀ im, toPcm1 ⟨c.re, im⟩ = toPcm1 c) ∧
  (∀ y : List Sample, (toPcm y).1 = y.map (fun c => (toPcm1 c).1) ∧ (toPcm y).2.Pairwise (· < ·) ∧
    ∀ i, i ∈ (toPcm y).2 ↔ ∃ c, y[i]? = some c ∧ (toPcm1 c).2 = .lossy)

/-- R192: `round_half_away`: the nearest integer, and of two equally near the one farther from zero; with the spec's examples
and what they make of the ends of the range. -/
def Obligations.RoundsHalvesAway : Prop :=
  (∀ r : F, isFinite r = true → |value r - roundHalfAway r| ≤ 1 / 2 ∧
    (|value r - roundHalfAway r| = 1 / 2 → |value r| < |(roundHalfAway r : ℚ)|)) ∧
  (roundHalfAway 0x3FE0000000000000#64 = 1 ∧ roundHalfAway 0xBFE0000000000000#64 = -1 ∧
    roundHalfAway 0x4004000000000000#64 = 3 ∧ roundHalfAway 0xC004000000000000#64 = -3 ∧
    roundHalfAway 0x3FDFFFFFFFFFFFFF#64 = 0 ∧ roundHalfAway negZero = 0) ∧
  (toPcm1 ⟨0x40DFFFDF5C28F5C3#64, posZero⟩ = (32767#16, .exact) ∧
    toPcm1 ⟨0x40DFFFE000000000#64, posZero⟩ = (32767#16, .lossy) ∧
    toPcm1 ⟨0xC0E0001000000000#64, posZero⟩ = (BitVec.ofInt 16 (-32768), .lossy) ∧
    toPcm1 ⟨0xC0E0000FAE147AE1#64, posZero⟩ = (BitVec.ofInt 16 (-32768), .exact))

/-- R194: `padLength(n)` is the least power of two that is at least `n`, and is not defined for an empty input. -/
def Obligations.PadLengthIsLeast : Prop :=
  padLength 0 = none ∧
  (∀ n : Nat, 1 ≤ n → ∃ N, padLength n = some N ∧ (∃ m, N = 2 ^ m) ∧ n ≤ N ∧ ∀ m, n ≤ 2 ^ m → N ≤ 2 ^ m) ∧
  (∀ m : Nat, padLength (2 ^ m) = some (2 ^ m)) ∧
  (padLength 1 = some 1 ∧ padLength 3 = some 4 ∧ padLength 5 = some 8 ∧ padLength 9 = some 16 ∧
    padLength 65535 = some 65536 ∧ padLength 65537 = some 131072)

end
end

