-- ==== Sys2Proof/Laws/State.lean ====
section
/-! SUPPORT. One lemma per field per update of the state, true by rfl, so that no later proof unfolds a record update. -/

namespace Sys2Proof.Machine

@[simp] theorem regs_setReg (s : State) (i : Reg) (v : Sample) : (s.setReg i v).regs = s.regs.set i v := rfl
@[simp] theorem sm_setReg (s : State) (i : Reg) (v : Sample) : (s.setReg i v).sm = s.sm := rfl
@[simp] theorem status_setReg (s : State) (i : Reg) (v : Sample) : (s.setReg i v).status = s.status := rfl
@[simp] theorem errflags_setReg (s : State) (i : Reg) (v : Sample) : (s.setReg i v).errflags = s.errflags := rfl
@[simp] theorem cfg_setReg (s : State) (i : Reg) (v : Sample) : (s.setReg i v).cfg = s.cfg := rfl
@[simp] theorem smDraw_setReg (s : State) (i : Reg) (v : Sample) : (s.setReg i v).smDraw = s.smDraw := rfl
@[simp] theorem serial_setReg (s : State) (i : Reg) (v : Sample) : (s.setReg i v).serial = s.serial := rfl
@[simp] theorem inbox_setReg (s : State) (i : Reg) (v : Sample) : (s.setReg i v).inbox = s.inbox := rfl
@[simp] theorem answers_setReg (s : State) (i : Reg) (v : Sample) : (s.setReg i v).answers = s.answers := rfl

@[simp] theorem regs_memWrite (s : State) (b : Nat) (vs : List Sample) : (s.memWrite b vs).regs = s.regs := rfl
@[simp] theorem sm_memWrite (s : State) (b : Nat) (vs : List Sample) : (s.memWrite b vs).sm = s.sm.put b vs := rfl
@[simp] theorem status_memWrite (s : State) (b : Nat) (vs : List Sample) : (s.memWrite b vs).status = s.status := rfl
@[simp] theorem errflags_memWrite (s : State) (b : Nat) (vs : List Sample) : (s.memWrite b vs).errflags = s.errflags := rfl
@[simp] theorem cfg_memWrite (s : State) (b : Nat) (vs : List Sample) : (s.memWrite b vs).cfg = s.cfg := rfl
@[simp] theorem smDraw_memWrite (s : State) (b : Nat) (vs : List Sample) : (s.memWrite b vs).smDraw = s.smDraw := rfl
@[simp] theorem serial_memWrite (s : State) (b : Nat) (vs : List Sample) : (s.memWrite b vs).serial = s.serial := rfl
@[simp] theorem inbox_memWrite (s : State) (b : Nat) (vs : List Sample) : (s.memWrite b vs).inbox = s.inbox := rfl
@[simp] theorem answers_memWrite (s : State) (b : Nat) (vs : List Sample) : (s.memWrite b vs).answers = s.answers := rfl

@[simp] theorem regs_respond (s : State) (r : Response) : (s.respond r).regs = s.regs := rfl
@[simp] theorem sm_respond (s : State) (r : Response) : (s.respond r).sm = s.sm := rfl
@[simp] theorem status_respond (s : State) (r : Response) : (s.respond r).status = withLast s.status r.code := rfl
@[simp] theorem errflags_respond (s : State) (r : Response) : (s.respond r).errflags = withFlag s.errflags r := rfl
@[simp] theorem cfg_respond (s : State) (r : Response) : (s.respond r).cfg = s.cfg := rfl
@[simp] theorem smDraw_respond (s : State) (r : Response) : (s.respond r).smDraw = s.smDraw := rfl
@[simp] theorem serial_respond (s : State) (r : Response) : (s.respond r).serial = s.serial + 1 := rfl
@[simp] theorem inbox_respond (s : State) (r : Response) : (s.respond r).inbox = s.inbox := rfl
@[simp] theorem answers_respond (s : State) (r : Response) : (s.respond r).answers = .response r :: s.answers := rfl

@[simp] theorem regs_respondOk (s : State) : s.respondOk.regs = s.regs := rfl
@[simp] theorem sm_respondOk (s : State) : s.respondOk.sm = s.sm := rfl
@[simp] theorem status_respondOk (s : State) : s.respondOk.status = withLast s.status 0#4 := rfl
@[simp] theorem errflags_respondOk (s : State) : s.respondOk.errflags = s.errflags := rfl
@[simp] theorem cfg_respondOk (s : State) : s.respondOk.cfg = s.cfg := rfl
@[simp] theorem smDraw_respondOk (s : State) : s.respondOk.smDraw = s.smDraw := rfl
@[simp] theorem serial_respondOk (s : State) : s.respondOk.serial = s.serial + 1 := rfl
@[simp] theorem inbox_respondOk (s : State) : s.respondOk.inbox = s.inbox := rfl
@[simp] theorem answers_respondOk (s : State) : s.respondOk.answers = .response .ok :: s.answers := rfl

@[simp] theorem regs_raiseError (s : State) (e : Response) : (s.raiseError e).regs = s.regs := rfl
@[simp] theorem sm_raiseError (s : State) (e : Response) : (s.raiseError e).sm = s.sm := rfl
@[simp] theorem status_raiseError (s : State) (e : Response) : (s.raiseError e).status = withLast s.status e.code := rfl
@[simp] theorem errflags_raiseError (s : State) (e : Response) : (s.raiseError e).errflags = withFlag s.errflags e := rfl
@[simp] theorem cfg_raiseError (s : State) (e : Response) : (s.raiseError e).cfg = s.cfg := rfl
@[simp] theorem smDraw_raiseError (s : State) (e : Response) : (s.raiseError e).smDraw = s.smDraw := rfl
@[simp] theorem serial_raiseError (s : State) (e : Response) : (s.raiseError e).serial = s.serial + 1 := rfl
@[simp] theorem inbox_raiseError (s : State) (e : Response) : (s.raiseError e).inbox = s.inbox := rfl
@[simp] theorem answers_raiseError (s : State) (e : Response) : (s.raiseError e).answers = .response e :: s.answers := rfl

@[simp] theorem regs_answer (s : State) (a : Answer) : (s.answer a).regs = s.regs := rfl
@[simp] theorem sm_answer (s : State) (a : Answer) : (s.answer a).sm = s.sm := rfl
@[simp] theorem status_answer (s : State) (a : Answer) : (s.answer a).status = s.status := rfl
@[simp] theorem errflags_answer (s : State) (a : Answer) : (s.answer a).errflags = s.errflags := rfl
@[simp] theorem cfg_answer (s : State) (a : Answer) : (s.answer a).cfg = s.cfg := rfl
@[simp] theorem smDraw_answer (s : State) (a : Answer) : (s.answer a).smDraw = s.smDraw := rfl
@[simp] theorem serial_answer (s : State) (a : Answer) : (s.answer a).serial = s.serial := rfl
@[simp] theorem inbox_answer (s : State) (a : Answer) : (s.answer a).inbox = s.inbox := rfl
@[simp] theorem answers_answer (s : State) (a : Answer) : (s.answer a).answers = a :: s.answers := rfl

@[simp] theorem regs_resetUnit (s : State) : (resetUnit s).regs = zeroRegs := rfl
@[simp] theorem sm_resetUnit (s : State) : (resetUnit s).sm = [] := rfl
@[simp] theorem status_resetUnit (s : State) : (resetUnit s).status = 0#32 := rfl
@[simp] theorem errflags_resetUnit (s : State) : (resetUnit s).errflags = 0#32 := rfl
@[simp] theorem cfg_resetUnit (s : State) : (resetUnit s).cfg = s.cfg := rfl
@[simp] theorem smDraw_resetUnit (s : State) : (resetUnit s).smDraw = Config.smDrawAfter s.smDraw s.sm s.regs.toList := rfl
@[simp] theorem serial_resetUnit (s : State) : (resetUnit s).serial = s.serial := rfl
@[simp] theorem inbox_resetUnit (s : State) : (resetUnit s).inbox = s.inbox := rfl
@[simp] theorem answers_resetUnit (s : State) : (resetUnit s).answers = s.answers := rfl

/-- A register after a write: the written one holds the value, every other one is unchanged (10_state.md R22). -/
theorem reg_setReg (s : State) (i j : Reg) (v : Sample) : (s.setReg i v).reg j = if i = j then v else s.reg j := by
  simp only [State.reg, State.setReg, Fin.getElem_fin, Vector.getElem_set, Fin.val_inj]

@[simp] theorem reg_setReg_self (s : State) (i : Reg) (v : Sample) : (s.setReg i v).reg i = v := by simp [reg_setReg]

theorem reg_setReg_ne (s : State) {i j : Reg} (h : i ≠ j) (v : Sample) : (s.setReg i v).reg j = s.reg j := by
  simp [reg_setReg, h]

/-- Two writes of different registers may be exchanged. -/
theorem setReg_comm (s : State) {i j : Reg} (h : i ≠ j) (v w : Sample) :
    (s.setReg i v).setReg j w = (s.setReg j w).setReg i v := by
  simp only [State.setReg]
  congr 1
  exact Vector.set_comm _ _ (by simpa [Fin.ext_iff] using h)

@[simp] theorem reg_memWrite (s : State) (b : Nat) (vs : List Sample) (i : Reg) : (s.memWrite b vs).reg i = s.reg i := rfl
@[simp] theorem reg_respond (s : State) (r : Response) (i : Reg) : (s.respond r).reg i = s.reg i := rfl
@[simp] theorem reg_respondOk (s : State) (i : Reg) : s.respondOk.reg i = s.reg i := rfl
@[simp] theorem reg_raiseError (s : State) (e : Response) (i : Reg) : (s.raiseError e).reg i = s.reg i := rfl
@[simp] theorem reg_answer (s : State) (a : Answer) (i : Reg) : (s.answer a).reg i = s.reg i := rfl
@[simp] theorem word_setReg (s : State) (i : Reg) (v : Sample) (a : Nat) : (s.setReg i v).word a = s.word a := rfl
@[simp] theorem word_respond (s : State) (r : Response) (a : Nat) : (s.respond r).word a = s.word a := rfl
@[simp] theorem word_respondOk (s : State) (a : Nat) : s.respondOk.word a = s.word a := rfl
@[simp] theorem word_raiseError (s : State) (e : Response) (a : Nat) : (s.raiseError e).word a = s.word a := rfl
@[simp] theorem word_answer (s : State) (x : Answer) (a : Nat) : (s.answer x).word a = s.word a := rfl

end Sys2Proof.Machine
end

