-- ==== Sys2Proof/Laws/Command.lean ====
section
/-! SUPPORT. What a command can do, said once: it always answers a next state, by the error effects of the first check that
fails or by its writes and the success effects (10_state.md R28, 60_exceptions.md R215, R216, R218). -/

namespace Sys2Proof.Machine

/-- A command ends in one of two ways. -/
theorem command_cases (checks : List Check) (effect : State → State) (s : State) :
    (firstFailure checks = none ∧ command checks effect s = .next (effect s).respondOk) ∨
      ∃ e, firstFailure checks = some e ∧ command checks effect s = .next (s.raiseError e) := by
  unfold command
  cases h : firstFailure checks with
  | none => exact .inl ⟨rfl, rfl⟩
  | some e => exact .inr ⟨e, rfl, rfl⟩

/-- A command always has a next state. -/
theorem command_next (checks : List Check) (effect : State → State) (s : State) : ∃ t, command checks effect s = .next t := by
  rcases command_cases checks effect s with ⟨-, h⟩ | ⟨e, -, h⟩ <;> exact ⟨_, h⟩

theorem command_of_pass {checks : List Check} (effect : State → State) (s : State) (h : firstFailure checks = none) :
    command checks effect s = .next (effect s).respondOk := by simp [command, h]

theorem command_of_fail {checks : List Check} (effect : State → State) (s : State) {e : Response}
    (h : firstFailure checks = some e) : command checks effect s = .next (s.raiseError e) := by simp [command, h]

/-- All checks pass exactly when each holds. -/
theorem firstFailure_eq_none {checks : List Check} : firstFailure checks = none ↔ ∀ c ∈ checks, c.holds = true := by
  induction checks with
  | nil => simp [firstFailure]
  | cons c cs ih => by_cases h : c.holds = true <;> simp [firstFailure, h, ih]

theorem divisionChecks_pass {s : State} {len : Nat} :
    firstFailure (divisionChecks s len) = none ↔ isPow2 len = true ∧ len ≤ s.cfg.lenMax := by
  simp [firstFailure_eq_none, divisionChecks, lengthCheck, resourceCheck]

theorem twiddleChecks_pass {s : State} {k len : Nat} :
    firstFailure (twiddleChecks s k len) = none ↔ isPow2 len = true ∧ len ≤ s.cfg.lenMax ∧ k < len / 2 := by
  simp [firstFailure_eq_none, twiddleChecks, lengthCheck, resourceCheck, indexCheck]

theorem accessChecks_pass {s : State} {a : Nat} : firstFailure (accessChecks s a) = none ↔ a < s.cfg.smSize := by
  simp [firstFailure_eq_none, accessChecks, wordCheck]

theorem sequenceChecks_pass {s : State} {a b len : Nat} :
    firstFailure (sequenceChecks s a b len) = none ↔
      isPow2 len = true ∧ len ≤ s.cfg.lenMax ∧ a + len ≤ s.cfg.smSize ∧ b + len ≤ s.cfg.smSize ∧ overlap a b len = false := by
  simp [firstFailure_eq_none, sequenceChecks, lengthCheck, resourceCheck, rangeCheck, overlapCheck]

/-- No operation faults or is refused: `exec` answers a next state for every command in every state. -/
theorem exec_next (i : Instr) (s : State) : ∃ t, exec i s = .next t := by
  cases i <;>
    (simp only [exec, execNop, execCadd, execCsub, execCmul, execCdivn, execTwid, execTwmul, execBfly, execCld, execCst, execBitrev,
      execFft, execIfft]; exact command_next _ _ _)

end Sys2Proof.Machine
end

