-- ==== Sys2Proof/Laws/Memory.lean ====
section
/-! SUPPORT. Sample memory: a read after a write, and that every memory operation keeps the canonical form. -/

namespace Sys2Proof.Machine

theorem get_append (m m' : Memory) (a : Nat) : Memory.get (m ++ m') a = (Memory.get m a).or (Memory.get m' a) := by
  induction m with
  | nil => simp [Memory.get]
  | cons p m ih =>
    simp only [List.cons_append, Memory.get]
    split <;> simp [ih]

theorem get_filter_of_true (m : Memory) (q : Nat → Bool) {a : Nat} (h : q a = true) :
    Memory.get (m.filter fun p => q p.1) a = Memory.get m a := by
  induction m with
  | nil => rfl
  | cons p m ih =>
    obtain ⟨b, v⟩ := p
    by_cases hb : b = a
    · subst hb; simp [h, Memory.get]
    · by_cases hq : q b = true <;> simp [hq, Memory.get, hb, ih]

theorem get_filter_of_false (m : Memory) (q : Nat → Bool) {a : Nat} (h : q a = false) :
    Memory.get (m.filter fun p => q p.1) a = none := by
  induction m with
  | nil => rfl
  | cons p m ih =>
    obtain ⟨b, v⟩ := p
    by_cases hb : b = a
    · subst hb; simp [h, ih]
    · by_cases hq : q b = true <;> simp [hq, Memory.get, hb, ih]

theorem get_cellsFrom (vs : List Sample) (b a : Nat) :
    Memory.get (cellsFrom b vs) a = if b ≤ a then vs[a - b]? else none := by
  induction vs generalizing b with
  | nil => simp [cellsFrom, Memory.get]
  | cons v vs ih =>
    simp only [cellsFrom, Memory.get, ih]
    by_cases h : b = a
    · subst h; simp
    · by_cases hb : b ≤ a
      · rw [if_neg h, if_pos (by omega), if_pos hb, show a - b = (a - (b + 1)) + 1 by omega, List.getElem?_cons_succ]
      · rw [if_neg h, if_neg (by omega), if_neg hb]

/-- What memory holds at an address after a write: the written word inside the range, the old one outside it. -/
theorem get_put (m : Memory) (b : Nat) (vs : List Sample) (a : Nat) :
    (m.put b vs).get a = if b ≤ a ∧ a < b + vs.length then vs[a - b]? else m.get a := by
  unfold Memory.put
  rw [get_append, get_append, get_cellsFrom]
  by_cases h1 : a < b
  · rw [get_filter_of_true m (fun x => decide (x < b)) (by simpa using h1),
      get_filter_of_false m (fun x => decide (b + vs.length ≤ x)) (by simp; omega), if_neg (by omega), if_neg (by omega)]
    simp
  · rw [get_filter_of_false m (fun x => decide (x < b)) (by simpa using h1), if_pos (by omega)]
    by_cases h2 : a < b + vs.length
    · rw [get_filter_of_false m (fun x => decide (b + vs.length ≤ x)) (by simp; omega), if_pos ⟨by omega, h2⟩]
      simp
    · rw [get_filter_of_true m (fun x => decide (b + vs.length ≤ x)) (by simp; omega), if_neg (by omega),
        List.getElem?_eq_none (by omega)]
      simp

theorem mem_cellsFrom {p : Nat × Sample} {b : Nat} {vs : List Sample} (h : p ∈ cellsFrom b vs) :
    b ≤ p.1 ∧ p.1 < b + vs.length := by
  induction vs generalizing b with
  | nil => simp [cellsFrom] at h
  | cons v vs ih =>
    simp only [cellsFrom, List.mem_cons] at h
    rcases h with rfl | h
    · simp
    · have := ih h
      simp only [List.length_cons]
      omega

theorem cellsFrom_rising (b : Nat) (vs : List Sample) : Memory.wf (cellsFrom b vs) := by
  induction vs generalizing b with
  | nil => exact List.Pairwise.nil
  | cons v vs ih =>
    simp only [Memory.wf, cellsFrom, List.map_cons, List.pairwise_cons, List.mem_map]
    refine ⟨?_, ih (b + 1)⟩
    rintro a ⟨p, hp, rfl⟩
    have := mem_cellsFrom hp
    omega

/-- A write keeps the canonical form. -/
theorem put_wf {m : Memory} (h : m.wf) (b : Nat) (vs : List Sample) : (m.put b vs).wf := by
  have hf : ∀ q : Nat × Sample → Bool, Memory.wf (m.filter q) := fun q =>
    List.Pairwise.sublist (List.Sublist.map _ List.filter_sublist) h
  unfold Memory.put Memory.wf
  rw [List.map_append, List.map_append, List.pairwise_append, List.pairwise_append]
  refine ⟨⟨hf _, cellsFrom_rising b vs, ?_⟩, hf _, ?_⟩
  · simp only [List.mem_map, List.mem_filter, decide_eq_true_eq]
    rintro a ⟨p, ⟨-, hp⟩, rfl⟩ c ⟨q, hq, rfl⟩
    have := mem_cellsFrom hq
    omega
  · simp only [List.mem_append, List.mem_map, List.mem_filter, decide_eq_true_eq]
    rintro a (⟨p, ⟨-, hp⟩, rfl⟩ | ⟨p, hp, rfl⟩) c ⟨q, ⟨-, hq⟩, rfl⟩
    · omega
    · have := mem_cellsFrom hp
      omega

/-- The memory after reset has the canonical form. -/
theorem reset_wf : State.reset.sm.wf := by decide

/-- A write keeps the canonical form, said of the state. -/
theorem memWrite_wf {s : State} (h : s.sm.wf) (b : Nat) (vs : List Sample) : (s.memWrite b vs).sm.wf := put_wf h b vs

/-- A write adds only addresses of its own range. -/
theorem mem_put {m : Memory} {b : Nat} {vs : List Sample} {p : Nat × Sample} (h : p ∈ m.put b vs) :
    p ∈ m ∨ (b ≤ p.1 ∧ p.1 < b + vs.length) := by
  simp only [Memory.put, List.mem_append, List.mem_filter] at h
  rcases h with (⟨h, -⟩ | h) | ⟨h, -⟩
  · exact .inl h
  · exact .inr (mem_cellsFrom h)
  · exact .inl h

/-- `SM[a]` after a write of the words `vs` at `b` (20_memory.md R61b). -/
theorem word_memWrite (s : State) (b : Nat) (vs : List Sample) (a : Nat) :
    (s.memWrite b vs).word a = if b ≤ a ∧ a < b + vs.length then (vs[a - b]?).getD default else s.word a := by
  simp only [State.word, State.memWrite, get_put]
  split
  · next h => rw [List.getElem?_eq_getElem (by omega)]; simp
  · rfl

theorem word_memWrite_outside (s : State) {b : Nat} {vs : List Sample} {a : Nat} (h : ¬(b ≤ a ∧ a < b + vs.length)) :
    (s.memWrite b vs).word a = s.word a := by rw [word_memWrite, if_neg h]

@[simp] theorem memRead_length (s : State) (a n : Nat) : (s.memRead a n).length = n := by simp [State.memRead]

theorem memRead_getElem? (s : State) (a : Nat) {n i : Nat} (h : i < n) : (s.memRead a n)[i]? = some (s.word (a + i)) := by
  simp [State.memRead, h]

end Sys2Proof.Machine
end

