-- ==== Sys2Proof/Laws/PerInstr.lean ====
section
/-! SUPPORT. The family `MatchesTable`: the encoding of a command lies in that command's own row of spec/opcode_table.json,
`D & mask = match`. -/

namespace Sys2Proof.Laws

/-- Ten fields laid out by R71. -/
def layout (op : BitVec 8) (rd rd2 ra rb : BitVec 4) (rsv : BitVec 7) (dir : BitVec 1) (a b len : Word32) : Word :=
  op ++ rd ++ rd2 ++ ra ++ rb ++ rsv ++ dir ++ a ++ b ++ len

theorem layout_and (op op' : BitVec 8) (rd rd' rd2 rd2' ra ra' rb rb' : BitVec 4) (rsv rsv' : BitVec 7) (dir dir' : BitVec 1)
    (a a' b b' len len' : Word32) :
    layout op rd rd2 ra rb rsv dir a b len &&& layout op' rd' rd2' ra' rb' rsv' dir' a' b' len' =
      layout (op &&& op') (rd &&& rd') (rd2 &&& rd2') (ra &&& ra') (rb &&& rb') (rsv &&& rsv') (dir &&& dir') (a &&& a')
        (b &&& b') (len &&& len') := by
  show ((op ++ rd ++ rd2 ++ ra ++ rb ++ rsv ++ dir ++ a ++ b ++ len : BitVec (8 + 4 + 4 + 4 + 4 + 7 + 1 + 32 + 32 + 32)) &&&
    (op' ++ rd' ++ rd2' ++ ra' ++ rb' ++ rsv' ++ dir' ++ a' ++ b' ++ len' : BitVec (8 + 4 + 4 + 4 + 4 + 7 + 1 + 32 + 32 + 32))) = _
  simp only [BitVec.and_append]
  rfl

theorem and_zero_mask {w : Nat} (x : BitVec w) : x &&& BitVec.ofNat w 0 = BitVec.ofNat w 0 := BitVec.and_zero

/-- A command and its row of the table. -/
def MatchesTable.Statement (i : Instr) : Prop := encode i &&& (tableRow i).mask = (tableRow i).pattern

theorem MatchesTable.nop : MatchesTable.Statement .nop := by
  unfold MatchesTable.Statement
  decide

theorem MatchesTable.cadd (rd ra rb : Reg) : MatchesTable.Statement (.cadd rd ra rb) := by
  refine (layout_and _ 0xFF#8 _ 0x0#4 _ 0xF#4 _ 0x0#4 _ 0x0#4 _ 0x7F#7 _ 0x1#1 _ 0xFFFFFFFF#32 _
    0xFFFFFFFF#32 _ 0xFFFFFFFF#32).trans ?_
  simp only [and_zero_mask]
  rfl

theorem MatchesTable.csub (rd ra rb : Reg) : MatchesTable.Statement (.csub rd ra rb) := by
  refine (layout_and _ 0xFF#8 _ 0x0#4 _ 0xF#4 _ 0x0#4 _ 0x0#4 _ 0x7F#7 _ 0x1#1 _ 0xFFFFFFFF#32 _
    0xFFFFFFFF#32 _ 0xFFFFFFFF#32).trans ?_
  simp only [and_zero_mask]
  rfl

theorem MatchesTable.cmul (rd ra rb : Reg) : MatchesTable.Statement (.cmul rd ra rb) := by
  refine (layout_and _ 0xFF#8 _ 0x0#4 _ 0xF#4 _ 0x0#4 _ 0x0#4 _ 0x7F#7 _ 0x1#1 _ 0xFFFFFFFF#32 _
    0xFFFFFFFF#32 _ 0xFFFFFFFF#32).trans ?_
  simp only [and_zero_mask]
  rfl

theorem MatchesTable.cdivn (rd ra : Reg) (len : Word32) : MatchesTable.Statement (.cdivn rd ra len) := by
  refine (layout_and _ 0xFF#8 _ 0x0#4 _ 0xF#4 _ 0x0#4 _ 0xF#4 _ 0x7F#7 _ 0x1#1 _ 0xFFFFFFFF#32 _
    0xFFFFFFFF#32 _ 0x0#32).trans ?_
  simp only [and_zero_mask]
  rfl

theorem MatchesTable.twid (rd : Reg) (dir : Dir) (k len : Word32) : MatchesTable.Statement (.twid rd dir k len) := by
  refine (layout_and _ 0xFF#8 _ 0x0#4 _ 0xF#4 _ 0xF#4 _ 0xF#4 _ 0x7F#7 _ 0x0#1 _ 0x0#32 _
    0xFFFFFFFF#32 _ 0x0#32).trans ?_
  simp only [and_zero_mask]
  rfl

theorem MatchesTable.twmul (rd ra : Reg) (dir : Dir) (k len : Word32) : MatchesTable.Statement (.twmul rd ra dir k len) := by
  refine (layout_and _ 0xFF#8 _ 0x0#4 _ 0xF#4 _ 0x0#4 _ 0xF#4 _ 0x7F#7 _ 0x0#1 _ 0x0#32 _
    0xFFFFFFFF#32 _ 0x0#32).trans ?_
  simp only [and_zero_mask]
  rfl

theorem MatchesTable.bfly (rd rd2 ra rb : Reg) (dir : Dir) (k len : Word32) : MatchesTable.Statement (.bfly rd rd2 ra rb dir k len) := by
  refine (layout_and _ 0xFF#8 _ 0x0#4 _ 0x0#4 _ 0x0#4 _ 0x0#4 _ 0x7F#7 _ 0x0#1 _ 0x0#32 _
    0xFFFFFFFF#32 _ 0x0#32).trans ?_
  simp only [and_zero_mask]
  rfl

theorem MatchesTable.cld (rd : Reg) (a : Word32) : MatchesTable.Statement (.cld rd a) := by
  refine (layout_and _ 0xFF#8 _ 0x0#4 _ 0xF#4 _ 0xF#4 _ 0xF#4 _ 0x7F#7 _ 0x1#1 _ 0x0#32 _
    0xFFFFFFFF#32 _ 0xFFFFFFFF#32).trans ?_
  simp only [and_zero_mask]
  rfl

theorem MatchesTable.cst (ra : Reg) (a : Word32) : MatchesTable.Statement (.cst ra a) := by
  refine (layout_and _ 0xFF#8 _ 0xF#4 _ 0xF#4 _ 0x0#4 _ 0xF#4 _ 0x7F#7 _ 0x1#1 _ 0x0#32 _
    0xFFFFFFFF#32 _ 0xFFFFFFFF#32).trans ?_
  simp only [and_zero_mask]
  rfl

theorem MatchesTable.bitrev (a b len : Word32) : MatchesTable.Statement (.bitrev a b len) := by
  refine (layout_and _ 0xFF#8 _ 0xF#4 _ 0xF#4 _ 0xF#4 _ 0xF#4 _ 0x7F#7 _ 0x1#1 _ 0x0#32 _
    0x0#32 _ 0x0#32).trans ?_
  simp only [and_zero_mask]
  rfl

theorem MatchesTable.fft (a b len : Word32) : MatchesTable.Statement (.fft a b len) := by
  refine (layout_and _ 0xFF#8 _ 0xF#4 _ 0xF#4 _ 0xF#4 _ 0xF#4 _ 0x7F#7 _ 0x1#1 _ 0x0#32 _
    0x0#32 _ 0x0#32).trans ?_
  simp only [and_zero_mask]
  rfl

theorem MatchesTable.ifft (a b len : Word32) : MatchesTable.Statement (.ifft a b len) := by
  refine (layout_and _ 0xFF#8 _ 0xF#4 _ 0xF#4 _ 0xF#4 _ 0xF#4 _ 0x7F#7 _ 0x1#1 _ 0x0#32 _
    0x0#32 _ 0x0#32).trans ?_
  simp only [and_zero_mask]
  rfl

end Sys2Proof.Laws
end

