-- ==== Sys2Proof/Laws/Responses.lean ====
section
/-! SUPPORT. The end of a command, said once: what `respond` does to the two status registers, and when the success and the error
effects of 60_exceptions.md R215, R216 hold. -/

namespace Sys2Proof.Machine

@[simp] theorem lastField_withLast (v : BitVec 32) (c : BitVec 4) : lastField (withLast v c) = c := by
  apply BitVec.eq_of_getElem_eq
  intro i hi
  have := BitVec.getLsbD_append (x := v.extractLsb' 4 28) (y := c) (i := i)
  rw [if_pos hi] at this
  rw [lastField, withLast, BitVec.getElem_extractLsb', Nat.zero_add]
  exact this.trans (BitVec.getLsbD_eq_getElem hi)

@[simp] theorem reserved_withLast (v : BitVec 32) (c : BitVec 4) :
    (withLast v c).extractLsb' 4 28 = v.extractLsb' 4 28 := by
  apply BitVec.eq_of_getElem_eq
  intro i hi
  have := BitVec.getLsbD_append (x := v.extractLsb' 4 28) (y := c) (i := 4 + i)
  rw [if_neg (by omega), Nat.add_sub_cancel_left, BitVec.getLsbD_eq_getElem hi] at this
  rw [withLast, BitVec.getElem_extractLsb']
  exact this

/-- The bit an error sets is the bit its code numbers. -/
theorem withFlag_eq (v : BitVec 32) {r : Response} (h : r ≠ .ok) : withFlag v r = v ||| 1#32 <<< r.code.toNat := by
  cases r <;> first | exact absurd rfl h | rfl

theorem responded_respond (s : State) (r : Response) : Responded r s (s.respond r) := by
  constructor <;> simp

theorem failed_raiseError (s : State) {e : Response} (h : e ≠ .ok) : Failed e s (s.raiseError e) :=
  ⟨h, responded_respond s e, withFlag_eq s.errflags h, fun _ _ => rfl, fun _ => rfl⟩

/-- An effect that touches only registers and sample memory ends in the success effects. -/
theorem succeeded_respondOk {s u : State} (h₁ : u.status = s.status) (h₂ : u.errflags = s.errflags)
    (h₃ : u.answers = s.answers) (h₄ : u.cfg = s.cfg) (h₅ : u.inbox = s.inbox) (h₆ : u.smDraw = s.smDraw)
    (h₇ : u.serial = s.serial) : Succeeded s u.respondOk := by
  refine ⟨⟨?_, ?_, ?_, ?_, ?_, ?_, ?_⟩, ?_⟩ <;> simp [*, Response.code]

theorem succeeded_setReg (s : State) (i : Reg) (v : Sample) : Succeeded s (s.setReg i v).respondOk :=
  succeeded_respondOk rfl rfl rfl rfl rfl rfl rfl

theorem succeeded_memWrite (s : State) (b : Nat) (vs : List Sample) : Succeeded s (s.memWrite b vs).respondOk :=
  succeeded_respondOk rfl rfl rfl rfl rfl rfl rfl

theorem regsKeptBut_setReg (s : State) (i : Reg) (v : Sample) : RegsKeptBut [i] s (s.setReg i v).respondOk := by
  intro r hr
  exact reg_setReg_ne s (by rintro rfl; simp at hr) v

theorem wordsKeptOutside_memWrite (s : State) (b : Nat) (vs : List Sample) :
    WordsKeptOutside b vs.length s (s.memWrite b vs).respondOk := fun _ h => word_memWrite_outside s h

end Sys2Proof.Machine
end

