-- ==== Sys2Proof/Laws/Sequences.lean ====
section
/-! SUPPORT. The sequences of the transform engine: lengths, and elements of the split (45_transform_engine.md R166). -/

namespace Sys2Proof.Machine

variable {R : Type}

@[simp] theorem bitrev_length {α : Type} [Inhabited α] (n : Nat) (x : List α) : (bitrev n x).length = 2 ^ n := by
  simp [bitrev]

@[simp] theorem evens_length {α : Type} (x : List α) : (evens x).length = (x.length + 1) / 2 := by
  induction x using evens.induct with
  | case1 => simp [evens]
  | case2 a => simp [evens]
  | case3 a b t ih => simp [evens, ih]; omega

@[simp] theorem odds_length {α : Type} (x : List α) : (odds x).length = x.length / 2 := by
  induction x using odds.induct with
  | case1 => simp [odds]
  | case2 a => simp [odds]
  | case3 a b t ih => simp [odds, ih]; omega

@[simp] theorem combine_length (num : Numerics R) (d : Draw) (dir : Dir) (N : Nat) (E O : List (Cx R)) :
    (combine num d dir N E O).length = 2 * min E.length O.length := by
  simp [combine]; omega

/-- A transform has the length of its input (R172). -/
theorem xform_length (num : Numerics R) (d : Draw) (dir : Dir) (n : Nat) (x : List (Cx R)) (h : x.length = 2 ^ n) :
    (xform num d dir n x).length = 2 ^ n := by
  induction n generalizing d x with
  | zero => simpa [xform] using h
  | succ n ih =>
    rw [pow_succ] at h
    rw [xform, combine_length, ih _ _ (by simp; omega), ih _ _ (by simp; omega), pow_succ]
    omega

theorem fft_length (num : Numerics R) (d : Draw) (n : Nat) (x : List (Cx R)) (h : x.length = 2 ^ n) :
    (fft num d n x).length = 2 ^ n := xform_length num d .forward n x h

theorem ifft_length (num : Numerics R) (d : Draw) (n : Nat) (X : List (Cx R)) (h : X.length = 2 ^ n) :
    (ifft num d n X).length = 2 ^ n := by
  rw [ifft, List.length_mapIdx, xform_length num _ _ n X h]

end Sys2Proof.Machine
end

