-- ==== Sys2Proof/Machine/Assembler.lean ====
section
/-! DEFINITION. The text form of a command (30_encoding.md R82): destination first, addresses in square brackets, the direction
as `F` or `I`.  There are no pseudo-instructions (R83): one text is one command. -/

namespace Sys2Proof.Machine

/-- `c0` to `c15`. -/
def regText (r : Reg) : String := "c" ++ toString r.val

/-- An integer operand, decimal. -/
def intText (v : Word32) : String := toString v.toNat

/-- An address operand. -/
def addrText (v : Word32) : String := "[" ++ intText v ++ "]"

/-- `F` forward, `I` inverse. -/
def dirText : Dir → String
  | .forward => "F"
  | .inverse => "I"

/-- A mnemonic and its operands, separated by commas. -/
def operation (mnemonic : String) (operands : List String) : String :=
  mnemonic ++ " " ++ ", ".intercalate operands

/-- The text of a command (R82). -/
def asmText : Instr → String
  | .nop => "NOP"
  | .cadd rd ra rb => operation "CADD" [regText rd, regText ra, regText rb]
  | .csub rd ra rb => operation "CSUB" [regText rd, regText ra, regText rb]
  | .cmul rd ra rb => operation "CMUL" [regText rd, regText ra, regText rb]
  | .cdivn rd ra len => operation "CDIVN" [regText rd, regText ra, intText len]
  | .twid rd dir k len => operation "TWID" [regText rd, intText k, intText len, dirText dir]
  | .twmul rd ra dir k len => operation "TWMUL" [regText rd, regText ra, intText k, intText len, dirText dir]
  | .bfly rd rd2 ra rb dir k len =>
    operation "BFLY" [regText rd, regText rd2, regText ra, regText rb, intText k, intText len, dirText dir]
  | .cld rd a => operation "CLD" [regText rd, addrText a]
  | .cst ra a => operation "CST" [regText ra, addrText a]
  | .bitrev a b len => operation "BITREV" [addrText b, addrText a, intText len]
  | .fft a b len => operation "FFT" [addrText b, addrText a, intText len]
  | .ifft a b len => operation "IFFT" [addrText b, addrText a, intText len]

end Sys2Proof.Machine
end

