-- ==== Sys2Proof/Tests/Slice0.lean ====
section
/-! SUPPORT. Tests of the model and witnesses for the hypotheses of the statements.  Every expected value is the spec's: a vector
of 95_test_vectors.md (its id is named) or a worked example of a rule. -/

namespace Sys2Proof.Tests

open Sys2Proof.Machine

/-- A state after reset with some registers and some words of sample memory written. -/
def start (regs : List (Reg × Sample)) (sm : Memory) : State :=
  regs.foldl (fun s r => s.setReg r.1 r.2) { State.reset with sm := sm }

/-- The next state of an outcome. -/
def next (o : Outcome) : Option State :=
  match o with
  | .next t => some t
  | .fault _ => none
  | .refused _ => none

/-- A register after one command. -/
def regAfter (i : Instr) (s : State) (r : Reg) : Option Sample := (next (exec i s)).map fun t => t.reg r

/-- The words listed in memory after one command. -/
def smAfter (i : Instr) (s : State) : Option Memory := (next (exec i s)).map fun t => t.sm

/-- `STATUS` and `ERRFLAGS` after one descriptor. -/
def statusAfter (D : Word) (s : State) : Option (BitVec 32 × BitVec 32) :=
  (next (issue D s)).map fun t => (t.status, t.errflags)

/-! ## Well-formedness: BFLY with `rd = rd2` is refused (R80c) -/

theorem test_wellFormed_refuses_same_destination : ¬WellFormed (.bfly 3 3 0 1 .forward 0 2) := by decide

theorem test_wellFormed_accepts_in_place : WellFormed (.bfly 0 1 0 1 .forward 0 2) := by decide

/-! ## Decoding (95_test_vectors.md 2.1) -/

theorem test_decode_register_ops :
    decode 0x01200100_00000000_00000000_00000000#128 = .ok (.cadd 2 0 1) ∧
    decode 0x02300100_00000000_00000000_00000000#128 = .ok (.csub 3 0 1) ∧
    decode 0x03F0ED00_00000000_00000000_00000000#128 = .ok (.cmul 15 14 13) ∧
    decode 0x04504000_00000000_00000000_00000004#128 = .ok (.cdivn 5 4 4) ∧
    decode 0x00000000_00000000_00000000_00000000#128 = .ok .nop := by decide

theorem test_decode_twiddle_ops :
    decode 0x08400001_00000003_00000000_00000010#128 = .ok (.twid 4 .inverse 3 16) ∧
    decode 0x09501000_00000001_00000000_00000008#128 = .ok (.twmul 5 1 .forward 1 8) ∧
    decode 0x0AFEDC01_00007FFF_00000000_00010000#128 = .ok (.bfly 15 14 13 12 .inverse 32767 65536) := by decide

theorem test_decode_memory_ops :
    decode 0x10700000_0001FFFF_00000000_00000000#128 = .ok (.cld 7 131071) ∧
    decode 0x11002000_00000002_00000000_00000000#128 = .ok (.cst 2 2) ∧
    decode 0x18000000_00000000_00000010_00000010#128 = .ok (.bitrev 0 16 16) ∧
    decode 0x20000000_00000000_00010000_00010000#128 = .ok (.fft 0 65536 65536) ∧
    decode 0x20000001_00010000_00000000_00010000#128 = .ok (.ifft 65536 0 65536) := by decide

theorem test_decode_worked_encodings : ∀ row ∈ workedEncodings, decode row.1 = .ok row.2 ∧ encode row.2 = row.1 := by decide

/-- V-I1, V-I2, V-I4 to V-I8, and BFLY with one destination. -/
theorem test_decode_illegal :
    decode 0x05000000_00000000_00000000_00000000#128 = .error .unknownOpcode ∧
    decode 0xFFFFFFFF_FFFFFFFF_FFFFFFFF_FFFFFFFF#128 = .error .unknownOpcode ∧
    decode 0x00000000_00000000_00000000_00000001#128 = .error .unusedFieldNotZero ∧
    decode 0x00000002_00000000_00000000_00000000#128 = .error .unusedFieldNotZero ∧
    decode 0x01230100_00000000_00000000_00000000#128 = .error .unusedFieldNotZero ∧
    decode 0x01200101_00000000_00000000_00000000#128 = .error .unusedFieldNotZero ∧
    decode 0x03200100_00000001_00000000_00000000#128 = .error .unusedFieldNotZero ∧
    decode 0x0A220100_00000000_00000000_00000002#128 = .error .sameDestination := by decide

theorem test_decodeTableWord : decodeTableWord 128 0x01200100000000000000000000000000 = some (.cadd 2 0 1) := by decide

theorem test_asm_destination_first : asmText (.bitrev 0 8 8) = "BITREV [8], [0], 8" := by decide +kernel

/-! ## Register operations (95_test_vectors.md 2.2, 2.5) -/

def c12 : Sample := ⟨0x3FF0000000000000#64, 0x4000000000000000#64⟩
def c3m4 : Sample := ⟨0x4008000000000000#64, 0xC010000000000000#64⟩
def two : State := start [(0, c12), (1, c3m4)] []

/-- R132: `LAST` is the only effect. -/
theorem test_nop : next (exec .nop { two with status := 5#32, errflags := 0x20#32 }) =
    some { two with status := 0#32, errflags := 0x20#32, serial := 1, answers := [.response .ok] } := by decide

/-- V-A1 -/
theorem test_cadd : regAfter (.cadd 2 0 1) two 2 = some ⟨0x4010000000000000#64, 0xC000000000000000#64⟩ := by decide +kernel

/-- V-A5, with the destination one of the sources -/
theorem test_cadd_rounds :
    regAfter (.cadd 1 0 1) (start [(0, ⟨0x3FB999999999999A#64, 0x3FC999999999999A#64⟩),
      (1, ⟨0x3FC999999999999A#64, 0x3FB999999999999A#64⟩)] []) 1 =
      some ⟨0x3FD3333333333334#64, 0x3FD3333333333334#64⟩ := by decide +kernel

/-- V-A6: the operand order matters -/
theorem test_csub : regAfter (.csub 2 0 1) two 2 = some ⟨0xC000000000000000#64, 0x4018000000000000#64⟩ := by decide +kernel

/-- V-A8: `inf - inf` is a NaN in `re` only; its other bits are free -/
theorem test_csub_inf :
    (regAfter (.csub 2 0 1) (start [(0, ⟨0x7FF0000000000000#64, posZero⟩), (1, ⟨0x7FF0000000000000#64, posZero⟩)] []) 2).map
      (fun z => z.im) = some posZero := by decide +kernel

/-- V-A10 -/
theorem test_cmul : regAfter (.cmul 2 0 1) two 2 = some ⟨0x4026000000000000#64, 0x4000000000000000#64⟩ := by decide +kernel

/-- V-A12: four products, each rounded -/
theorem test_cmul_rounds :
    regAfter (.cmul 2 0 1) (start [(0, ⟨0x3FB999999999999A#64, 0x3FC999999999999A#64⟩),
      (1, ⟨0x3FD3333333333333#64, 0x3FD999999999999A#64⟩)] []) 2 =
      some ⟨0xBFA999999999999C#64, 0x3FB999999999999A#64⟩ := by decide +kernel

/-- R136: `(11, 2) / 4 = (2.75, 0.5)` -/
theorem test_cdivn : regAfter (.cdivn 5 4 4) (start [(4, ⟨0x4026000000000000#64, 0x4000000000000000#64⟩)] []) 5 =
    some ⟨0x4006000000000000#64, 0x3FE0000000000000#64⟩ := by decide +kernel

/-- R136: a subnormal quotient rounds to nearest even, `3u / 2 = 2u` -/
theorem test_cdivn_subnormal : regAfter (.cdivn 0 0 2) (start [(0, ⟨3#64, 0x8000000000000000#64⟩)] []) 0 =
    some ⟨2#64, 0x8000000000000000#64⟩ := by decide +kernel

/-- V-T5 -/
theorem test_twid : regAfter (.twid 4 .inverse 1 8) State.reset 4 =
    some ⟨0x3FE6A09E667F3BCD#64, 0x3FE6A09E667F3BCC#64⟩ := by decide +kernel

/-- V-T7, a fraction at the end of the greatest length -/
theorem test_twid_long : regAfter (.twid 4 .forward 32767 65536) State.reset 4 =
    some ⟨0xBFEFFFFFFD885867#64, 0xBF1921FB539EC565#64⟩ := by decide +kernel

/-- The table of 95_test_vectors.md 2.3: `N`, `k`, `θ`, and the forward factor.  The other rows are equal fractions of these. -/
def referenceRows : List (Nat × Nat × F × Sample) :=
  [ (2, 0, 0x8000000000000000#64, ⟨0x3FF0000000000000#64, 0x8000000000000000#64⟩),
    (4, 1, 0xBFF921FB54442D18#64, ⟨0x3C91A62633145C07#64, 0xBFF0000000000000#64⟩),
    (8, 1, 0xBFE921FB54442D18#64, ⟨0x3FE6A09E667F3BCD#64, 0xBFE6A09E667F3BCC#64⟩),
    (8, 3, 0xC002D97C7F3321D2#64, ⟨0xBFE6A09E667F3BCC#64, 0xBFE6A09E667F3BCD#64⟩),
    (16, 1, 0xBFD921FB54442D18#64, ⟨0x3FED906BCF328D46#64, 0xBFD87DE2A6AEA963#64⟩),
    (16, 3, 0xBFF2D97C7F3321D2#64, ⟨0x3FD87DE2A6AEA964#64, 0xBFED906BCF328D46#64⟩),
    (16, 5, 0xBFFF6A7A2955385E#64, ⟨0xBFD87DE2A6AEA962#64, 0xBFED906BCF328D46#64⟩),
    (16, 7, 0xC005FDBBE9BBA775#64, ⟨0xBFED906BCF328D46#64, 0xBFD87DE2A6AEA965#64⟩) ] ++
  [ (32, 2, 0xBFD921FB54442D18#64, ⟨0x3FED906BCF328D46#64, 0xBFD87DE2A6AEA963#64⟩),
    (32, 9, 0xBFFC463ABECCB2BB#64, ⟨0xBFC8F8B83C69A608#64, 0xBFEF6297CFF75CB0#64⟩),
    (32, 11, 0xC001475CC9EEDF00#64, ⟨0xBFE1C73B39AE68C6#64, 0xBFEA9B66290EA1A5#64⟩),
    (32, 15, 0xC0078FDB9EFFEA46#64, ⟨0xBFEF6297CFF75CB0#64, 0xBFC8F8B83C69A617#64⟩),
    (1024, 255, 0xBFF908D958EFE8EB#64, ⟨0x3F7921F0FE67009F#64, 0xBFEFFFD8858E8A92#64⟩),
    (1024, 511, 0xC009156A569A0B01#64, ⟨0xBFEFFFD8858E8A92#64, 0xBF7921F0FE6701E6#64⟩),
    (65536, 1, 0xBF1921FB54442D18#64, ⟨0x3FEFFFFFFD885867#64, 0xBF1921FB539ECF31#64⟩),
    (65536, 16383, 0xBFF92196CC56DC07#64, ⟨0x3F1921FB539EF3BF#64, 0xBFEFFFFFFD885867#64⟩) ]

/-- R118 against the table, the angle and the factor, both directions. -/
theorem test_reference_table : ∀ row ∈ referenceRows,
    refAngle .forward row.2.1 row.1 = row.2.2.1 ∧ twiddle .reference .forward row.2.1 row.1 = row.2.2.2 ∧
    twiddle .reference .inverse row.2.1 row.1 = { row.2.2.2 with im := fneg row.2.2.2.im } := by decide +kernel

/-- V-T15 -/
theorem test_twmul : regAfter (.twmul 5 1 .forward 1 8) (start [(1, ⟨one, one⟩)] []) 5 =
    some ⟨0x3FF6A09E667F3BCC#64, 0x3CA0000000000000#64⟩ := by decide +kernel

/-- V-T19: the destination is the source -/
theorem test_twmul_in_place :
    regAfter (.twmul 1 1 .forward 1 4) (start [(1, ⟨0x4008000000000000#64, 0x4010000000000000#64⟩)] []) 1 =
      some ⟨0x4010000000000000#64, 0xC007FFFFFFFFFFFF#64⟩ := by decide +kernel

/-- V-T28: both destinations are sources, exchanged -/
theorem test_bfly_in_place :
    (next (exec (.bfly 1 0 0 1 .forward 0 2) two)).map (fun t => (t.reg 1, t.reg 0)) =
      some (⟨0x4010000000000000#64, 0xC000000000000000#64⟩, ⟨0xC000000000000000#64, 0x4018000000000000#64⟩) := by decide +kernel

/-- V-T25 -/
theorem test_bfly :
    (next (exec (.bfly 2 3 0 1 .forward 1 8) (start [(0, ⟨0x4000000000000000#64, 0xC008000000000000#64⟩), (1, ⟨one, one⟩)]
      []))).map (fun t => (t.reg 2, t.reg 3)) =
      some (⟨0x400B504F333F9DE6#64, 0xC008000000000000#64⟩, ⟨0x3FE2BEC333018868#64, 0xC008000000000000#64⟩) := by decide +kernel

/-! ## Memory operations (95_test_vectors.md 2.6 to 2.8) -/

/-- V-M1, from the 128-bit word of the vector -/
theorem test_cld : regAfter (.cld 0 16) (start [] [(16, ofWord 0x4000000000000000_3FF0000000000000#128)]) 0 = some c12 := by
  decide

/-- V-M2, to the 128-bit word of the vector -/
theorem test_cst : (smAfter (.cst 2 2) (start [(2, ⟨0x4010000000000000#64, 0xC000000000000000#64⟩)] [])).map
    (fun m => m.map fun p => (p.1, toWord p.2)) = some [(2, 0xC000000000000000_4010000000000000#128)] := by decide

/-- The word `(i, 0)` as bits: a bit-exact copy does not look at them. -/
def x (i : Nat) : Sample := ⟨BitVec.ofNat 64 i, 0x7FF0000000000001#64⟩

/-- V-B1 -/
theorem test_bitrev :
    smAfter (.bitrev 0 8 8) (start [] [(0, x 0), (1, x 1), (2, x 2), (3, x 3), (4, x 4), (5, x 5), (6, x 6), (7, x 7)]) =
      some [(0, x 0), (1, x 1), (2, x 2), (3, x 3), (4, x 4), (5, x 5), (6, x 6), (7, x 7), (8, x 0), (9, x 4), (10, x 2),
        (11, x 6), (12, x 1), (13, x 5), (14, x 3), (15, x 7)] := by decide +kernel

/-- The sample with real part `v` and imaginary part zero. -/
def re (v : F) : Sample := ⟨v, posZero⟩

/-- V-X3: the first and the last bin, the last not the exact `(-2, -2)` -/
theorem test_fft :
    (next (exec (.fft 0 4 4) (start [] [(0, re 0x3FF0000000000000#64), (1, re 0x4000000000000000#64),
      (2, re 0x4008000000000000#64), (3, re 0x4010000000000000#64)]))).map (fun t => t.memRead 4 4) =
      some [re 0x4024000000000000#64, ⟨0xC000000000000000#64, 0x4000000000000000#64⟩, re 0xC000000000000000#64,
        ⟨0xBFFFFFFFFFFFFFFF#64, 0xC000000000000000#64⟩] := by decide +kernel

/-- V-X3i -/
theorem test_ifft :
    (next (exec (.ifft 4 8 4) (start [] [(4, re 0x4024000000000000#64), (5, ⟨0xC000000000000000#64, 0x4000000000000000#64⟩),
      (6, re 0xC000000000000000#64), (7, ⟨0xBFFFFFFFFFFFFFFF#64, 0xC000000000000000#64⟩)]))).map (fun t => t.memRead 8 4) =
      some [re 0x3FF0000000000000#64, ⟨0x4000000000000000#64, 0x3C5A62633145C070#64⟩, re 0x4008000000000000#64,
        ⟨0x4010000000000000#64, 0xBC5A62633145C070#64⟩] := by decide +kernel

/-! ## Errors (95_test_vectors.md 2.9) and the ports (2.10) -/

/-- V-E1, V-E6, V-E12, V-E13, V-E14, V-E16, V-E18, V-E23, V-E24, V-E25: the code, and the one flag -/
theorem test_errors_in_order :
    statusAfter 0x20000000_00000000_00000040_00000000#128 State.reset = some (2#32, 0x04#32) ∧
    statusAfter 0x20000000_00000000_00000040_00000009#128 State.reset = some (2#32, 0x04#32) ∧
    statusAfter 0x20000000_00000000_00000000_00020000#128 State.reset = some (3#32, 0x08#32) ∧
    statusAfter 0x20000000_00000000_00000040_80000000#128 State.reset = some (3#32, 0x08#32) ∧
    statusAfter 0x20000000_00000000_0001FFFE_00000004#128 State.reset = some (5#32, 0x20#32) ∧
    statusAfter 0x20000000_FFFFFFFF_00000040_00000002#128 State.reset = some (5#32, 0x20#32) ∧
    statusAfter 0x20000000_00000000_00000000_00000008#128 State.reset = some (6#32, 0x40#32) ∧
    statusAfter 0x20000000_00000000_00020000_00000006#128 State.reset = some (2#32, 0x04#32) ∧
    statusAfter 0x20000000_0001FFFE_00000004_00000008#128 State.reset = some (5#32, 0x20#32) ∧
    statusAfter 0x20000000_00020000_00020000_00000001#128 State.reset = some (5#32, 0x20#32) := by decide +kernel

/-- V-T8, V-T9 (`ERR_INDEX`), V-M5 (`ERR_ADDRESS`), V-I1 (`ERR_ILLEGAL`) -/
theorem test_other_errors :
    statusAfter (encode (.twid 4 .forward 4 8)) State.reset = some (4#32, 0x10#32) ∧
    statusAfter (encode (.twid 4 .forward 0 1)) State.reset = some (4#32, 0x10#32) ∧
    statusAfter (encode (.cld 0 131072)) State.reset = some (5#32, 0x20#32) ∧
    statusAfter 0x05000000_00000000_00000000_00000000#128 State.reset = some (1#32, 0x02#32) := by decide +kernel

/-- R31: a write clears exactly the bits it names -/
theorem test_csrWrite_clears : (csrWrite 1 0x24#32 { State.reset with errflags := 0x7E#32 }).errflags = 0x5A#32 := by decide

/-- R30, R33: a write of `STATUS` is refused -/
theorem test_csrWrite_status_refused : (csrWrite 0 0#32 { State.reset with status := 5#32 }).answers = [.herr] := by decide

/-- R35, R51: the byte at offset 8 of a word is the least significant byte of `im` -/
theorem test_busByte : busByte (start [] [(1, ⟨0x1122334455667788#64, 0x99AABBCCDDEEFF00#64⟩)]) 25 = some 0xFF#8 := by decide

/-! ## Host functions (95_test_vectors.md 2.11) -/

theorem test_toPcm : toPcm (toComplex [BitVec.ofInt 16 (-32768), BitVec.ofInt 16 (-1), 0#16, 1#16, 32767#16]) =
    ([BitVec.ofInt 16 (-32768), BitVec.ofInt 16 (-1), 0#16, 1#16, 32767#16], []) := by decide +kernel

theorem test_padLength : [1, 2, 3, 5, 8, 1000, 44100, 65537].map padLength =
    [some 1, some 2, some 4, some 8, some 8, some 1024, some 65536, some 131072] := by decide +kernel

/-- V-H3, V-H4: bin 1 of 8 at 44100 is 5512.5, and `magnitude (1, 1)` is the rounded root of 2 -/
theorem test_report : frequency ⟨0, []⟩ 1 44100 8 = 0x40B5888000000000#64 ∧
    magnitude ⟨0, []⟩ ⟨one, one⟩ = 0x3FF6A09E667F3BCD#64 := by decide +kernel

/-- The default host, with a threshold and a destination. -/
def host : HostConfig := { threshold := one, destination := ⟨7⟩ }

theorem test_host_legal : host.Legal ∧ ¬HostConfig.Legal { host with rate := 0 } := by decide

/-- R202 on one sample: the report at its destination and the reconstruction. -/
theorem test_runFrame : (runFrame host ⟨0, 1, 2⟩ [5#16] State.reset).1 =
    ⟨[.ok, .ok], some ⟨⟨7⟩, [⟨posZero, 0x4014000000000000#64, true⟩]⟩, some ⟨[5#16], []⟩, true⟩ := by decide +kernel

/-- R203: after an error of IFFT (its destination does not exist) the report stands, and `abort` ends the frame's pipeline. -/
theorem test_runFrame_ifft_error : (runFrame host ⟨0, 1, 131072⟩ [5#16] State.reset).1 =
    ⟨[.ok, .address], some ⟨⟨7⟩, [⟨posZero, 0x4014000000000000#64, true⟩]⟩, none, false⟩ := by decide +kernel

/-- R203: after an error of FFT `abort` leaves the second frame undone, `continue` does it; an empty frame ends neither. -/
theorem test_runBatch :
    ((runBatch host ⟨0, 0, 2⟩ [[], [5#16], [5#16]] State.reset).1.map fun r => r.responses) = [[], [.overlap]] ∧
    ((runBatch { host with onError := .continue } ⟨0, 0, 2⟩ [[], [5#16], [5#16]] State.reset).1.map fun r => r.responses) =
      [[], [.overlap], [.overlap]] := by decide +kernel

/-! ## Witnesses: each meets every hypothesis of the statement it is named after -/

theorem test_witness_DecodeOfEncode : WellFormed (.bfly 15 14 15 15 .inverse 0xFFFFFFFF 0xFFFFFFFF) := by decide

theorem test_witness_EncodeOfDecode : decode 0x20000001_FFFFFFFF_FFFFFFFF_FFFFFFFF#128 =
    .ok (.ifft 0xFFFFFFFF 0xFFFFFFFF 0xFFFFFFFF) := by decide

theorem test_witness_IllegalDescriptorsAnswered :
    (∃ e, decode 0x21000000_00000000_00000000_00000000#128 = .error e) ∧
    (opField 0x0A330000_00000000_00000000_00000002#128 = 0x0A#8 ∧
      rdBits 0x0A330000_00000000_00000000_00000002#128 = rd2Bits 0x0A330000_00000000_00000000_00000002#128) ∧
    (∀ row ∈ opcodeRows, 0x21000000_00000000_00000000_00000000#128 &&& row.mask ≠ row.pattern) :=
  ⟨⟨.unknownOpcode, by decide⟩, by decide, by decide⟩

theorem test_witness_StepRunsDecoded :
    State.reset.inbox = [] ∧
    (State.reset.withFetchWord 128 0).inbox = .issue 0#128 :: [] ∧ decode 0#128 = .ok .nop ∧
    decodeTableWord 128 0x10000000000000100000000000000000 = some (.cld 0 16) := by decide

theorem test_witness_NopOnlyAnswers : opField 1#128 = 0x00#8 ∧ (1#128 : Word) ≠ 0#128 := by decide

/-- CDIVN at both ends of the lengths the default build serves. -/
theorem test_witness_CdivnResult :
    ((∃ n, integer 1#32 = 2 ^ n) ∧ integer 1#32 ≤ State.reset.cfg.lenMax) ∧
    ((∃ n, integer 65536#32 = 2 ^ n) ∧ integer 65536#32 ≤ State.reset.cfg.lenMax) :=
  ⟨⟨⟨0, by decide⟩, by decide⟩, ⟨⟨16, by decide⟩, by decide⟩⟩

/-- `TwidResult`, `TwmulResult`, `BflyResult`: the last index of the shortest and of the longest length, and two destinations. -/
theorem test_witness_TwiddleReady :
    TwiddleReady State.reset 0#32 2#32 ∧ TwiddleReady State.reset 32767#32 65536#32 ∧ (0 : Reg) ≠ 1 :=
  ⟨⟨⟨1, by decide⟩, by decide, by decide⟩, ⟨⟨16, by decide⟩, by decide, by decide⟩, by decide⟩

theorem test_witness_ButterflyFromItsParts : TwiddleReady State.reset 1#32 4#32 ∧
    (2 : Reg) ≠ 0 ∧ (3 : Reg) ≠ 0 ∧ (3 : Reg) ≠ 2 ∧ (3 : Reg) ≠ 4 ∧ (5 : Reg) ≠ 1 :=
  ⟨⟨⟨2, by decide⟩, by decide, by decide⟩, by decide, by decide, by decide, by decide, by decide⟩

/-- `CldResult`, `CstResult`, `StoreThenLoad`, `SmPortAccess`: the last word that exists, and the first that does not. -/
theorem test_witness_CldCst :
    address 131071#32 < State.reset.cfg.smSize ∧ State.reset.cfg.smSize ≤ address 131072#32 := by decide

/-- `BitrevResult`, `FftResult`, `IfftResult`: one word at the top of memory, and two adjacent ranges of the greatest length. -/
theorem test_witness_SequenceReady :
    SequenceReady State.reset 131070#32 131071#32 1#32 0 ∧ SequenceReady State.reset 65536#32 0#32 65536#32 16 :=
  ⟨⟨by decide, by decide, by decide, by decide, .inl (by decide)⟩,
   ⟨by decide, by decide, by decide, by decide, .inr (by decide)⟩⟩

theorem test_witness_DestinationDependsOnSourceAlone :
    SequenceReady State.reset 0#32 1#32 1#32 0 ∧ (State.reset.setReg 0 c12).cfg = State.reset.cfg ∧
    ∀ i, i < 2 ^ 0 → (State.reset.setReg 0 c12).word (address 0#32 + i) = State.reset.word (address 0#32 + i) :=
  ⟨⟨by decide, by decide, by decide, by decide, .inl (by decide)⟩, rfl, fun _ _ => rfl⟩

/-- One command for every step of R218: each check fails where the earlier ones pass, at the edge of its range. -/
theorem test_witness_FirstFailingCheckAnswers :
    CheckFails Params.default (.fft 0 64 0) .length ∧
    CheckFails Params.default (.cdivn 0 0 131072) .resource ∧
    CheckFails Params.default (.twid 0 .forward 1 2) .index ∧
    CheckFails Params.default (.cld 0 131072) .address ∧
    CheckFails Params.default (.bitrev 131065 0 8) .address ∧
    CheckFails Params.default (.bitrev 0 131065 8) .address ∧
    CheckFails Params.default (.ifft 0 7 8) .overlap := by
  refine ⟨⟨0, rfl, ?_⟩, ⟨131072, rfl, by decide⟩, ⟨1, 2, rfl, rfl, by decide⟩, .inl ⟨131072, rfl, by decide⟩,
    .inr ⟨131065, 0, 8, rfl, rfl, by decide⟩, .inr ⟨0, 131065, 8, rfl, rfl, by decide⟩, ⟨0, 7, 8, rfl, rfl, by decide⟩⟩
  rintro ⟨n, h⟩
  exact absurd h.symm (by positivity)

theorem test_witness_ErrorsArePrecise :
    issue 0x05000000_00000000_00000000_00000000#128 State.reset = .next (State.reset.raiseError .illegal) ∧
    (State.reset.raiseError .illegal).answers = .response .illegal :: State.reset.answers ∧ Response.illegal ≠ .ok :=
  ⟨rfl, rfl, by decide⟩

/-- `StatusHoldsLastResponse`, `ErrflagsAreSticky`, `HostPortsKeepRegisters`: an action that is neither a command nor a reset. -/
theorem test_witness_ports : (∀ D, HostAction.csrWrite 1 0x7E#32 ≠ .issue D) ∧ HostAction.csrWrite 1 0x7E#32 ≠ .reset ∧
    perform (.csrWrite 1 0x7E#32) State.reset = .next (csrWrite 1 0x7E#32 State.reset) ∧
    (csrWrite 1 0x02#32 { State.reset with errflags := 0x06#32 }).errflags.getLsbD 2 = true :=
  ⟨fun _ => by simp, by simp, rfl, by decide⟩

theorem test_witness_OverlappingRangesRefused :
    (∃ n, integer 8#32 = 2 ^ n) ∧ integer 8#32 ≤ State.reset.cfg.lenMax ∧
    address 0#32 + integer 8#32 ≤ State.reset.cfg.smSize ∧ address 7#32 + integer 8#32 ≤ State.reset.cfg.smSize ∧
    overlap (address 0#32) (address 7#32) (integer 8#32) = true ∧ overlap 0 8 8 = false :=
  ⟨⟨3, by decide⟩, by decide, by decide, by decide, by decide, by decide⟩

theorem test_reset_inv : State.reset.Inv :=
  ⟨by decide, by simp [State.reset], by decide, ⟨.ok, by decide⟩, by decide, by decide⟩

theorem test_witness_StepKeepsInv : State.reset.Inv ∧ step State.reset = .next State.reset := ⟨test_reset_inv, rfl⟩

/-- Finite operands whose sum overflows, the divisor not zero; and a zero divisor. -/
theorem test_witness_ArithmeticCorrectlyRounded :
    isFinite 0x7FEFFFFFFFFFFFFF#64 = true ∧ isZero 0x7FEFFFFFFFFFFFFF#64 = false ∧
    isFinite negZero = true ∧ isZero negZero = true := by decide

theorem test_witness_SquareRootCorrectlyRounded :
    (isFinite 1#64 = true ∧ signBit 1#64 = false) ∧ (isFinite negZero = true ∧ isZero negZero = true) ∧
    (isInf 0x7FF0000000000000#64 = true ∧ signBit 0x7FF0000000000000#64 = false) ∧ isNaN 0xFFF0000000000001#64 = true := by
  decide

/-- A NaN, both infinities, the greatest finite number and a zero, for the clauses of `ExceptionalResults`. -/
theorem test_witness_ExceptionalResults :
    isNaN 0x7FF0000000000001#64 = true ∧ isInf 0xFFF0000000000000#64 = true ∧ isInf 0x7FF0000000000000#64 = true ∧
    signBit 0xFFF0000000000000#64 ≠ signBit 0x7FF0000000000000#64 ∧ isFinite 0x7FEFFFFFFFFFFFFF#64 = true ∧
    isZero 0x7FEFFFFFFFFFFFFF#64 = false ∧ isZero posZero = true ∧
    isNaN (fmul ⟨0, []⟩ one negZero) = false ∧ isNaN (fdiv ⟨0, []⟩ one negZero) = false := by decide +kernel

theorem test_witness_SignedZeros : isFinite 0xFFEFFFFFFFFFFFFF#64 = true ∧ isZero (fmul ⟨0, []⟩ one negZero) = true ∧
    isZero (fdiv ⟨0, []⟩ negZero one) = true := by decide +kernel

theorem test_witness_IntegersConvert : (9007199254740991 : Nat) < 2 ^ 53 ∧ (-9007199254740991 : Int).natAbs < 2 ^ 53 := by
  decide

/-- Scaling at both edges of the exact range, and the identities at an operand that is not `-0`. -/
theorem test_witness_ScalarLaws :
    (isFinite one = true ∧ |value one| * 2 ^ (1022 : ℤ) < 2 ^ 1024 ∧ 1 / 2 ^ 1022 ≤ |value one| * 2 ^ (1022 : ℤ)) ∧
    (|value one| * 2 ^ (-1022 : ℤ) < 2 ^ 1024 ∧ 1 / 2 ^ 1022 ≤ |value one| * 2 ^ (-1022 : ℤ)) ∧
    isNaN one = false ∧ one ≠ negZero ∧ (1022 : Nat) ≤ 1022 := by
  decide +kernel

/-- `TwiddleProperties`, `ReferenceTwiddleValues`, `IdentityTwiddle`: the ends of the domain, and a finite sample. -/
theorem test_witness_TwiddleDomain :
    InTwiddleDomain 0 2 ∧ InTwiddleDomain 32767 65536 ∧ FiniteSample ⟨0x7FEFFFFFFFFFFFFF#64, negZero⟩ :=
  ⟨⟨by decide, by decide, by decide⟩, ⟨by decide, by decide, by decide⟩, by decide, by decide⟩

/-- `ReferenceFactorsCorrectlyRounded`: an index whose angle is a zero and one whose angle is not, at the shortest and the greatest
length. -/
theorem test_witness_ReferenceFactors :
    (InTwiddleDomain 0 2 ∧ isZero (refAngle .forward 0 2) = true) ∧
    (InTwiddleDomain 1073741823 (2 ^ 31) ∧ 2 ^ 31 ≤ 2 ^ 31 ∧ isZero (refAngle .inverse 1073741823 (2 ^ 31)) = false) :=
  ⟨⟨⟨by decide, by decide, by decide⟩, by decide +kernel⟩, ⟨by decide, by decide, by decide⟩, le_refl _, by decide +kernel⟩

/-- `RevReversesBits`, `RevLaws`: the last index of its range. -/
theorem test_witness_Rev : (7 : Nat) < 2 ^ 3 ∧ (0 : Nat) < 2 ^ 0 ∧ (15 : Nat) < 2 ^ (3 + 1) ∧ (2 : Nat) < 3 ∧ rev 6 3 = 3 := by decide

theorem test_witness_BitrevLaws : [x 0].length = 2 ^ 0 ∧ [x 0, x 1].length = 2 ^ (0 + 1) ∧
    SequenceReady State.reset 0#32 8#32 8#32 3 ∧ SequenceReady State.reset 8#32 16#32 8#32 3 :=
  ⟨by decide, by decide, ⟨by decide, by decide, by decide, by decide, .inl (by decide)⟩,
    ⟨by decide, by decide, by decide, by decide, .inl (by decide)⟩⟩

/-- `SplitByParity`, `TransformIsTheRecursion`, `InverseDividesOnce`, `IterativeFormAgrees`, `IdentityTwiddle`: the shortest
sequence and a longer one. -/
theorem test_witness_sequences : [c12].length = 2 ^ 0 ∧ [c12, c3m4].length = 2 * 1 ∧ [c12, c3m4].length = 2 ^ (0 + 1) ∧
    [x 0, x 1, x 2, x 3].length = 2 ^ 2 := by decide

/-- `IdealTransformIsTheSum`. -/
theorem test_witness_IdealTransformIsTheSum : ([⟨1, 0⟩, ⟨0, 1⟩] : List (Cx ℝ)).length = 2 ^ 1 ∧ 1 < 2 ^ 1 := by simp

/-- A constant whose 8-fold is still finite (V-X6). -/
theorem test_witness_ConstantHasOneBin : FiniteSample ⟨0x4004000000000000#64, 0xBFF0000000000000#64⟩ ∧
    2 ^ 3 * |value 0x4004000000000000#64| < 2 ^ 1024 ∧ 2 ^ 3 * |value 0xBFF0000000000000#64| < 2 ^ 1024 := by
  exact ⟨⟨by decide, by decide⟩, by decide +kernel, by decide +kernel⟩

/-- `x`, `y` and their sum, for the linearity clause of `IdealTransformProperties`. -/
theorem test_witness_IdealTransformProperties :
    ([⟨1, 0⟩] : List (Cx ℝ)).length = 2 ^ 0 ∧ ∀ j, j < 2 ^ 0 →
      (([⟨2, 0⟩] : List (Cx ℝ)).map toComplexNumber).getD j 0 =
        1 * (([⟨1, 0⟩] : List (Cx ℝ)).map toComplexNumber).getD j 0 +
        1 * (([⟨1, 0⟩] : List (Cx ℝ)).map toComplexNumber).getD j 0 := by
  refine ⟨rfl, fun j hj => ?_⟩
  obtain rfl : j = 0 := by omega
  simp [toComplexNumber, Complex.ext_iff]
  norm_num

/-- `PcmClampsAndReports`, `RoundsHalvesAway`: a real part for every clause, at the ends of the range. -/
theorem test_witness_Pcm :
    isNaN 0x7FF8000000000000#64 = true ∧ isInf 0xFFF0000000000000#64 = true ∧
    (isFinite 0x40DFFFE000000000#64 = true ∧ 32767 < roundHalfAway 0x40DFFFE000000000#64) ∧
    (isFinite 0xC0E0001000000000#64 = true ∧ roundHalfAway 0xC0E0001000000000#64 < -32768) ∧
    (isFinite 0xC0E0000FAE147AE1#64 = true ∧ roundHalfAway 0xC0E0000FAE147AE1#64 = -32768) ∧
    roundHalfAway 0x40DFFFDF5C28F5C3#64 = 32767 := by decide +kernel

theorem test_witness_PadLengthIsLeast : (1 : Nat) ≤ 1 ∧ (65537 : Nat) ≤ 2 ^ 17 := by decide

theorem test_witness_WordLayoutAndBusBytes : 131071 < State.reset.cfg.smSize ∧ (7 : Nat) < 8 ∧ (15 : Nat) < 16 := by decide

end Sys2Proof.Tests
end

section
/-! SUPPORT. One rule per case of a step (00_scope.md R16, 20_memory.md R61a): idle, any waiting transaction, a waiting descriptor
that decodes. -/

namespace Sys2Proof.Machine

/-- With no transaction waiting the unit holds its state (60_exceptions.md R232). -/
theorem step_of_inbox_nil {s : State} (h : s.inbox = []) : step s = .next s := by
  simp only [step, performNext, h]

theorem step_of_inbox_cons {s : State} {act : HostAction} {rest : List HostAction} (h : s.inbox = act :: rest) :
    step s = perform act { s with inbox := rest } := by
  simp only [step, performNext, h]

/-- A legal descriptor runs its command (10_state.md R28). -/
theorem issue_of_decode_ok {D : Word} {i : Instr} (h : decode D = .ok i) (s : State) : issue D s = exec i s := by
  simp only [issue, h]

theorem step_of_inbox_issue {s : State} {D : Word} {rest : List HostAction} {i : Instr}
    (h : s.inbox = .issue D :: rest) (hD : decode D = .ok i) : step s = exec i { s with inbox := rest } := by
  calc step s = issue D { s with inbox := rest } := step_of_inbox_cons h
    _ = exec i { s with inbox := rest } := issue_of_decode_ok hD _

theorem decodeTableWord_eq_some {nbits w : Nat} {i : Instr} :
    decodeTableWord nbits w = some i ↔ decode (tableWord nbits w) = .ok i := by
  unfold decodeTableWord
  cases decode (tableWord nbits w) <;> simp [Except.toOption]

@[simp] theorem inbox_withFetchWord (s : State) (nbits w : Nat) :
    (s.withFetchWord nbits w).inbox = .issue (tableWord nbits w) :: s.inbox := rfl

/-- The step takes the placed command off the inbox again, so the command runs on the state it was placed in. -/
theorem step_withFetchWord {nbits w : Nat} {i : Instr} (h : decodeTableWord nbits w = some i) (s : State) :
    step (s.withFetchWord nbits w) = exec i s :=
  step_of_inbox_issue (inbox_withFetchWord s nbits w) (decodeTableWord_eq_some.mp h)

/-- Settles O5, from the rule of each case of a step. -/
theorem stepRunsDecoded : Obligations.StepRunsDecoded :=
  ⟨fun _ h => step_of_inbox_nil h,
   fun _ _ _ h => step_of_inbox_cons h,
   fun _ _ _ _ h hD => step_of_inbox_issue h hD,
   fun s _ _ h => step_withFetchWord h s⟩

end Sys2Proof.Machine
end

section
/-! SUPPORT. What a transaction of the host can do, said once (10_state.md R28, R33, R40): a command ends in the success effects over
new registers and memory or in the error effects, and every other transaction is a reset, an answer, a store or a clearing of flags. -/

namespace Sys2Proof.Machine

/-! ## Commands -/

/-- Every operation is a `command` whose effect writes registers or sample memory and nothing else. -/
theorem exec_eq_command (i : Instr) (s : State) :
    ∃ checks effect, exec i s = command checks effect s ∧ ∃ regs sm, effect s = { s with regs := regs, sm := sm } := by
  cases i <;>
    (simp only [exec, execNop, execCadd, execCsub, execCmul, execCdivn, execTwid, execTwmul, execBfly, execCld, execCst, execBitrev,
      execFft, execIfft]; refine ⟨_, _, rfl, ?_⟩; exact ⟨_, _, rfl⟩)

/-- A command ends in the success effects over new registers and memory, or in the error effects. -/
theorem exec_ends (i : Instr) (s : State) :
    (∃ regs sm, exec i s = .next (State.respondOk { s with regs := regs, sm := sm })) ∨
      ∃ e, exec i s = .next (s.raiseError e) := by
  obtain ⟨checks, effect, hexec, regs, sm, heffect⟩ := exec_eq_command i s
  rw [hexec]
  rcases command_cases checks effect s with ⟨-, hok⟩ | ⟨e, -, herr⟩
  · exact .inl ⟨regs, sm, heffect ▸ hok⟩
  · exact .inr ⟨e, herr⟩

theorem issue_of_decode_error {D : Word} {e : Illegal} (h : decode D = .error e) (s : State) :
    issue D s = .next (s.raiseError .illegal) := by
  simp only [issue, h]

theorem issue_ends (D : Word) (s : State) :
    (∃ regs sm, issue D s = .next (State.respondOk { s with regs := regs, sm := sm })) ∨
      ∃ e, issue D s = .next (s.raiseError e) := by
  cases h : decode D with
  | ok i => simpa only [issue_of_decode_ok h] using exec_ends i s
  | error e => exact .inr ⟨.illegal, issue_of_decode_error h s⟩

theorem succeeded_withData (s : State) (regs : Vector Sample 16) (sm : Memory) :
    Succeeded s (State.respondOk { s with regs := regs, sm := sm }) :=
  succeeded_respondOk rfl rfl rfl rfl rfl rfl rfl

/-- Every descriptor is answered, in every state; both status registers are written as the response says (R30, R31). -/
theorem issue_responds (D : Word) (s : State) :
    ∃ t r, issue D s = .next t ∧ Responded r s t ∧ t.errflags = withFlag s.errflags r := by
  rcases issue_ends D s with ⟨regs, sm, h⟩ | ⟨e, h⟩
  · exact ⟨_, .ok, h, (succeeded_withData s regs sm).responded, rfl⟩
  · exact ⟨_, e, h, responded_respond s e, rfl⟩

theorem issue_next (D : Word) (s : State) : ∃ t, issue D s = .next t := by
  obtain ⟨t, -, h, -⟩ := issue_responds D s
  exact ⟨t, h⟩

/-! ## The other transactions -/

theorem smWrite_cases (a : Word32) (w : Word) (s : State) :
    (address a < s.cfg.smSize ∧ smWrite a w s = (s.memWrite (address a) [ofWord w]).answer .done) ∨
      (s.cfg.smSize ≤ address a ∧ smWrite a w s = s.answer .herr) := by
  unfold smWrite
  by_cases h : address a < s.cfg.smSize
  · exact .inl ⟨h, if_pos h⟩
  · exact .inr ⟨Nat.le_of_not_lt h, if_neg h⟩

theorem smRead_cases (a : Word32) (s : State) :
    (address a < s.cfg.smSize ∧ smRead a s = s.answer (.word (toWord (s.word (address a))))) ∨
      (s.cfg.smSize ≤ address a ∧ smRead a s = s.answer .herr) := by
  unfold smRead
  by_cases h : address a < s.cfg.smSize
  · exact .inl ⟨h, if_pos h⟩
  · exact .inr ⟨Nat.le_of_not_lt h, if_neg h⟩

theorem perform_csrRead_zero (s : State) : perform (.csrRead 0) s = .next (s.answer (.csr (statusRead s.status))) := rfl

theorem perform_csrRead_one (s : State) : perform (.csrRead 1) s = .next (s.answer (.csr (errflagsRead s.errflags))) := rfl

theorem perform_csrRead_add_two (i : Nat) (s : State) : perform (.csrRead (i + 2)) s = .next (s.answer .herr) := rfl

theorem perform_csrWrite_zero (v : BitVec 32) (s : State) : perform (.csrWrite 0 v) s = .next (s.answer .herr) := rfl

theorem perform_csrWrite_one (v : BitVec 32) (s : State) :
    perform (.csrWrite 1 v) s = .next (State.answer { s with errflags := clearFlags s.errflags v } .done) := rfl

theorem perform_csrWrite_add_two (i : Nat) (v : BitVec 32) (s : State) :
    perform (.csrWrite (i + 2) v) s = .next (s.answer .herr) := rfl

/-- No transaction is without an outcome (R40). -/
theorem perform_next (act : HostAction) (s : State) : ∃ t, perform act s = .next t := by
  cases act with
  | issue D => exact issue_next D s
  | reset | smWrite | smRead | csrRead | csrWrite => exact ⟨_, rfl⟩

/-- What a transaction did, read off its outcome. -/
theorem perform_cases {act : HostAction} {s t : State} (h : perform act s = .next t) :
    (∃ D, act = .issue D ∧ issue D s = .next t) ∨
    (act = .reset ∧ t = resetUnit s) ∨
    (∃ x, t = s.answer x) ∨
    (∃ a w, act = .smWrite a w ∧ address a < s.cfg.smSize ∧ t = (s.memWrite (address a) [ofWord w]).answer .done) ∨
    ∃ v, act = .csrWrite 1 v ∧ t = State.answer { s with errflags := clearFlags s.errflags v } .done := by
  cases act with
  | issue D => exact .inl ⟨D, rfl, h⟩
  | reset => cases h; exact .inr (.inl ⟨rfl, rfl⟩)
  | smWrite a w =>
    cases h
    rcases smWrite_cases a w s with ⟨hlt, hw⟩ | ⟨-, hw⟩
    · exact .inr (.inr (.inr (.inl ⟨a, w, rfl, hlt, hw⟩)))
    · exact .inr (.inr (.inl ⟨_, hw⟩))
  | smRead a =>
    cases h
    rcases smRead_cases a s with ⟨-, hr⟩ | ⟨-, hr⟩ <;> exact .inr (.inr (.inl ⟨_, hr⟩))
  | csrRead i =>
    match i with
    | 0 => cases (perform_csrRead_zero s).symm.trans h; exact .inr (.inr (.inl ⟨_, rfl⟩))
    | 1 => cases (perform_csrRead_one s).symm.trans h; exact .inr (.inr (.inl ⟨_, rfl⟩))
    | i + 2 => cases (perform_csrRead_add_two i s).symm.trans h; exact .inr (.inr (.inl ⟨_, rfl⟩))
  | csrWrite i v =>
    match i with
    | 0 => cases (perform_csrWrite_zero v s).symm.trans h; exact .inr (.inr (.inl ⟨_, rfl⟩))
    | 1 => cases (perform_csrWrite_one v s).symm.trans h; exact .inr (.inr (.inr (.inr ⟨v, rfl, rfl⟩)))
    | i + 2 => cases (perform_csrWrite_add_two i v s).symm.trans h; exact .inr (.inr (.inl ⟨_, rfl⟩))

/-- No transaction writes the parameters of the build (00_scope.md R17). -/
theorem perform_cfg {act : HostAction} {s t : State} (h : perform act s = .next t) : t.cfg = s.cfg := by
  rcases perform_cases h with ⟨D, -, hD⟩ | ⟨-, rfl⟩ | ⟨x, rfl⟩ | ⟨a, w, -, -, rfl⟩ | ⟨v, -, rfl⟩
  · obtain ⟨u, r, hu, hresp, -⟩ := issue_responds D s
    cases hu.symm.trans hD
    exact hresp.build
  all_goals rfl

/-- A transaction that is neither a command nor a reset writes no register and not `STATUS` (R23, R30). -/
theorem perform_port_frame {act : HostAction} {s t : State} (hissue : ∀ D, act ≠ .issue D) (hreset : act ≠ .reset)
    (h : perform act s = .next t) : t.regs = s.regs ∧ t.status = s.status := by
  rcases perform_cases h with ⟨D, hD, -⟩ | ⟨hact, -⟩ | ⟨x, rfl⟩ | ⟨a, w, -, -, rfl⟩ | ⟨v, -, rfl⟩
  · exact absurd hD (hissue D)
  · exact absurd hact hreset
  all_goals exact ⟨rfl, rfl⟩

theorem regsKeptBut_of_regs_eq {s t : State} (h : t.regs = s.regs) (ws : List Reg) : RegsKeptBut ws s t := by
  intro r _
  rw [State.reg, State.reg, h]

/-! ## Steps -/

theorem step_next (s : State) : ∃ t, step s = .next t := by
  cases h : s.inbox with
  | nil => exact ⟨s, step_of_inbox_nil h⟩
  | cons act rest => simpa only [step_of_inbox_cons h] using perform_next act { s with inbox := rest }

/-- Settles O6, by induction on the number of steps. -/
theorem nothingIsStuck : Obligations.NothingIsStuck := by
  intro s n
  induction n generalizing s with
  | zero => exact ⟨s, rfl⟩
  | succ n ih =>
    obtain ⟨u, hu⟩ := step_next s
    obtain ⟨t, ht⟩ := ih u
    exact ⟨t, u, hu, ht⟩

/-- Settles O32, from the frame of the ports. -/
theorem hostPortsKeepRegisters : Obligations.HostPortsKeepRegisters := by
  intro act s
  obtain ⟨t, h⟩ := perform_next act s
  refine ⟨t, h, perform_cfg h, fun hissue hreset => ?_⟩
  obtain ⟨hregs, -⟩ := perform_port_frame hissue hreset h
  exact regsKeptBut_of_regs_eq hregs []

end Sys2Proof.Machine
end

section
/-! SUPPORT. The bits of the two status registers (10_state.md R30, R31) and the CSR port (R33). -/

namespace Sys2Proof.Machine

/-- A read of `STATUS` is the register with its reserved bits cleared. -/
theorem statusRead_eq (v : BitVec 32) : statusRead v = withLast 0#32 (lastField v) := rfl

@[simp] theorem lastField_statusRead (v : BitVec 32) : lastField (statusRead v) = lastField v := by
  rw [statusRead_eq, lastField_withLast]

@[simp] theorem reserved_statusRead (v : BitVec 32) : (statusRead v).extractLsb' 4 28 = 0#28 := by
  rw [statusRead_eq, reserved_withLast]
  rfl

/-- The bits of `ERRFLAGS` that exist are those the codes 1 to 6 number. -/
@[simp] theorem getLsbD_flagMask (i : Nat) : flagMask.getLsbD i = decide (1 ≤ i ∧ i ≤ 6) := by
  have low : ∀ j : Fin 32, flagMask.getLsbD j = decide (1 ≤ j.val ∧ j.val ≤ 6) := by decide
  by_cases h : i < 32
  · exact low ⟨i, h⟩
  · rw [BitVec.getLsbD_of_ge _ _ (by omega), eq_comm, decide_eq_false_iff_not]
    omega

theorem getLsbD_errflagsRead (v : BitVec 32) (i : Nat) :
    (errflagsRead v).getLsbD i = (v.getLsbD i && decide (1 ≤ i ∧ i ≤ 6)) := by
  rw [errflagsRead, BitVec.getLsbD_and, getLsbD_flagMask]

theorem getLsbD_clearFlags (flags v : BitVec 32) (i : Nat) :
    (clearFlags flags v).getLsbD i = (flags.getLsbD i && !(v.getLsbD i && decide (1 ≤ i ∧ i ≤ 6))) := by
  by_cases h : i < 32
  · simp only [clearFlags, BitVec.getLsbD_and, BitVec.getLsbD_not, getLsbD_flagMask, h, decide_true, Bool.true_and]
  · simp only [BitVec.getLsbD_of_ge _ _ (Nat.le_of_not_lt h), Bool.false_and]

theorem getLsbD_withFlag (v : BitVec 32) (r : Response) (i : Nat) :
    (withFlag v r).getLsbD i = (v.getLsbD i || decide (r ≠ .ok ∧ i = r.code.toNat)) := by
  by_cases h : r = .ok
  · subst h
    simp [withFlag]
  · have hcode : r.code.toNat < 32 := r.code.isLt.trans (by decide)
    rw [withFlag_eq v h, ← BitVec.twoPow_eq, BitVec.getLsbD_or, BitVec.getLsbD_twoPow]
    simp [h, hcode, eq_comm]

/-- No transaction but a command sets a bit of `ERRFLAGS` (R31). -/
theorem perform_flag_of_not_issue {act : HostAction} {s t : State} (hissue : ∀ D, act ≠ .issue D)
    (h : perform act s = .next t) {i : Nat} (hi : t.errflags.getLsbD i = true) : s.errflags.getLsbD i = true := by
  rcases perform_cases h with ⟨D, hD, -⟩ | ⟨-, rfl⟩ | ⟨x, rfl⟩ | ⟨a, w, -, -, rfl⟩ | ⟨v, -, rfl⟩
  · exact absurd hD (hissue D)
  · simp at hi
  · exact hi
  · exact hi
  · rw [errflags_answer, getLsbD_clearFlags, Bool.and_eq_true] at hi
    exact hi.1

/-- Settles O25, from the end of a command and the frame of the ports. -/
theorem statusHoldsLastResponse : Obligations.StatusHoldsLastResponse := by
  refine ⟨fun s => ?read, fun D s => ?command, fun act s t hissue hreset h => ?port,
    ⟨rfl, fun s => ⟨resetUnit s, rfl, rfl⟩⟩, perform_csrWrite_zero⟩
  case read => exact ⟨_, statusRead s.status, perform_csrRead_zero s, rfl, lastField_statusRead s.status, reserved_statusRead s.status⟩
  case command =>
    obtain ⟨t, r, h, hresp, -⟩ := issue_responds D s
    exact ⟨t, r, h, hresp.answer, hresp.last⟩
  case port => exact (perform_port_frame hissue hreset h).2

/-- Settles O26, bit by bit. -/
theorem errflagsAreSticky : Obligations.ErrflagsAreSticky := by
  refine ⟨fun s => ?read, fun D s => ?command, fun v s => ?clear, fun act s t hissue h i => perform_flag_of_not_issue hissue h,
    ⟨rfl, fun s => ⟨resetUnit s, rfl, rfl⟩⟩⟩
  case read => exact ⟨_, errflagsRead s.errflags, perform_csrRead_one s, rfl, getLsbD_errflagsRead s.errflags⟩
  case command =>
    obtain ⟨t, r, h, hresp, hflags⟩ := issue_responds D s
    exact ⟨t, r, h, hresp.answer, fun i => by rw [hflags, getLsbD_withFlag]⟩
  case clear => exact ⟨_, perform_csrWrite_one v s, getLsbD_clearFlags s.errflags v⟩

/-- Settles O27, from the equation of each access; every index from 2 on is `k + 2`. -/
theorem csrPortAccess : Obligations.CsrPortAccess := by
  intro s
  refine ⟨⟨_, perform_csrRead_zero s, rfl⟩, ⟨_, perform_csrRead_one s, rfl⟩, fun v => perform_csrWrite_one v s,
    fun v => perform_csrWrite_zero v s, fun i v hi => ?_⟩
  obtain ⟨k, rfl⟩ := Nat.exists_eq_add_of_le' hi
  exact ⟨perform_csrRead_add_two k s, perform_csrWrite_add_two k v s⟩

end Sys2Proof.Machine
end

section
/-! SUPPORT. The state after reset (10_state.md R24, R41). -/

namespace Sys2Proof.Machine

theorem reg_of_zeroRegs {s : State} (h : s.regs = zeroRegs) (i : Reg) : s.reg i = ⟨posZero, posZero⟩ := by
  simp [State.reg, h, zeroRegs]

theorem toWord_zero : toWord ⟨posZero, posZero⟩ = 0#128 := rfl

/-- With no word written, sample memory reads as the draw (R37). -/
theorem word_of_sm_nil {s : State} (h : s.sm = []) (a : Nat) : s.word a = Config.smInit s.smDraw a := by
  simp [State.word, h, Memory.get]

/-- Registers, status registers and memory as R41 has them after a reset, from the fields that a reset writes. -/
theorem zeroed_of_fields {s : State} (hregs : s.regs = zeroRegs) (hsm : s.sm = []) :
    (∀ i, s.reg i = ⟨posZero, posZero⟩ ∧ toWord (s.reg i) = 0#128) ∧ ∃ draw, ∀ a, s.word a = Config.smInit draw a := by
  refine ⟨fun i => ?_, s.smDraw, word_of_sm_nil hsm⟩
  rw [reg_of_zeroRegs hregs]
  exact ⟨rfl, toWord_zero⟩

/-- Settles O29: both `resetUnit` and `State.reset` zero the registers and leave no word written. -/
theorem resetState : Obligations.ResetState := by
  refine ⟨fun s => ?_, ?_⟩
  · obtain ⟨hregs, hwords⟩ := zeroed_of_fields (regs_resetUnit s) (sm_resetUnit s)
    exact ⟨resetUnit s, rfl, hregs, rfl, rfl, hwords, fun D => issue_next D _⟩
  · obtain ⟨hregs, hwords⟩ := zeroed_of_fields (s := State.reset) rfl rfl
    exact ⟨hregs, rfl, rfl, hwords⟩

theorem default_legal : Params.default.Legal := by decide

/-- Settles O35: no word is written after reset, both status registers are zero and the build is the default one. -/
theorem resetHasInv : Obligations.ResetHasInv where
  canonical := reset_wf
  inRange := fun _ hp => absurd hp List.not_mem_nil
  statusReserved := rfl
  lastIsCode := ⟨.ok, rfl⟩
  flagsReserved := by decide
  legal := default_legal

end Sys2Proof.Machine
end

section
/-! SUPPORT. The layout of a word (10_state.md R35) and the bytes of a byte-addressed host bus (20_memory.md R51). -/

namespace Sys2Proof.Machine

@[simp] theorem toWord_low (z : Sample) : (toWord z).extractLsb' 0 64 = z.re := BitVec.extractLsb'_append_eq_right

@[simp] theorem toWord_high (z : Sample) : (toWord z).extractLsb' 64 64 = z.im := BitVec.extractLsb'_append_eq_left

@[simp] theorem ofWord_toWord (z : Sample) : ofWord (toWord z) = z := by
  rw [ofWord, toWord_low, toWord_high]

@[simp] theorem toWord_ofWord (w : Word) : toWord (ofWord w) = w := BitVec.extractLsb'_append_extractLsb'

theorem wordByte_toWord_low (z : Sample) {j : Nat} (h : j < 8) : wordByte (toWord z) j = z.re.extractLsb' (8 * j) 8 :=
  BitVec.extractLsb'_append_eq_of_add_le (by omega)

theorem wordByte_toWord_high (z : Sample) {j : Nat} (h : 8 ≤ j) :
    wordByte (toWord z) j = z.im.extractLsb' (8 * (j - 8)) 8 := by
  rw [Nat.mul_sub]
  exact BitVec.extractLsb'_append_eq_of_le (by omega)

/-- Word `a` takes the sixteen bytes from `16 * a` on. -/
theorem busByte_word {s : State} {a j : Nat} (ha : a < s.cfg.smSize) (hj : j < 16) :
    busByte s (16 * a + j) = some (wordByte (toWord (s.word a)) j) := by
  have hdiv : (16 * a + j) / 16 = a := by omega
  have hmod : (16 * a + j) % 16 = j := by omega
  rw [busByte, hdiv, hmod, if_pos ha]

theorem csrByte_append (v : BitVec 32) : csrByte v 3 ++ csrByte v 2 ++ csrByte v 1 ++ csrByte v 0 = v := by
  have h32 : csrByte v 3 ++ csrByte v 2 = v.extractLsb' 16 16 :=
    BitVec.extractLsb'_append_extractLsb'_eq_extractLsb' rfl
  have h321 : v.extractLsb' 16 16 ++ csrByte v 1 = v.extractLsb' 8 24 :=
    BitVec.extractLsb'_append_extractLsb'_eq_extractLsb' rfl
  rw [h32, h321]
  exact BitVec.extractLsb'_append_extractLsb'

/-- Settles O33, from the two halves of a word and the place of its bytes on the bus. -/
theorem wordLayoutAndBusBytes : Obligations.WordLayoutAndBusBytes := by
  refine ⟨fun z w => ⟨toWord_low z, toWord_high z, rfl, ofWord_toWord z, toWord_ofWord w⟩, fun s a j ha hj => ?_,
    fun v => (csrByte_append v).symm⟩
  rw [busByte_word ha hj]
  exact ⟨rfl, fun h => congrArg some (wordByte_toWord_low _ h), fun h => congrArg some (wordByte_toWord_high _ h)⟩

end Sys2Proof.Machine
end

section
/-! SUPPORT. Every operation on the state keeps the invariant: memory canonical and in range (20_memory.md R59), the reserved bits of
the status registers zero and `LAST` a code that exists (10_state.md R30, R31, 60_exceptions.md R210). -/

namespace Sys2Proof.Machine

/-! ## One rule per operation on the state -/

/-- The invariant speaks of memory, the status registers and the parameters only. -/
theorem State.Inv.of_fields {s t : State} (h : s.Inv) (hsm : t.sm = s.sm) (hstatus : t.status = s.status)
    (hflags : t.errflags = s.errflags) (hcfg : t.cfg = s.cfg) : t.Inv where
  canonical := hsm ▸ h.canonical
  inRange := by rw [hsm, hcfg]; exact h.inRange
  statusReserved := hstatus ▸ h.statusReserved
  lastIsCode := hstatus ▸ h.lastIsCode
  flagsReserved := hflags ▸ h.flagsReserved
  legal := hcfg ▸ h.legal

theorem State.Inv.setReg {s : State} (h : s.Inv) (i : Reg) (v : Sample) : (s.setReg i v).Inv :=
  h.of_fields rfl rfl rfl rfl

theorem State.Inv.answer {s : State} (h : s.Inv) (a : Answer) : (s.answer a).Inv :=
  h.of_fields rfl rfl rfl rfl

/-- A write of words that exist. -/
theorem State.Inv.memWrite {s : State} (h : s.Inv) {b : Nat} {vs : List Sample} (hfit : b + vs.length ≤ s.cfg.smSize) :
    (s.memWrite b vs).Inv where
  canonical := memWrite_wf h.canonical b vs
  inRange := by
    intro p hp
    rcases mem_put hp with hold | ⟨-, hnew⟩
    · exact h.inRange p hold
    · exact hnew.trans_le hfit
  statusReserved := h.statusReserved
  lastIsCode := h.lastIsCode
  flagsReserved := h.flagsReserved
  legal := h.legal

/-- The bits an error can set are bits that exist. -/
theorem withFlag_reserved {v : BitVec 32} (h : v &&& ~~~flagMask = 0#32) (r : Response) :
    withFlag v r &&& ~~~flagMask = 0#32 := by
  have set_bit : ∀ c : BitVec 32, c &&& ~~~flagMask = 0#32 → (v ||| c) &&& ~~~flagMask = 0#32 := by
    intro c hc
    rw [BitVec.and_comm, BitVec.and_or_distrib_left, BitVec.and_comm _ v, BitVec.and_comm _ c, h, hc, BitVec.or_zero]
  cases r with
  | ok => exact h
  | illegal | length | resource | index | address | overlap => exact set_bit _ (by decide)

theorem clearFlags_reserved {flags : BitVec 32} (h : flags &&& ~~~flagMask = 0#32) (v : BitVec 32) :
    clearFlags flags v &&& ~~~flagMask = 0#32 := by
  rw [clearFlags, BitVec.and_assoc, BitVec.and_comm (~~~(v &&& flagMask)), ← BitVec.and_assoc, h, BitVec.zero_and]

/-- The end of a command, whatever the response. -/
theorem State.Inv.respond {s : State} (h : s.Inv) (r : Response) : (s.respond r).Inv where
  canonical := h.canonical
  inRange := h.inRange
  statusReserved := (reserved_withLast s.status r.code).trans h.statusReserved
  lastIsCode := ⟨r, lastField_withLast s.status r.code⟩
  flagsReserved := withFlag_reserved h.flagsReserved r
  legal := h.legal

theorem State.Inv.clearFlags {s : State} (h : s.Inv) (v : BitVec 32) :
    State.Inv { s with errflags := clearFlags s.errflags v } where
  canonical := h.canonical
  inRange := h.inRange
  statusReserved := h.statusReserved
  lastIsCode := h.lastIsCode
  flagsReserved := clearFlags_reserved h.flagsReserved v
  legal := h.legal

theorem State.Inv.resetUnit {s : State} (h : s.Inv) : (resetUnit s).Inv where
  canonical := resetHasInv.canonical
  inRange := fun _ hp => absurd hp List.not_mem_nil
  statusReserved := resetHasInv.statusReserved
  lastIsCode := resetHasInv.lastIsCode
  flagsReserved := resetHasInv.flagsReserved
  legal := h.legal

/-! ## Commands -/

/-- A command keeps the invariant when its writes do in the case that its checks pass. -/
theorem State.Inv.command {checks : List Check} {effect : State → State} {s t : State} (h : s.Inv)
    (heffect : firstFailure checks = none → (effect s).Inv) (ht : command checks effect s = .next t) : t.Inv := by
  rcases command_cases checks effect s with ⟨hpass, hok⟩ | ⟨e, -, herr⟩
  · cases hok.symm.trans ht
    exact (heffect hpass).respond .ok
  · cases herr.symm.trans ht
    exact h.respond e

/-- A sequence operation writes a sequence of its own length over a range that exists. -/
theorem State.Inv.memWrite_of_sequenceChecks {s : State} (h : s.Inv) {a b len : Nat} {vs : List Sample}
    (hpass : firstFailure (sequenceChecks s a b len) = none) (hlen : vs.length = 2 ^ log2 len) : (s.memWrite b vs).Inv := by
  obtain ⟨hpow, -, -, hfit, -⟩ := sequenceChecks_pass.mp hpass
  exact h.memWrite (by rwa [hlen, two_pow_log2 hpow])

/-- The source sequence has the length `2^n` for which the transforms are defined (R172). -/
theorem memRead_length_of_sequenceChecks {s u : State} {a b len : Nat}
    (hpass : firstFailure (sequenceChecks s a b len) = none) : (u.memRead a len).length = 2 ^ log2 len := by
  obtain ⟨hpow, -⟩ := sequenceChecks_pass.mp hpass
  rw [memRead_length, two_pow_log2 hpow]

theorem State.Inv.exec {i : Instr} {s t : State} (h : s.Inv) (ht : exec i s = .next t) : t.Inv := by
  unfold Machine.exec at ht
  cases i with
  | nop => exact h.command (fun _ => h) ht
  | cadd | csub | cmul | cdivn | twid | twmul | cld => exact h.command (fun _ => h.setReg _ _) ht
  | bfly => exact h.command (fun _ => (h.setReg _ _).setReg _ _) ht
  | cst => exact h.command (fun hpass => h.memWrite (accessChecks_pass.mp hpass)) ht
  | bitrev => exact h.command (fun hpass => h.memWrite_of_sequenceChecks hpass (bitrev_length _ _)) ht
  | fft =>
    exact h.command (fun hpass => h.memWrite_of_sequenceChecks hpass
      (fft_length _ _ _ _ (memRead_length_of_sequenceChecks hpass))) ht
  | ifft =>
    exact h.command (fun hpass => h.memWrite_of_sequenceChecks hpass
      (ifft_length _ _ _ _ (memRead_length_of_sequenceChecks hpass))) ht

theorem State.Inv.issue {D : Word} {s t : State} (h : s.Inv) (ht : issue D s = .next t) : t.Inv := by
  cases hD : decode D with
  | ok i => exact h.exec ((issue_of_decode_ok hD s).symm.trans ht)
  | error e =>
    cases (issue_of_decode_error hD s).symm.trans ht
    exact h.respond .illegal

/-! ## Transactions and steps -/

theorem State.Inv.perform {act : HostAction} {s t : State} (h : s.Inv) (ht : perform act s = .next t) : t.Inv := by
  rcases perform_cases ht with ⟨D, -, hD⟩ | ⟨-, rfl⟩ | ⟨x, rfl⟩ | ⟨a, w, -, ha, rfl⟩ | ⟨v, -, rfl⟩
  · exact h.issue hD
  · exact h.resetUnit
  · exact h.answer x
  · exact (h.memWrite ha).answer .done
  · exact (h.clearFlags v).answer .done

/-- Settles O34: an idle step holds the state, any other is one transaction. -/
theorem stepKeepsInv : Obligations.StepKeepsInv := by
  intro s t h ht
  cases hin : s.inbox with
  | nil =>
    cases (step_of_inbox_nil hin).symm.trans ht
    exact h
  | cons act rest =>
    have hrest : State.Inv { s with inbox := rest } := h.of_fields rfl rfl rfl rfl
    exact hrest.perform ((step_of_inbox_cons hin).symm.trans ht)

end Sys2Proof.Machine
end

section
/-! SUPPORT. The place of an operation selects the free bits of a NaN and nothing else (40_numerics.md R105): every value function
takes operands that agree up to those bits to results that do, whatever the two places are. -/

namespace Sys2Proof.Machine

/-! ## Scalars -/

theorem SameScalar.refl (x : F) : SameScalar x x := .inl rfl

/-- The twelve bits above the free payload are ones: the exponent field and the quiet bit. -/
theorem quietNaN_ones (b : BitVec 52) : (quietNaN b).toNat / 2 ^ 51 % 2 ^ 12 = 4095 := by
  have hbits : (quietNaN b).extractLsb' 51 12 = 0xFFF#12 :=
    (BitVec.extractLsb'_append_eq_of_le (le_refl 51)).trans BitVec.extractLsb'_append_eq_right
  simpa [Nat.shiftRight_eq_div_pow] using congrArg BitVec.toNat hbits

theorem isNaN_quietNaN (b : BitVec 52) : isNaN (quietNaN b) = true := by
  have hones := quietNaN_ones b
  rw [isNaN, expField_eq, fracField_eq, Bool.and_eq_true, beq_iff_eq, bne_iff_ne]
  omega

theorem isNaN_nanResult (d : Draw) (x y : F) : isNaN (nanResult d x y) = true := isNaN_quietNaN _

theorem sameScalar_nanResult (d d' : Draw) (x y : F) : SameScalar (nanResult d x y) (nanResult d' x y) :=
  .inr ⟨isNaN_nanResult d x y, isNaN_nanResult d' x y⟩

/-- Negation moves no bit of the exponent or of the fraction. -/
@[simp] theorem isNaN_fneg (x : F) : isNaN (fneg x) = isNaN x := by
  have hexp : expField (fneg x) = expField x := by
    rw [expField, fneg, BitVec.extractLsb'_xor]
    exact congrArg BitVec.toNat BitVec.xor_zero
  have hfrac : fracField (fneg x) = fracField x := by
    rw [fracField, fneg, BitVec.extractLsb'_xor]
    exact congrArg BitVec.toNat BitVec.xor_zero
  rw [isNaN, hexp, hfrac, isNaN]

/-- A scalar operation that gives a NaN for a NaN, and whose place selects the free bits of a NaN only (R104c, R105). -/
structure DrawsOnlyNaN (op : Draw → F → F → F) : Prop where
  ofNaN : ∀ d x y, isNaN x = true ∨ isNaN y = true → isNaN (op d x y) = true
  draw : ∀ d d' x y, SameScalar (op d x y) (op d' x y)

theorem DrawsOnlyNaN.same {op : Draw → F → F → F} (h : DrawsOnlyNaN op) (d d' : Draw) {x x' y y' : F}
    (hx : SameScalar x x') (hy : SameScalar y y') : SameScalar (op d x y) (op d' x' y') := by
  rcases hx with rfl | ⟨hx, hx'⟩
  · rcases hy with rfl | ⟨hy, hy'⟩
    · exact h.draw d d' x y
    · exact .inr ⟨h.ofNaN d x y (.inr hy), h.ofNaN d' x y' (.inr hy')⟩
  · exact .inr ⟨h.ofNaN d x y (.inl hx), h.ofNaN d' x' y' (.inl hx')⟩

theorem drawsOnlyNaN_fadd : DrawsOnlyNaN fadd where
  ofNaN d x y h := by
    rw [fadd, if_pos (by simpa using h)]
    exact isNaN_nanResult d x y
  draw d d' x y := by
    unfold fadd
    split_ifs
    · exact sameScalar_nanResult d d' x y
    · exact sameScalar_nanResult d d' x y
    all_goals exact .refl _

theorem drawsOnlyNaN_fsub : DrawsOnlyNaN fsub where
  ofNaN d x y h := drawsOnlyNaN_fadd.ofNaN d x (fneg y) (by rwa [isNaN_fneg])
  draw d d' x y := drawsOnlyNaN_fadd.draw d d' x (fneg y)

theorem drawsOnlyNaN_fmul : DrawsOnlyNaN fmul where
  ofNaN d x y h := by
    rw [fmul, if_pos (by simpa using h)]
    exact isNaN_nanResult d x y
  draw d d' x y := by
    unfold fmul
    split_ifs
    · exact sameScalar_nanResult d d' x y
    · exact sameScalar_nanResult d d' x y
    all_goals exact .refl _

theorem drawsOnlyNaN_fdiv : DrawsOnlyNaN fdiv where
  ofNaN d x y h := by
    rw [fdiv, if_pos (by simpa using h)]
    exact isNaN_nanResult d x y
  draw d d' x y := by
    unfold fdiv
    split_ifs
    · exact sameScalar_nanResult d d' x y
    · exact sameScalar_nanResult d d' x y
    · exact .refl _
    · exact .refl _
    · exact sameScalar_nanResult d d' x y
    all_goals exact .refl _

/-! ## Samples -/

theorem SameSample.refl (x : Sample) : SameSample x x := ⟨.refl _, .refl _⟩

section
variable (c : TwChoice) (d d' : Draw) {x x' y y' : Sample}

theorem SameSample.cadd (hx : SameSample x x') (hy : SameSample y y') :
    SameSample (cadd (hardware c) d x y) (cadd (hardware c) d' x' y') :=
  ⟨drawsOnlyNaN_fadd.same _ _ hx.1 hy.1, drawsOnlyNaN_fadd.same _ _ hx.2 hy.2⟩

theorem SameSample.csub (hx : SameSample x x') (hy : SameSample y y') :
    SameSample (csub (hardware c) d x y) (csub (hardware c) d' x' y') :=
  ⟨drawsOnlyNaN_fsub.same _ _ hx.1 hy.1, drawsOnlyNaN_fsub.same _ _ hx.2 hy.2⟩

theorem SameSample.cmul (hx : SameSample x x') (hy : SameSample y y') :
    SameSample (cmul (hardware c) d x y) (cmul (hardware c) d' x' y') :=
  ⟨drawsOnlyNaN_fsub.same _ _ (drawsOnlyNaN_fmul.same _ _ hx.1 hy.1) (drawsOnlyNaN_fmul.same _ _ hx.2 hy.2),
   drawsOnlyNaN_fadd.same _ _ (drawsOnlyNaN_fmul.same _ _ hx.1 hy.2) (drawsOnlyNaN_fmul.same _ _ hx.2 hy.1)⟩

theorem SameSample.cdivn (hx : SameSample x x') (N : Nat) :
    SameSample (cdivn (hardware c) d x N) (cdivn (hardware c) d' x' N) :=
  ⟨drawsOnlyNaN_fdiv.same _ _ hx.1 (.refl _), drawsOnlyNaN_fdiv.same _ _ hx.2 (.refl _)⟩

end

/-- Two pairs of samples that agree up to the free bits of a NaN. -/
def SamePair (p q : Sample × Sample) : Prop := SameSample p.1 q.1 ∧ SameSample p.2 q.2

theorem SamePair.bfly (c : TwChoice) (d d' : Draw) (dir : Dir) (k N : Nat) {p q : Sample × Sample} (h : SamePair p q) :
    SamePair (bfly (hardware c) d dir k N p.1 p.2) (bfly (hardware c) d' dir k N q.1 q.2) := by
  obtain ⟨hE, hO⟩ := h
  have hT := SameSample.cmul c (d.at 0) (d'.at 0) (SameSample.refl ((hardware c).tw dir k N)) hO
  exact ⟨hE.cadd c _ _ hT, hE.csub c _ _ hT⟩

/-! ## Sequences -/

open List (Forall₂)

theorem forall₂_evens {α : Type} {r : α → α → Prop} : ∀ {x y : List α}, Forall₂ r x y → Forall₂ r (evens x) (evens y)
  | _, _, .nil => .nil
  | _, _, .cons ha .nil => .cons ha .nil
  | _, _, .cons ha (.cons _ ht) => .cons ha (forall₂_evens ht)

theorem forall₂_odds {α : Type} {r : α → α → Prop} : ∀ {x y : List α}, Forall₂ r x y → Forall₂ r (odds x) (odds y)
  | _, _, .nil => .nil
  | _, _, .cons _ .nil => .nil
  | _, _, .cons _ (.cons hb ht) => .cons hb (forall₂_odds ht)

theorem forall₂_mapIdx {α β : Type} {r : α → α → Prop} {q : β → β → Prop} {f g : Nat → α → β} {x y : List α}
    (h : Forall₂ r x y) (hfg : ∀ i a b, r a b → q (f i a) (g i b)) : Forall₂ q (x.mapIdx f) (y.mapIdx g) := by
  induction h generalizing f g with
  | nil => exact .nil
  | cons hab _ ih =>
    rw [List.mapIdx_cons, List.mapIdx_cons]
    exact .cons (hfg 0 _ _ hab) (ih fun i => hfg (i + 1))

theorem samePair_zip {E E' O O' : List Sample} (hE : Forall₂ SameSample E E') (hO : Forall₂ SameSample O O') :
    Forall₂ SamePair (E.zip O) (E'.zip O') := by
  induction hE generalizing O O' with
  | nil => exact .nil
  | cons ha _ ih =>
    cases hO with
    | nil => exact .nil
    | cons hb hO => exact .cons ⟨ha, hb⟩ (ih hO)

theorem combine_same (c : TwChoice) (d d' : Draw) (dir : Dir) (N : Nat) {E E' O O' : List Sample}
    (hE : Forall₂ SameSample E E') (hO : Forall₂ SameSample O O') :
    Forall₂ SameSample (combine (hardware c) d dir N E O) (combine (hardware c) d' dir N E' O') := by
  have hout := forall₂_mapIdx (samePair_zip hE hO) fun k _ _ h => h.bfly c (d.at k) (d'.at k) dir k N
  exact List.rel_append (List.rel_map (fun _ _ h => h.1) hout) (List.rel_map (fun _ _ h => h.2) hout)

theorem xform_same (c : TwChoice) (d d' : Draw) (dir : Dir) (n : Nat) {x x' : List Sample} (h : Forall₂ SameSample x x') :
    Forall₂ SameSample (xform (hardware c) d dir n x) (xform (hardware c) d' dir n x') := by
  induction n generalizing d d' x x' with
  | zero => exact h
  | succ n ih => exact combine_same c _ _ dir _ (ih _ _ (forall₂_evens h)) (ih _ _ (forall₂_odds h))

theorem fft_same (c : TwChoice) (d d' : Draw) (n : Nat) {x x' : List Sample} (h : Forall₂ SameSample x x') :
    Forall₂ SameSample (fft (hardware c) d n x) (fft (hardware c) d' n x') := xform_same c d d' .forward n h

theorem ifft_same (c : TwChoice) (d d' : Draw) (n : Nat) {x x' : List Sample} (h : Forall₂ SameSample x x') :
    Forall₂ SameSample (ifft (hardware c) d n x) (ifft (hardware c) d' n x') :=
  forall₂_mapIdx (xform_same c _ _ .inverse n h) fun _ _ _ hy => hy.cdivn c _ _ (2 ^ n)

end Sys2Proof.Machine
end

section
/-! SUPPORT. The sequence operations when their checks pass, and when their ranges overlap (44_bitrev.md R158, 45_transform_engine.md
R170, R171, 20_memory.md R66). -/

namespace Sys2Proof.Machine

theorem exec_bitrev (a b len : Word32) (s : State) : exec (.bitrev a b len) s = execBitrev a b len s := rfl

theorem exec_fft (a b len : Word32) (s : State) : exec (.fft a b len) s = execFft a b len s := rfl

theorem exec_ifft (a b len : Word32) (s : State) : exec (.ifft a b len) s = execIfft a b len s := rfl

/-! ## Checks that pass -/

theorem overlap_eq_false {a b n : Nat} (h : a + n ≤ b ∨ b + n ≤ a) : overlap a b n = false := by
  rw [overlap, Bool.and_eq_false_iff, decide_eq_false_iff_not, decide_eq_false_iff_not]
  omega

section
variable {a b len : Word32} {n : Nat} {s : State}

theorem SequenceReady.checks_pass (h : SequenceReady s a b len n) :
    firstFailure (sequenceChecks s (address a) (address b) (integer len)) = none := by
  rw [sequenceChecks_pass, h.length]
  exact ⟨isPow2_two_pow n, h.served, h.sourceExists, h.destinationExists, overlap_eq_false h.disjoint⟩

/-- The checks read the parameters of the build only. -/
theorem SequenceReady.of_cfg {s' : State} (h : SequenceReady s a b len n) (hcfg : s'.cfg = s.cfg) :
    SequenceReady s' a b len n where
  length := h.length
  served := hcfg ▸ h.served
  sourceExists := hcfg ▸ h.sourceExists
  destinationExists := hcfg ▸ h.destinationExists
  disjoint := h.disjoint

theorem SequenceReady.log2_len (h : SequenceReady s a b len n) : log2 (integer len) = n := by
  rw [h.length, log2_two_pow]

theorem exec_bitrev_of_ready (h : SequenceReady s a b len n) : exec (.bitrev a b len) s =
    .next (s.memWrite (address b) (bitrev n (s.memRead (address a) (2 ^ n)))).respondOk := by
  rw [← h.length, ← h.log2_len]
  exact (exec_bitrev a b len s).trans (command_of_pass _ s h.checks_pass)

theorem exec_fft_of_ready (h : SequenceReady s a b len n) : exec (.fft a b len) s =
    .next (s.memWrite (address b) (fft (hardware s.cfg.tw) s.place n (s.memRead (address a) (2 ^ n)))).respondOk := by
  rw [← h.length, ← h.log2_len]
  exact (exec_fft a b len s).trans (command_of_pass _ s h.checks_pass)

theorem exec_ifft_of_ready (h : SequenceReady s a b len n) : exec (.ifft a b len) s =
    .next (s.memWrite (address b) (ifft (hardware s.cfg.tw) s.place n (s.memRead (address a) (2 ^ n)))).respondOk := by
  rw [← h.length, ← h.log2_len]
  exact (exec_ifft a b len s).trans (command_of_pass _ s h.checks_pass)

end

/-! ## The destination is a function of the source range -/

theorem memRead_congr {s s' : State} {a n : Nat} (h : ∀ i, i < n → s'.word (a + i) = s.word (a + i)) :
    s'.memRead a n = s.memRead a n := List.map_congr_left fun i hi => h i (List.mem_range.mp hi)

/-- A word of the range just written. -/
theorem word_memWrite_inside (s : State) (b : Nat) {vs : List Sample} {i : Nat} (h : i < vs.length) :
    (s.memWrite b vs).word (b + i) = vs[i] := by
  rw [word_memWrite, if_pos (by omega), Nat.add_sub_cancel_left, List.getElem?_eq_getElem h, Option.getD_some]

theorem sameSample_memWrite (s s' : State) (b : Nat) {vs vs' : List Sample} (h : List.Forall₂ SameSample vs' vs) {i : Nat}
    (hi : i < vs.length) : SameSample ((s'.memWrite b vs').word (b + i)) ((s.memWrite b vs).word (b + i)) := by
  have hi' : i < vs'.length := h.length_eq ▸ hi
  rw [word_memWrite_inside s b hi, word_memWrite_inside s' b hi']
  exact h.get hi' hi

/-- Settles O20: both states read the same source sequence, and only the places of the operations differ. -/
theorem destinationDependsOnSourceAlone : Obligations.DestinationDependsOnSourceAlone := by
  intro a b len n s s' h hcfg hsource
  have h' := h.of_cfg hcfg
  have hread := memRead_congr hsource
  have hlen := memRead_length s (address a) (2 ^ n)
  have hsame : List.Forall₂ SameSample (s'.memRead (address a) (2 ^ n)) (s.memRead (address a) (2 ^ n)) :=
    hread ▸ List.forall₂_same.mpr fun x _ => .refl x
  refine ⟨⟨_, _, exec_bitrev_of_ready h, exec_bitrev_of_ready h', fun i hi => ?_⟩, fun op hop => ?_⟩
  · have hi' : i < (bitrev n (s.memRead (address a) (2 ^ n))).length := by rwa [bitrev_length]
    rw [hread, word_respondOk, word_respondOk, word_memWrite_inside s _ hi', word_memWrite_inside s' _ hi']
  · simp only [List.mem_cons, List.not_mem_nil, or_false] at hop
    rcases hop with rfl | rfl
    · refine ⟨_, _, exec_fft_of_ready h, exec_fft_of_ready h', fun i hi => ?_⟩
      exact sameSample_memWrite s s' _ (hcfg ▸ fft_same s'.cfg.tw _ _ n hsame) (by rwa [fft_length _ _ _ _ hlen])
    · refine ⟨_, _, exec_ifft_of_ready h, exec_ifft_of_ready h', fun i hi => ?_⟩
      exact sameSample_memWrite s s' _ (hcfg ▸ ifft_same s'.cfg.tw _ _ n hsame) (by rwa [ifft_length _ _ _ _ hlen])

/-! ## Overlap -/

theorem overlap_eq_true {a b n : Nat} : overlap a b n = true ↔ a < b + n ∧ b < a + n := by simp [overlap]

/-- The greater base is the shared address. -/
theorem overlap_iff_shared (a b n : Nat) :
    overlap a b n = true ↔ ∃ x, (a ≤ x ∧ x < a + n) ∧ (b ≤ x ∧ x < b + n) := by
  rw [overlap_eq_true]
  constructor
  · intro h
    exact ⟨max a b, by omega, by omega⟩
  · rintro ⟨x, hx⟩
    omega

/-- With the earlier checks passed, the last one answers (R218). -/
theorem sequenceChecks_overlap {s : State} {a b len : Nat} (hpow : isPow2 len = true) (hserved : len ≤ s.cfg.lenMax)
    (ha : a + len ≤ s.cfg.smSize) (hb : b + len ≤ s.cfg.smSize) (hover : overlap a b len = true) :
    firstFailure (sequenceChecks s a b len) = some .overlap := by
  simp [sequenceChecks, firstFailure, lengthCheck, resourceCheck, rangeCheck, overlapCheck, *]

theorem exec_sequence_of_fail {a b len : Word32} {s : State} {e : Response}
    (h : firstFailure (sequenceChecks s (address a) (address b) (integer len)) = some e) :
    ∀ op ∈ [Instr.bitrev a b len, Instr.fft a b len, Instr.ifft a b len], exec op s = .next (s.raiseError e) := by
  simp only [List.forall_mem_cons, List.not_mem_nil, false_imp_iff, implies_true, and_true]
  exact ⟨(exec_bitrev a b len s).trans (command_of_fail _ s h), (exec_fft a b len s).trans (command_of_fail _ s h),
    (exec_ifft a b len s).trans (command_of_fail _ s h)⟩

/-- Settles O31, from the meaning of `overlap` and the order of the checks. -/
theorem overlappingRangesRefused : Obligations.OverlappingRangesRefused := by
  refine ⟨overlap_iff_shared, fun a n hn => overlap_eq_true.mpr (by omega), ?_⟩
  intro a b len s hpow hserved ha hb hover op hop
  have hfail := sequenceChecks_overlap ((isPow2_iff _).mpr hpow) hserved ha hb hover
  exact ⟨_, exec_sequence_of_fail hfail op hop, failed_raiseError s (by decide)⟩

end Sys2Proof.Machine
end

section
/-! SUPPORT. The SM port (20_memory.md R55, R56): an equation for each access, on both sides of `SM_SIZE`. -/

namespace Sys2Proof.Machine

section
variable {a : Word32} {s : State}

theorem perform_smWrite_of_lt (h : address a < s.cfg.smSize) (w : Word) :
    perform (.smWrite a w) s = .next ((s.memWrite (address a) [ofWord w]).answer .done) :=
  congrArg Host.Outcome.next (if_pos h)

theorem perform_smWrite_of_ge (h : s.cfg.smSize ≤ address a) (w : Word) :
    perform (.smWrite a w) s = .next (s.answer .herr) :=
  congrArg Host.Outcome.next (if_neg h.not_gt)

theorem perform_smRead_of_lt (h : address a < s.cfg.smSize) :
    perform (.smRead a) s = .next (s.answer (.word (toWord (s.word (address a))))) :=
  congrArg Host.Outcome.next (if_pos h)

theorem perform_smRead_of_ge (h : s.cfg.smSize ≤ address a) : perform (.smRead a) s = .next (s.answer .herr) :=
  congrArg Host.Outcome.next (if_neg h.not_gt)

end

/-- Settles O28: the stored word is read back through `ofWord`, and the write is outside every other word. -/
theorem smPortAccess : Obligations.SmPortAccess := by
  intro a w s
  refine ⟨fun h => ⟨_, perform_smWrite_of_lt h w, ?stored, fun _ hx => ?kept, rfl⟩, fun h => perform_smWrite_of_ge h w,
    perform_smRead_of_lt, perform_smRead_of_ge⟩
  case stored =>
    have hword : (s.memWrite (address a) [ofWord w]).word (address a) = ofWord w :=
      word_memWrite_inside s (address a) (vs := [ofWord w]) Nat.one_pos
    rw [word_answer, hword, toWord_ofWord]
  case kept => exact word_memWrite_outside s hx

end Sys2Proof.Machine
end

section
/-! SUPPORT. The fields of a descriptor (30_encoding.md R71 to R73): what each field of a packed descriptor reads as, and that a
descriptor is packed from its fields. -/

namespace Sys2Proof

/-! ## Registers and the direction (R72) -/

@[simp] theorem regOf_regBits (r : Reg) : regOf (regBits r) = r := rfl

@[simp] theorem regBits_regOf (b : BitVec 4) : regBits (regOf b) = b := rfl

@[simp] theorem dirOf_dirBits (d : Dir) : dirOf (dirBits d) = d := by cases d <;> rfl

@[simp] theorem dirBits_dirOf (b : BitVec 1) : dirBits (dirOf b) = b := by
  rcases BitVec.eq_zero_or_eq_one b with rfl | rfl <;> rfl

@[simp] theorem regOf_eq_zero {b : BitVec 4} : regOf b = 0 ↔ b = 0#4 :=
  ⟨fun h => congrArg regBits h, fun h => congrArg regOf h⟩

@[simp] theorem dirOf_eq_forward {b : BitVec 1} : dirOf b = .forward ↔ b = 0#1 := by simp [dirOf]

/-! ## The positions of the fields (R71) -/

section
variable (op : BitVec 8) (f : Fields)

@[simp] theorem opField_pack : opField (pack op f) = op := by
  unfold opField pack
  iterate 9 rw [BitVec.extractLsb'_append_eq_of_le (by decide)]
  exact BitVec.extractLsb'_eq_self

@[simp] theorem rdBits_pack : rdBits (pack op f) = regBits f.rd := by
  unfold rdBits pack
  iterate 8 rw [BitVec.extractLsb'_append_eq_of_le (by decide)]
  exact BitVec.extractLsb'_append_eq_right

@[simp] theorem rd2Bits_pack : rd2Bits (pack op f) = regBits f.rd2 := by
  unfold rd2Bits pack
  iterate 7 rw [BitVec.extractLsb'_append_eq_of_le (by decide)]
  exact BitVec.extractLsb'_append_eq_right

@[simp] theorem raBits_pack : raBits (pack op f) = regBits f.ra := by
  unfold raBits pack
  iterate 6 rw [BitVec.extractLsb'_append_eq_of_le (by decide)]
  exact BitVec.extractLsb'_append_eq_right

@[simp] theorem rbBits_pack : rbBits (pack op f) = regBits f.rb := by
  unfold rbBits pack
  iterate 5 rw [BitVec.extractLsb'_append_eq_of_le (by decide)]
  exact BitVec.extractLsb'_append_eq_right

@[simp] theorem rsvBits_pack : rsvBits (pack op f) = 0#7 := by
  unfold rsvBits pack
  iterate 4 rw [BitVec.extractLsb'_append_eq_of_le (by decide)]
  exact BitVec.extractLsb'_append_eq_right

@[simp] theorem dirBit_pack : dirBit (pack op f) = dirBits f.dir := by
  unfold dirBit pack
  iterate 3 rw [BitVec.extractLsb'_append_eq_of_le (by decide)]
  exact BitVec.extractLsb'_append_eq_right

@[simp] theorem aField_pack : aField (pack op f) = f.a := by
  unfold aField pack
  iterate 2 rw [BitVec.extractLsb'_append_eq_of_le (by decide)]
  exact BitVec.extractLsb'_append_eq_right

@[simp] theorem bField_pack : bField (pack op f) = f.b := by
  unfold bField pack
  rw [BitVec.extractLsb'_append_eq_of_le (by decide)]
  exact BitVec.extractLsb'_append_eq_right

@[simp] theorem lenField_pack : lenField (pack op f) = f.len := BitVec.extractLsb'_append_eq_right

end

/-- The ten fields of R71 are adjacent and cover the descriptor. -/
theorem append_fields (D : Word) : opField D ++ rdBits D ++ rd2Bits D ++ raBits D ++ rbBits D ++ rsvBits D ++ dirBit D ++
    aField D ++ bField D ++ lenField D = D := by
  unfold opField rdBits rd2Bits raBits rbBits rsvBits dirBit aField bField lenField
  iterate 9 rw [BitVec.extractLsb'_append_extractLsb'_eq_extractLsb' (by decide)]
  exact BitVec.extractLsb'_eq_self

/-- The operands a descriptor names, whatever its operation (R72). -/
def fieldsOf (D : Word) : Fields :=
  { rd := regOf (rdBits D), rd2 := regOf (rd2Bits D), ra := regOf (raBits D), rb := regOf (rbBits D),
    dir := dirOf (dirBit D), a := aField D, b := bField D, len := lenField D }

@[simp] theorem fieldsOf_pack (op : BitVec 8) (f : Fields) : fieldsOf (pack op f) = f := by simp [fieldsOf]

theorem pack_fieldsOf {D : Word} (h : rsvBits D = 0#7) : pack (opField D) (fieldsOf D) = D := by
  calc pack (opField D) (fieldsOf D)
      = opField D ++ rdBits D ++ rd2Bits D ++ raBits D ++ rbBits D ++ rsvBits D ++ dirBit D ++ aField D ++ bField D ++
          lenField D := by simp [pack, fieldsOf, h]
    _ = D := append_fields D

/-! ## The fields a format uses (R73) -/

/-- The operands `f` with those that are not in use set to zero. -/
def Fields.restrict (u : Uses) (f : Fields) : Fields where
  rd := if u.rd then f.rd else 0
  rd2 := if u.rd2 then f.rd2 else 0
  ra := if u.ra then f.ra else 0
  rb := if u.rb then f.rb else 0
  dir := if u.dir then f.dir else .forward
  a := if u.a then f.a else 0#32
  b := if u.b then f.b else 0#32
  len := if u.len then f.len else 0#32

theorem ite_used_eq_self {α : Type} {used : Bool} {x zero : α} :
    (if used then x else zero) = x ↔ used = true ∨ x = zero := by
  cases used <;> simp [eq_comm]

/-- R80b on the operands: nothing changes when those not in use are set to zero. -/
theorem unusedZero_iff {u : Uses} {D : Word} :
    unusedZero u D = true ↔ rsvBits D = 0#7 ∧ (fieldsOf D).restrict u = fieldsOf D := by
  simp only [unusedZero, fieldsOf, Fields.restrict, Fields.mk.injEq, ite_used_eq_self, Bool.and_eq_true, Bool.or_eq_true,
    beq_iff_eq, regOf_eq_zero, dirOf_eq_forward, and_assoc, and_left_comm]

theorem unusedZero_pack {u : Uses} {f : Fields} (op : BitVec 8) (h : f.restrict u = f) : unusedZero u (pack op f) = true :=
  unusedZero_iff.mpr ⟨rsvBits_pack op f, by rw [fieldsOf_pack, h]⟩

theorem pack_restrict_of_unusedZero {u : Uses} {D : Word} (h : unusedZero u D = true) :
    pack (opField D) ((fieldsOf D).restrict u) = D := by
  obtain ⟨hrsv, hfields⟩ := unusedZero_iff.mp h
  rw [hfields, pack_fieldsOf hrsv]

theorem inFormat_eq_ok {fmt : Format} {D : Word} {i j : Instr} :
    inFormat fmt D i = .ok j ↔ unusedZero fmt.uses D = true ∧ i = j := by
  unfold inFormat
  split <;> simp [*]

theorem inFormat_pack {fmt : Format} {f : Fields} (op : BitVec 8) (i : Instr) (h : f.restrict fmt.uses = f) :
    inFormat fmt (pack op f) i = .ok i :=
  inFormat_eq_ok.mpr ⟨unusedZero_pack op h, rfl⟩

end Sys2Proof
end

section
/-! SUPPORT. The decoder and the encoder are inverse to each other (30_encoding.md R79, R80, R84). -/

namespace Sys2Proof

theorem wellFormed_bfly {rd rd2 ra rb : Reg} {dir : Dir} {k len : Word32} :
    WellFormed (.bfly rd rd2 ra rb dir k len) ↔ rd ≠ rd2 := bne_iff_ne

/-- Settles O2: each field of the packed descriptor reads as its operand, and the fields outside the format are zero; BFLY has
the one further check. -/
theorem decodeOfEncode : Obligations.DecodeOfEncode := by
  intro i hi
  cases i with
  | bfly rd rd2 ra rb dir k len =>
    have hne : rd ≠ rd2 := wellFormed_bfly.mp hi
    simp [encode, decode, unusedZero_pack, Fields.restrict, Format.uses, hne]
  | _ => simp [encode, decode, inFormat_pack, Fields.restrict, Format.uses]

/-- A descriptor accepted as `i` in a format is that of `i`, when `i` encodes to the used fields of the descriptor. -/
theorem encode_of_inFormat {fmt : Format} {D : Word} {i j : Instr} (h : inFormat fmt D i = .ok j) (hwf : WellFormed i)
    (hi : encode i = pack (opField D) ((fieldsOf D).restrict fmt.uses)) : WellFormed j ∧ encode j = D := by
  obtain ⟨hzero, rfl⟩ := inFormat_eq_ok.mp h
  exact ⟨hwf, hi.trans (pack_restrict_of_unusedZero hzero)⟩

/-- Settles O3, by the rows of the opcode map: the command of a row encodes to the fields its format uses, and the others are
zero. -/
theorem encodeOfDecode : Obligations.EncodeOfDecode := by
  intro D i h
  simp only [decode] at h
  split at h
  case h_8 hop => -- BFLY
    split at h
    case isFalse => cases h
    case isTrue hzero =>
      split at h
      case isTrue => cases h
      case isFalse hne =>
        cases h
        have hfields := pack_restrict_of_unusedZero hzero
        rw [hop] at hfields
        exact ⟨wellFormed_bfly.mpr hne, hfields⟩
  case h_12 hop => -- FFT and IFFT, told apart by `dir`
    cases hdir : dirOf (dirBit D)
    all_goals
      rw [hdir] at h
      exact encode_of_inFormat h rfl (by rw [hop, encode, fieldsOf, hdir]; rfl)
  case h_13 => cases h -- no operation
  all_goals
    rename_i hop
    exact encode_of_inFormat h rfl (by rw [hop]; rfl)

/-- Settles O1: the decoder is run on the fifteen descriptors; that they are what their commands encode to is O3. -/
theorem decodesSpecWords : Obligations.DecodesSpecWords := by
  have hdecode : ∀ row ∈ Machine.workedEncodings, decode row.1 = .ok row.2 := by decide
  intro row hrow
  exact ⟨hdecode row hrow, (encodeOfDecode row.1 row.2 (hdecode row hrow)).2⟩

end Sys2Proof
end

section
/-! SUPPORT. A pattern is its sign and its magBits, the lower 63 bits (40_numerics.md R100); the rows of R101 are ranges of the
magBits, and negation changes the sign alone (R102). -/

namespace Sys2Proof.Machine

/-- The lower 63 bits of a pattern: its place among the patterns of its sign. -/
def magBits (x : F) : Nat := x.toNat % 2 ^ 63

theorem magBits_lt (x : F) : magBits x < 2 ^ 63 := Nat.mod_lt _ (by norm_num)

theorem infMag_lt : infMag < 2 ^ 63 := by decide

@[simp] theorem ofSignMag_magBits (x : F) : ofSignMag (signBit x) (magBits x) = x := by
  have hx := x.isLt
  apply BitVec.eq_of_toNat_eq
  rw [ofSignMag_toNat _ (magBits_lt x), signBit_eq, magBits]
  by_cases h : 2 ^ 63 ≤ x.toNat
  · simp only [h, decide_true, if_true]; omega
  · simp only [h, decide_false, Bool.false_eq_true, if_false]; omega

theorem magBits_ofSignMag (neg : Bool) {m : Nat} (h : m < 2 ^ 63) : magBits (ofSignMag neg m) = m := by
  rw [magBits, ofSignMag_toNat neg h]
  cases neg <;> simp <;> omega

/-- Patterns of one sign and one magnitude are equal. -/
theorem eq_of_sign_magBits {x y : F} (hs : signBit x = signBit y) (hm : magBits x = magBits y) : x = y := by
  rw [← ofSignMag_magBits x, hs, hm, ofSignMag_magBits]

theorem units_eq (x : F) : units x = magUnits (magBits x) := units_eq_magUnits x

/-! ## The rows of R101 -/

theorem isNaN_iff {x : F} : isNaN x = true ↔ infMag < magBits x := by
  rw [isNaN, expField_eq, fracField_eq, Bool.and_eq_true, beq_iff_eq, bne_iff_ne, magBits, infMag]
  omega

theorem isInf_iff {x : F} : isInf x = true ↔ magBits x = infMag := by
  rw [isInf, expField_eq, fracField_eq, Bool.and_eq_true, beq_iff_eq, beq_iff_eq, magBits, infMag]
  omega

theorem isFinite_iff_magBits {x : F} : isFinite x = true ↔ magBits x < infMag := by
  rw [isFinite_iff, natAbs_orderKey, magBits]

theorem isZero_iff {x : F} : isZero x = true ↔ magBits x = 0 := by
  rw [isZero, expField_eq, fracField_eq, Bool.and_eq_true, beq_iff_eq, beq_iff_eq, magBits]
  omega

/-- Every pattern is a NaN, an infinity or finite. -/
theorem class_cases (x : F) : isNaN x = true ∨ isInf x = true ∨ isFinite x = true := by
  rw [isNaN_iff, isInf_iff, isFinite_iff_magBits]
  omega

theorem isFinite_of_isZero {x : F} (h : isZero x = true) : isFinite x = true := by
  rw [isZero_iff] at h
  rw [isFinite_iff_magBits, h]
  decide

theorem isNaN_of_isInf {x : F} (h : isInf x = true) : isNaN x = false := by
  rw [isInf_iff] at h
  rw [← Bool.not_eq_true, isNaN_iff]
  omega

theorem isZero_of_isInf {x : F} (h : isInf x = true) : isZero x = false := by
  rw [isInf_iff] at h
  rw [← Bool.not_eq_true, isZero_iff, h]
  decide

theorem isInf_of_isZero {x : F} (h : isZero x = true) : isInf x = false := isInf_of_isFinite (isFinite_of_isZero h)

/-- An infinity is the one of its sign. -/
theorem eq_infinity {x : F} (h : isInf x = true) : infinity (signBit x) = x := by
  rw [infinity, ← isInf_iff.mp h, ofSignMag_magBits]

theorem isNaN_ofSignMag (neg : Bool) {m : Nat} (h : m ≤ infMag) : isNaN (ofSignMag neg m) = false := by
  rw [← Bool.not_eq_true, isNaN_iff, magBits_ofSignMag neg (lt_of_le_of_lt h infMag_lt)]
  omega

@[simp] theorem isInf_infinity (neg : Bool) : isInf (infinity neg) = true := by cases neg <;> decide

@[simp] theorem isNaN_infinity (neg : Bool) : isNaN (infinity neg) = false := by cases neg <;> decide

@[simp] theorem signBit_infinity (neg : Bool) : signBit (infinity neg) = neg := by cases neg <;> decide

/-! ## Zeros -/

theorem magUnits_eq_zero {m : Nat} : magUnits m = 0 ↔ m = 0 := magUnits_strictMono.injective.eq_iff (b := 0)

theorem isZero_iff_units {x : F} : isZero x = true ↔ units x = 0 := by
  rw [isZero_iff, units_eq, magUnits_eq_zero]

theorem units_pos {x : F} (h : isZero x = false) : 0 < units x := by
  rw [← Bool.not_eq_true, isZero_iff_units] at h
  omega

theorem signedUnits_eq_zero {x : F} : signedUnits x = 0 ↔ isZero x = true := by
  rw [isZero_iff_units, signedUnits]
  split <;> omega

theorem value_eq_zero {x : F} : value x = 0 ↔ isZero x = true := by
  rw [value, div_eq_zero_iff, ← signedUnits_eq_zero]
  simp

/-! ## Negation -/

@[simp] theorem signBit_fneg (x : F) : signBit (fneg x) = !signBit x := by simp [signBit, fneg]

@[simp] theorem magBits_fneg (x : F) : magBits (fneg x) = magBits x := by
  have h (y : F) : magBits y = (y.extractLsb' 0 63).toNat := by simp [magBits]
  rw [h, h, fneg, BitVec.extractLsb'_xor]
  exact congrArg BitVec.toNat BitVec.xor_zero

@[simp] theorem fneg_fneg (x : F) : fneg (fneg x) = x := eq_of_sign_magBits (by simp) (by simp)

theorem fneg_ofSignMag (neg : Bool) {m : Nat} (h : m < 2 ^ 63) : fneg (ofSignMag neg m) = ofSignMag (!neg) m :=
  eq_of_sign_magBits (by rw [signBit_fneg, signBit_ofSignMag _ h, signBit_ofSignMag _ h])
    (by rw [magBits_fneg, magBits_ofSignMag _ h, magBits_ofSignMag _ h])

@[simp] theorem isFinite_fneg (x : F) : isFinite (fneg x) = isFinite x := by
  rw [Bool.eq_iff_iff, isFinite_iff_magBits, isFinite_iff_magBits, magBits_fneg]

@[simp] theorem isInf_fneg (x : F) : isInf (fneg x) = isInf x := by
  rw [Bool.eq_iff_iff, isInf_iff, isInf_iff, magBits_fneg]

@[simp] theorem isZero_fneg (x : F) : isZero (fneg x) = isZero x := by
  rw [Bool.eq_iff_iff, isZero_iff, isZero_iff, magBits_fneg]

@[simp] theorem units_fneg (x : F) : units (fneg x) = units x := by rw [units_eq, units_eq, magBits_fneg]

@[simp] theorem signedUnits_fneg (x : F) : signedUnits (fneg x) = -signedUnits x := by
  rw [signedUnits, signedUnits, signBit_fneg, units_fneg]
  cases signBit x <;> simp

@[simp] theorem value_fneg (x : F) : value (fneg x) = -value x := by
  rw [value, value, signedUnits_fneg, Int.cast_neg, neg_div]

/-- The fraction of a number has the parity of its magnitude. -/
theorem fracField_mod_two (x : F) : fracField x % 2 = magBits x % 2 := by
  rw [fracField_eq, magBits]; omega

end Sys2Proof.Machine
end

section
/-! SUPPORT. The one rounding of the model, `roundMag`, is correct (40_numerics.md R102, R104a, R104b): the pattern it chooses
lies between the midpoints to its neighbours in the numeric order, with the even pattern on a midpoint, and that is what
`RoundsTo` asks for. -/

namespace Sys2Proof.Machine

/-! ## What lies between the midpoints is correctly rounded -/

/-- Twice the midpoint of the greatest finite number and the next power of two is twice the overflow threshold. -/
theorem keyValue_top : keyValue (infMag - 1) + keyValue infMag = 2 * (2 ^ 1024 - 2 ^ 970) := by
  have h : keyUnits (infMag - 1) + keyUnits infMag = 2 * (2 ^ 1024 - 2 ^ 970) * 2 ^ 1074 := by decide +kernel
  rw [keyValue, keyValue, ← add_div, div_eq_iff (by positivity)]
  exact_mod_cast congrArg (Int.cast : ℤ → ℝ) h

/-- A number between the midpoints around the place `k`: no other place is nearer, and one is as near only at a midpoint. -/
theorem nearest_between_midpoints {r : ℝ} {k : Int} (hlo : (keyValue (k - 1) + keyValue k) / 2 ≤ r)
    (hhi : r ≤ (keyValue k + keyValue (k + 1)) / 2) {j : Int} (hj : j ≠ k) :
    |keyValue k - r| ≤ |keyValue j - r| ∧ (|keyValue k - r| = |keyValue j - r| →
      r = (keyValue (k - 1) + keyValue k) / 2 ∨ r = (keyValue k + keyValue (k + 1)) / 2) := by
  have hbelow := keyValue_strictMono (show k - 1 < k by omega)
  have habove := keyValue_strictMono (show k < k + 1 by omega)
  rcases lt_or_gt_of_ne hj with hlt | hgt
  · have hle := keyValue_strictMono.monotone (show j ≤ k - 1 by omega)
    rw [abs_sub_comm (keyValue j), abs_of_pos (show 0 < r - keyValue j by linarith)]
    refine ⟨abs_le.mpr ⟨by linarith, by linarith⟩, fun heq => .inl ?_⟩
    rcases abs_cases (keyValue k - r) with ⟨h, -⟩ | ⟨h, -⟩ <;> linarith
  · have hle := keyValue_strictMono.monotone (show k + 1 ≤ j by omega)
    rw [abs_of_pos (show 0 < keyValue j - r by linarith)]
    refine ⟨abs_le.mpr ⟨by linarith, by linarith⟩, fun heq => .inr ?_⟩
    rcases abs_cases (keyValue k - r) with ⟨h, -⟩ | ⟨h, -⟩ <;> linarith

/-- The real number `r` lies between the midpoints around the place `k` of the numeric order, on one only for an even `k`. -/
structure Between (r : ℝ) (k : Int) : Prop where
  below : (keyValue (k - 1) + keyValue k) / 2 ≤ r
  above : r ≤ (keyValue k + keyValue (k + 1)) / 2
  even : r = (keyValue (k - 1) + keyValue k) / 2 ∨ r = (keyValue k + keyValue (k + 1)) / 2 → k.natAbs % 2 = 0

/-- Between midpoints of finite numbers lies nothing from the overflow threshold on: the greatest finite number is odd. -/
theorem Between.lt_overflow {r : ℝ} {k : Int} (h : Between r k) (hk : k < infMag) : r < 2 ^ 1024 - 2 ^ 970 := by
  have hmono := keyValue_strictMono.monotone (show k ≤ infMag - 1 by omega)
  have hmono' := keyValue_strictMono.monotone (show k + 1 ≤ infMag by omega)
  have htop := keyValue_top
  have habove := h.above
  refine lt_of_le_of_ne (by linarith) fun heq => ?_
  have heven := h.even (.inr (by linarith))
  have hlast : k = infMag - 1 := keyValue_strictMono.injective (by linarith)
  rw [hlast] at heven
  exact absurd heven (by decide)

/-- A finite number at a non-negative place is what every real number between the midpoints around it rounds to. -/
theorem Between.roundsTo {r : ℝ} {z : F} (h : Between r (orderKey z)) (hf : isFinite z = true) (hr : 0 ≤ r) :
    RoundsTo r z := by
  have hkey := (isFinite_iff z).mp hf
  refine ⟨fun _ => ⟨hf, fun w _ => ?_⟩, fun hover => ?_⟩
  · rw [value_eq_keyValue, value_eq_keyValue]
    by_cases hw : orderKey w = orderKey z
    · refine ⟨by rw [hw], fun _ => .inl ?_⟩
      rw [value, value, signedUnits_eq_keyUnits, signedUnits_eq_keyUnits, hw]
    · obtain ⟨hnear, htie⟩ := nearest_between_midpoints h.below h.above hw
      exact ⟨hnear, fun heq => .inr ((fracField_parity z).trans (h.even (htie heq)))⟩
  · rw [abs_of_nonneg hr] at hover
    exact absurd (h.lt_overflow (by omega)) (not_lt.mpr hover)

/-! ## The pattern that `roundMag` chooses lies between the midpoints -/

/-- The spacing of the finite numbers: one unit for a subnormal, doubling with every exponent. -/
theorem magUnits_succ (m : Nat) : magUnits (m + 1) = magUnits m + 2 ^ (m / 2 ^ 52 - 1) := by
  unfold magUnits
  by_cases hc : m % 2 ^ 52 = 2 ^ 52 - 1
  · have h1 : (m + 1) / 2 ^ 52 = m / 2 ^ 52 + 1 := by omega
    have h2 : (m + 1) % 2 ^ 52 = 0 := by omega
    rw [h1, h2, hc, if_neg (Nat.succ_ne_zero _)]
    split
    · next h => rw [h]; rfl
    · next h =>
      obtain ⟨e, he⟩ : ∃ e, m / 2 ^ 52 = e + 1 := ⟨m / 2 ^ 52 - 1, by omega⟩
      rw [he, Nat.add_sub_cancel, Nat.add_sub_cancel, pow_succ]
      ring
  · have h1 : (m + 1) / 2 ^ 52 = m / 2 ^ 52 := by omega
    have h2 : (m + 1) % 2 ^ 52 = m % 2 ^ 52 + 1 := by omega
    rw [h1, h2]
    split
    · next h => rw [h]; rfl
    · ring

/-- Only an even integer is chosen for a number half way between two. -/
theorem roundHalfEven_even {a D : Nat} (hD : 0 < D)
    (h : 2 * a = 2 * (roundHalfEven a D * D) + D ∨ 2 * a + D = 2 * (roundHalfEven a D * D)) : roundHalfEven a D % 2 = 0 := by
  have hdiv := Nat.div_add_mod a D
  have hr := Nat.mod_lt a hD
  have hcomm : D * (a / D) = a / D * D := mul_comm _ _
  simp only [roundHalfEven] at *
  split_ifs at * with hlt hgt
  · omega
  · rw [add_mul] at h
    omega
  · omega

/-- The bits that rounding to 53 drops (R102). -/
def droppedBits (num den : Nat) : Nat := Nat.log2 (num / den) - 52

/-- The significand that is left, a carry included. -/
def significand (num den : Nat) : Nat := roundHalfEven num (den * 2 ^ droppedBits num den)

/-- The pattern nearest the magnitude `num / den` units in the format with no greatest exponent. -/
def roundedPattern (num den : Nat) : Nat := droppedBits num den * 2 ^ 52 + significand num den

theorem roundMag_eq (num den : Nat) : roundMag num den = min (roundedPattern num den) infMag := rfl

theorem roundMag_of_lt {a b : Nat} (h : roundedPattern a b < infMag) : roundMag a b = roundedPattern a b := min_eq_left h.le

theorem roundMag_le (a b : Nat) : roundMag a b ≤ infMag := min_le_right _ _

section
variable {a b : Nat} (hb : 0 < b)
include hb

theorem significand_ge (hd : droppedBits a b ≠ 0) : 2 ^ 52 ≤ significand a b := (roundMag_significand hb).2.resolve_left hd

theorem magUnits_roundedPattern : magUnits (roundedPattern a b) = significand a b * 2 ^ droppedBits a b :=
  magUnits_pattern (roundMag_significand hb).1 (roundMag_significand hb).2

theorem significand_near : 2 * (significand a b * (b * 2 ^ droppedBits a b)) ≤ 2 * a + b * 2 ^ droppedBits a b ∧
    2 * a ≤ 2 * (significand a b * (b * 2 ^ droppedBits a b)) + b * 2 ^ droppedBits a b :=
  roundHalfEven_near a (by positivity)

theorem significand_even (h : 2 * a = 2 * (significand a b * (b * 2 ^ droppedBits a b)) + b * 2 ^ droppedBits a b ∨
    2 * a + b * 2 ^ droppedBits a b = 2 * (significand a b * (b * 2 ^ droppedBits a b))) : significand a b % 2 = 0 :=
  roundHalfEven_even (by positivity) h

omit hb in
theorem roundedPattern_mod_two : roundedPattern a b % 2 = significand a b % 2 := by unfold roundedPattern; omega

/-- With bits dropped the magnitude has 53 significant ones before it is rounded. -/
theorem mul_le_of_dropped (hd : droppedBits a b ≠ 0) : b * (2 ^ 52 * 2 ^ droppedBits a b) ≤ a := by
  have hlog : Nat.log2 (a / b) = 52 + droppedBits a b := by unfold droppedBits at *; omega
  have hne : a / b ≠ 0 := fun h => by simp [droppedBits, h] at hd
  have hle : 2 ^ 52 * 2 ^ droppedBits a b ≤ a / b := by
    rw [← pow_add, ← hlog]
    exact Nat.log2_self_le hne
  rw [mul_comm]
  exact (Nat.le_div_iff_mul_le hb).mp hle

/-- The magnitude is at most half way to the next pattern, and half way only when the chosen one is even. -/
theorem roundedPattern_above :
    2 * a ≤ b * (magUnits (roundedPattern a b) + magUnits (roundedPattern a b + 1)) ∧
      (2 * a = b * (magUnits (roundedPattern a b) + magUnits (roundedPattern a b + 1)) → roundedPattern a b % 2 = 0) := by
  have hnear := (significand_near (a := a) hb).2
  have hspace : 2 ^ droppedBits a b ≤ 2 ^ (roundedPattern a b / 2 ^ 52 - 1) := by
    apply Nat.pow_le_pow_right two_pos
    have hge := significand_ge (a := a) hb
    unfold roundedPattern
    omega
  have hstep := Nat.mul_le_mul_left b hspace
  have hsum : b * (magUnits (roundedPattern a b) + magUnits (roundedPattern a b + 1)) =
      2 * (significand a b * (b * 2 ^ droppedBits a b)) + b * 2 ^ (roundedPattern a b / 2 ^ 52 - 1) := by
    rw [magUnits_succ, magUnits_roundedPattern hb]
    ring
  rw [hsum, roundedPattern_mod_two]
  exact ⟨by omega, fun h => significand_even hb (.inl (by omega))⟩

/-- The magnitude is at least half way from the pattern before, and half way only when the chosen one is even. -/
theorem roundedPattern_below {q : Nat} (hq : roundedPattern a b = q + 1) :
    b * (magUnits q + magUnits (q + 1)) ≤ 2 * a ∧
      (b * (magUnits q + magUnits (q + 1)) = 2 * a → roundedPattern a b % 2 = 0) := by
  have hnear := (significand_near (a := a) hb).1
  have hunits := magUnits_roundedPattern (a := a) hb
  rw [hq] at hunits
  by_cases hcarry : droppedBits a b ≠ 0 ∧ significand a b = 2 ^ 52
  · -- the spacing halves below a power of two, but the magnitude is not below it
    obtain ⟨hd, hs⟩ := hcarry
    have hle := mul_le_of_dropped hb hd
    rw [← hs, ← hunits] at hle
    have hlt := Nat.mul_lt_mul_of_pos_left (magUnits_lt_succ q) hb
    rw [mul_add]
    exact ⟨by omega, fun h => by omega⟩
  · have hspace : 2 ^ droppedBits a b ≤ 2 ^ (q / 2 ^ 52 - 1) := by
      apply Nat.pow_le_pow_right two_pos
      have hge := significand_ge (a := a) hb
      unfold roundedPattern at hq
      omega
    have hstep := Nat.mul_le_mul_left b hspace
    have hsum : b * (magUnits q + magUnits (q + 1)) + b * 2 ^ (q / 2 ^ 52 - 1) =
        2 * (significand a b * (b * 2 ^ droppedBits a b)) := by
      rw [← mul_add, add_right_comm, ← magUnits_succ q, hunits]
      ring
    rw [roundedPattern_mod_two]
    exact ⟨by omega, fun h => significand_even hb (.inr (by omega))⟩

end

/-! ## The exact magnitude lies between the midpoints -/

theorem keyValue_natCast (m : Nat) : keyValue m = (magUnits m : ℝ) / 2 ^ 1074 := by
  rw [keyValue, keyUnits, if_neg (by omega), Int.natAbs_natCast, Int.cast_natCast]

theorem keyValue_add (m n : Nat) : keyValue m + keyValue n = ((magUnits m + magUnits n : Nat) : ℝ) / 2 ^ 1074 := by
  rw [keyValue_natCast, keyValue_natCast, ← add_div, Nat.cast_add]

section
variable {a b : Nat} (hb : 0 < b)
include hb

/-- A bound between an integer number of units and the magnitude, over the real numbers. -/
theorem midpoint_le_iff {s : Nat} : (s : ℝ) / 2 ^ 1074 / 2 ≤ (a : ℝ) / b / 2 ^ 1074 ↔ b * s ≤ 2 * a := by
  have hb' : (0 : ℝ) < b := by exact_mod_cast hb
  rw [div_right_comm, div_le_div_iff_of_pos_right two_pow_pos', div_le_div_iff₀ two_pos hb', mul_comm (s : ℝ),
    mul_comm (a : ℝ)]
  exact_mod_cast Iff.rfl

theorem le_midpoint_iff {s : Nat} : (a : ℝ) / b / 2 ^ 1074 ≤ (s : ℝ) / 2 ^ 1074 / 2 ↔ 2 * a ≤ b * s := by
  have hb' : (0 : ℝ) < b := by exact_mod_cast hb
  rw [div_right_comm _ _ (2 : ℝ), div_le_div_iff_of_pos_right two_pow_pos', div_le_div_iff₀ hb' two_pos, mul_comm (s : ℝ),
    mul_comm (a : ℝ)]
  exact_mod_cast Iff.rfl

/-- The exact magnitude lies between the midpoints around the chosen pattern. -/
theorem between_roundedPattern : Between ((a : ℝ) / b / 2 ^ 1074) (roundedPattern a b) := by
  obtain ⟨habove, htieAbove⟩ := roundedPattern_above (a := a) hb
  have hbelow := fun q => roundedPattern_below (a := a) (q := q) hb
  generalize roundedPattern a b = p at *
  have hup : (keyValue p + keyValue (p + 1)) / 2 = ((magUnits p + magUnits (p + 1) : Nat) : ℝ) / 2 ^ 1074 / 2 := by
    rw [← keyValue_add, Nat.cast_succ]
  have hevenUp (h : (a : ℝ) / b / 2 ^ 1074 = (keyValue p + keyValue (p + 1)) / 2) : p % 2 = 0 := by
    rw [hup] at h
    exact htieAbove (le_antisymm ((le_midpoint_iff hb).mp h.le) ((midpoint_le_iff hb).mp h.ge))
  cases p with
  | zero =>
    have hr : (0 : ℝ) ≤ (a : ℝ) / b / 2 ^ 1074 := by positivity
    have hlo : keyValue (-1) + keyValue 0 < 0 := by
      have h0 : keyValue 0 = 0 := by simp [keyValue, keyUnits]
      have := keyValue_strictMono (show (-1 : Int) < 0 by decide)
      linarith
    exact ⟨by simp only [Nat.cast_zero, zero_sub]; linarith, hup ▸ (le_midpoint_iff hb).mpr habove, fun _ => rfl⟩
  | succ q =>
    obtain ⟨hle, htie⟩ := hbelow q rfl
    have hdown : (keyValue ((q + 1 : Nat) - 1 : Int) + keyValue (q + 1 : Nat)) / 2 =
        ((magUnits q + magUnits (q + 1) : Nat) : ℝ) / 2 ^ 1074 / 2 := by
      rw [← keyValue_add, Nat.cast_succ, add_sub_cancel_right]
    refine ⟨hdown ▸ (midpoint_le_iff hb).mpr hle, hup ▸ (le_midpoint_iff hb).mpr habove, ?_⟩
    rintro (h | h)
    · rw [hdown] at h
      exact htie (le_antisymm ((midpoint_le_iff hb).mp h.ge) ((le_midpoint_iff hb).mp h.le))
    · exact hevenUp h

end

theorem orderKey_ofSignMag_false {m : Nat} (h : m < infMag) : orderKey (ofSignMag false m) = m := by
  have hkey := ofSignMag_key (k := m) (by simpa using h)
  rwa [decide_eq_false (by omega), Int.natAbs_natCast] at hkey

/-! ## Rounding a magnitude, and its negation -/

/-- Rounding to nearest even is symmetric in the sign. -/
theorem RoundsTo.neg {q : ℝ} {z : F} (h : RoundsTo q z) : RoundsTo (-q) (fneg z) := by
  have hflip (w : F) : |((value (fneg w) : ℚ) : ℝ) - -q| = |((value w : ℚ) : ℝ) - q| := by
    rw [value_fneg, Rat.cast_neg, neg_sub_neg, abs_sub_comm]
  refine ⟨fun hlt => ?_, fun hge => ?_⟩
  · rw [abs_neg] at hlt
    obtain ⟨hfin, hnear⟩ := h.finite hlt
    refine ⟨by rwa [isFinite_fneg], fun w hw => ?_⟩
    obtain ⟨hle, htie⟩ := hnear (fneg w) (by rwa [isFinite_fneg])
    rw [← hflip (fneg w), fneg_fneg, ← hflip z] at hle htie
    refine ⟨hle, fun heq => (htie heq).imp (fun hv => ?_) fun he => ?_⟩
    · rw [value_fneg] at hv ⊢
      rw [← hv, neg_neg]
    · rwa [fracField_mod_two, magBits_fneg, ← fracField_mod_two]
  · rw [abs_neg] at hge
    obtain ⟨hinf, hsign⟩ := h.overflow hge
    have hq : q ≠ 0 := fun h0 => by
      rw [h0, abs_zero] at hge
      exact absurd (lt_trans one_pos one_lt_overflow) (not_lt.mpr hge)
    refine ⟨by rwa [isInf_fneg], ?_⟩
    rw [signBit_fneg, Bool.not_eq_true', ← Bool.not_eq_true, hsign, neg_lt_zero, not_lt]
    exact ⟨fun h => lt_of_le_of_ne h hq.symm, le_of_lt⟩

/-- Above the midpoint before an infinity lies nothing below the overflow threshold. -/
theorem Between.overflow_le {r : ℝ} {k : Int} (h : Between r k) (hk : infMag ≤ k) : 2 ^ 1024 - 2 ^ 970 ≤ r := by
  have hmono := keyValue_strictMono.monotone (show (infMag : Int) ≤ k by omega)
  have hmono' := keyValue_strictMono.monotone (show (infMag : Int) - 1 ≤ k - 1 by omega)
  have htop := keyValue_top
  have hbelow := h.below
  linarith

/-- What lies between the midpoints around a pattern rounds to it, or to the infinity when the pattern is no finite number. -/
theorem Between.roundsTo_min {r : ℝ} {p : Nat} (h : Between r p) (hr : 0 ≤ r) :
    RoundsTo r (ofSignMag false (min p infMag)) := by
  rcases lt_or_ge p infMag with hp | hp
  · rw [min_eq_left hp.le]
    exact Between.roundsTo (by rwa [orderKey_ofSignMag_false hp]) (isFinite_ofSignMag false hp) hr
  · rw [min_eq_right hp]
    refine ⟨fun hlt => ?_, fun _ => ⟨isInf_infinity false, iff_of_false (by decide) hr.not_gt⟩⟩
    rw [abs_of_nonneg hr] at hlt
    exact absurd (h.overflow_le (by omega)) (not_le.mpr hlt)

theorem roundMag_roundsTo (a : Nat) {b : Nat} (hb : 0 < b) :
    RoundsTo ((a : ℝ) / b / 2 ^ 1074) (ofSignMag false (roundMag a b)) :=
  (between_roundedPattern hb).roundsTo_min (by positivity)

/-- The magnitude `a / b` units with a sign, as a real number. -/
noncomputable def signedReal (neg : Bool) (a b : Nat) : ℝ := (if neg then -((a : ℝ) / b) else (a : ℝ) / b) / 2 ^ 1074

/-- `roundUnits` rounds correctly: the key lemma of every operation. -/
theorem roundUnits_roundsTo (neg : Bool) (a : Nat) {b : Nat} (hb : 0 < b) :
    RoundsTo (signedReal neg a b) (roundUnits neg a b) := by
  have h := roundMag_roundsTo a hb
  cases neg with
  | false => exact h
  | true =>
    have hneg := h.neg
    rw [fneg_ofSignMag _ (lt_of_le_of_lt (roundMag_le a b) infMag_lt), ← neg_div] at hneg
    exact hneg

end Sys2Proof.Machine
end

section
/-! SUPPORT. What rounding leaves unchanged, a magnitude that is a binary64 number, and that it depends on the magnitude alone
(40_numerics.md R102, R109b). -/

namespace Sys2Proof.Machine

/-- A magnitude with at most 53 significant bits is its own rounding. -/
theorem magUnits_roundedPattern_exact {b c i : Nat} (hb : 0 < b) (hc : c < 2 ^ 53) :
    magUnits (roundedPattern (c * 2 ^ i * b) b) = c * 2 ^ i := by
  have hquot : c * 2 ^ i * b / b = c * 2 ^ i := Nat.mul_div_cancel _ hb
  have hd : droppedBits (c * 2 ^ i * b) b ≤ i := by
    rw [droppedBits, hquot]
    have := log2_le (m := c * 2 ^ i) (j := 52 + i) (l := 52 + i)
      (by rw [add_right_comm, pow_add]; exact Nat.mul_lt_mul_of_pos_right hc (by positivity)) le_rfl
    omega
  rw [magUnits_roundedPattern hb, significand]
  generalize droppedBits (c * 2 ^ i * b) b = d at hd
  obtain ⟨e, rfl⟩ := Nat.exists_eq_add_of_le hd
  have hsplit : c * 2 ^ (d + e) * b = c * 2 ^ e * (b * 2 ^ d) := by rw [pow_add]; ring
  rw [hsplit, roundHalfEven_exact _ (by positivity), pow_add]
  ring

/-- The units of a pattern have at most 53 significant bits, and 53 from the first normal number on. -/
theorem magUnits_bits (m : Nat) : ∃ c i, c < 2 ^ 53 ∧ (i = 0 ∨ 2 ^ 52 ≤ c) ∧ magUnits m = c * 2 ^ i := by
  unfold magUnits
  split
  · exact ⟨m % 2 ^ 52, 0, by omega, .inl rfl, (mul_one _).symm⟩
  · exact ⟨2 ^ 52 + m % 2 ^ 52, _, by omega, .inr (by omega), rfl⟩

theorem roundedPattern_magUnits (m : Nat) {b : Nat} (hb : 0 < b) : roundedPattern (magUnits m * b) b = m := by
  obtain ⟨c, i, hc, -, hm⟩ := magUnits_bits m
  apply magUnits_strictMono.injective
  rw [hm, magUnits_roundedPattern_exact hb hc]

theorem roundMag_magUnits {m : Nat} (hm : m ≤ infMag) {b : Nat} (hb : 0 < b) : roundMag (magUnits m * b) b = m := by
  rw [roundMag_eq, roundedPattern_magUnits m hb, min_eq_left hm]

/-- Rounding a finite number changes no bit of it. -/
theorem roundUnits_units {x : F} (hx : isFinite x = true) {b : Nat} (hb : 0 < b) :
    roundUnits (signBit x) (units x * b) b = x := by
  rw [roundUnits, units_eq, roundMag_magUnits (isFinite_iff_magBits.mp hx).le hb, ofSignMag_magBits]

/-- A magnitude with at most 53 significant bits, below the power of two that follows the finite numbers, is not changed. -/
theorem units_roundUnits_exact (neg : Bool) {b c i : Nat} (hb : 0 < b) (hc : c < 2 ^ 53) (hlt : c * 2 ^ i < 2 ^ 2098) :
    isFinite (roundUnits neg (c * 2 ^ i * b) b) = true ∧ units (roundUnits neg (c * 2 ^ i * b) b) = c * 2 ^ i := by
  have hexact := magUnits_roundedPattern_exact (i := i) hb hc
  have htop : magUnits infMag = 2 ^ 2098 := by decide +kernel
  have hpat : roundedPattern (c * 2 ^ i * b) b < infMag := by
    rw [← magUnits_strictMono.lt_iff_lt, hexact, htop]
    exact hlt
  rw [roundUnits, roundMag_of_lt hpat]
  exact ⟨isFinite_ofSignMag neg hpat, by rw [units_ofSignMag neg hpat, hexact]⟩

/-! ## Equal magnitudes round alike -/

theorem roundHalfEven_scale (a D : Nat) {c : Nat} (hc : 0 < c) : roundHalfEven (a * c) (D * c) = roundHalfEven a D := by
  have hlt (m n : Nat) : m * c < n * c ↔ m < n := Nat.mul_lt_mul_right hc
  simp only [roundHalfEven, Nat.mul_div_mul_right _ _ hc, Nat.mul_mod_mul_right, ← mul_assoc, hlt]

theorem roundMag_scale (a b : Nat) {c : Nat} (hc : 0 < c) : roundMag (a * c) (b * c) = roundMag a b := by
  simp only [roundMag, Nat.mul_div_mul_right _ _ hc, mul_right_comm b c, roundHalfEven_scale _ _ hc]

/-- Rounding depends on the magnitude alone, not on the fraction that gives it. -/
theorem roundMag_congr {a b c d : Nat} (hb : 0 < b) (hd : 0 < d) (h : a * d = c * b) : roundMag a b = roundMag c d := by
  rw [← roundMag_scale a b hd, h, mul_comm b d, roundMag_scale c d hb]

end Sys2Proof.Machine
end

section
/-! SUPPORT. Sums, products, quotients and integers are correctly rounded: each is one `roundUnits` of the exact result
(40_numerics.md R102, R103, R107). -/

namespace Sys2Proof.Machine

/-! ## Values as real numbers -/

theorem value_eq_signedReal (x : F) : ((value x : ℚ) : ℝ) = signedReal (signBit x) (units x) 1 := by
  rw [value, signedUnits, signedReal]
  cases signBit x <;> simp

theorem signedReal_natAbs (z : Int) : signedReal (decide (z < 0)) z.natAbs 1 = (z : ℝ) / 2 ^ 1074 := by
  unfold signedReal
  congr 1
  rcases lt_or_ge z 0 with h | h
  · simp [h, abs_of_neg h]
  · simp [not_lt.mpr h, abs_of_nonneg h]

theorem signedReal_mul (s t : Bool) (a b : Nat) :
    signedReal s a 1 * signedReal t b 1 = signedReal (s != t) (a * b) (2 ^ 1074) := by
  simp only [signedReal, Nat.cast_mul, Nat.cast_pow, Nat.cast_ofNat, Nat.cast_one, div_one]
  generalize (2 : ℝ) ^ 1074 = T
  cases s <;> cases t <;> simp <;> ring

theorem signedReal_div (s t : Bool) (a b : Nat) :
    signedReal s a 1 / signedReal t b 1 = signedReal (s != t) (a * 2 ^ 1074) b := by
  simp only [signedReal, Nat.cast_mul, Nat.cast_pow, Nat.cast_ofNat, Nat.cast_one, div_one]
  have hT := two_pow_pos'
  generalize (2 : ℝ) ^ 1074 = T at *
  cases s <;> cases t <;> simp <;> field_simp

/-- The integer `n` is `n * 2^1074` units. -/
theorem signedReal_int (n : Int) : signedReal (decide (n < 0)) (n.natAbs * 2 ^ 1074) 1 = n := by
  have h : signedReal (decide (n < 0)) (n.natAbs * 2 ^ 1074) 1 = signedReal (decide (n < 0)) n.natAbs 1 * 2 ^ 1074 := by
    simp only [signedReal, Nat.cast_mul, Nat.cast_pow, Nat.cast_ofNat, Nat.cast_one, div_one]
    generalize (2 : ℝ) ^ 1074 = T
    split <;> ring
  rw [h, signedReal_natAbs, div_mul_cancel₀ _ two_pow_pos'.ne']

@[simp] theorem signBit_roundUnits (neg : Bool) (a b : Nat) : signBit (roundUnits neg a b) = neg :=
  signBit_ofSignMag neg (lt_of_le_of_lt (roundMag_le a b) infMag_lt)

theorem roundsTo_zero {x : F} (h : isZero x = true) : RoundsTo 0 x := by
  have hround := roundUnits_roundsTo (signBit x) (units x * 1) (b := 1) one_pos
  rwa [roundUnits_units (isFinite_of_isZero h) one_pos, mul_one, ← value_eq_signedReal, value_eq_zero.mpr h,
    Rat.cast_zero] at hround

theorem isZero_ofSignMag_zero (neg : Bool) : isZero (ofSignMag neg 0) = true := by cases neg <;> decide

/-! ## The sum of finite numbers -/

/-- `fadd` of finite numbers: a zero by the rule of signs, or one rounding of the exact sum. -/
theorem fadd_finite (d : Draw) {x y : F} (hx : isFinite x = true) (hy : isFinite y = true) :
    fadd d x y = if signedUnits x + signedUnits y = 0 then ofSignMag (signBit x && signBit y) 0
      else roundUnits (decide (signedUnits x + signedUnits y < 0)) (signedUnits x + signedUnits y).natAbs 1 := by
  simp [fadd, isNaN_of_isFinite hx, isNaN_of_isFinite hy, isInf_of_isFinite hx, isInf_of_isFinite hy]

theorem fadd_roundsTo (d : Draw) {x y : F} (hx : isFinite x = true) (hy : isFinite y = true) :
    RoundsTo ((value x + value y : ℚ) : ℝ) (fadd d x y) := by
  have hsum : ((value x + value y : ℚ) : ℝ) = ((signedUnits x + signedUnits y : Int) : ℝ) / 2 ^ 1074 := by
    rw [value, value, ← add_div]
    push_cast
    rfl
  rw [fadd_finite d hx hy, hsum]
  split
  · next h =>
    rw [h, Int.cast_zero, zero_div]
    exact roundsTo_zero (isZero_ofSignMag_zero _)
  · rw [← signedReal_natAbs]
    exact roundUnits_roundsTo _ _ one_pos

/-- Settles O36: the sum of `fadd_roundsTo`, the difference as the sum with the negation, and the product and the quotient as one
`roundUnits` of the exact magnitude. -/
theorem arithmeticCorrectlyRounded : Obligations.ArithmeticCorrectlyRounded := by
  intro d x y hx hy
  refine ⟨fadd_roundsTo d hx hy, ?_, ?_, fun hz => ?_⟩
  · have h := fadd_roundsTo d hx (y := fneg y) (by rwa [isFinite_fneg])
    rwa [value_fneg, ← sub_eq_add_neg] at h
  · rw [fmul_finite d hx hy, Rat.cast_mul, value_eq_signedReal, value_eq_signedReal, signedReal_mul]
    exact roundUnits_roundsTo _ _ (by positivity)
  · rw [fdiv_finite d hx hy hz, Rat.cast_div, value_eq_signedReal, value_eq_signedReal, signedReal_div]
    exact roundUnits_roundsTo _ _ (units_pos hz)

/-! ## Integers -/

theorem ofInt_natCast (n : Nat) : ofInt n = ofNat n := by
  rw [ofInt, decide_eq_false (by omega), Int.natAbs_natCast, ofNat]

theorem ofInt_roundsTo (n : Int) : RoundsTo (n : ℝ) (ofInt n) := by
  have h := roundUnits_roundsTo (decide (n < 0)) (n.natAbs * 2 ^ 1074) (b := 1) one_pos
  rwa [signedReal_int] at h

theorem ofInt_exact {n : Int} (h : n.natAbs < 2 ^ 53) : isFinite (ofInt n) = true ∧ value (ofInt n) = n := by
  have hlt : n.natAbs * 2 ^ 1074 < 2 ^ 2098 := by
    rw [show 2098 = 1024 + 1074 from rfl, pow_add]
    exact Nat.mul_lt_mul_of_pos_right (lt_trans h (Nat.pow_lt_pow_right one_lt_two (by norm_num))) (by positivity)
  obtain ⟨hfin, hunits⟩ := units_roundUnits_exact (decide (n < 0)) one_pos h hlt
  rw [mul_one] at hfin hunits
  refine ⟨hfin, ?_⟩
  have hval : ((value (ofInt n) : ℚ) : ℝ) = n := by
    rw [value_eq_signedReal, ofInt, signBit_roundUnits, hunits, signedReal_int]
  exact_mod_cast hval

/-- Settles O40: a natural number is a signed integer, and one below `2^53` in magnitude is a binary64 number. -/
theorem integersConvert : Obligations.IntegersConvert := by
  have hexact (n : Nat) (h : n < 2 ^ 53) : isFinite (ofNat n) = true ∧ value (ofNat n) = n := by
    simpa [ofInt_natCast] using ofInt_exact (n := n) (by simpa using h)
  refine ⟨fun n => by simpa [ofInt_natCast] using ofInt_roundsTo n, ofInt_roundsTo, hexact, fun n => ofInt_exact, fun v => ?_,
    fun p => ?_⟩
  · exact (hexact _ (lt_trans v.isLt (by norm_num))).2
  · refine (ofInt_exact ?_).2
    have := p.isLt
    rw [BitVec.toInt_eq_toNat_cond]
    omega

end Sys2Proof.Machine
end

section
/-! SUPPORT. The square root is correctly rounded (40_numerics.md R102): the root of a number of units is far above the numbers with
an odd number of units, so the midpoints near it are integers, and its integer part with the knowledge whether that is exact
decides every rounding. -/

namespace Sys2Proof.Machine

/-- Each bit tried keeps the root so far at or below the exact one, and the bits not tried yet are enough to reach it. -/
theorem isqrtFrom_spec {a : Nat} (n : Nat) {acc : Nat} (hlo : acc * acc ≤ a) (hhi : a < (acc + 2 ^ n) * (acc + 2 ^ n)) :
    isqrtFrom a n acc * isqrtFrom a n acc ≤ a ∧ a < (isqrtFrom a n acc + 1) * (isqrtFrom a n acc + 1) := by
  induction n generalizing acc with
  | zero => exact ⟨hlo, hhi⟩
  | succ n ih =>
    simp only [isqrtFrom]
    split
    · next h => exact ih h (by rwa [add_assoc, ← two_mul, ← pow_succ'])
    · next h => exact ih hlo (not_le.mp h)

theorem isqrt_spec {a : Nat} (h : a < 2 ^ 3200) : isqrt a * isqrt a ≤ a ∧ a < (isqrt a + 1) * (isqrt a + 1) :=
  isqrtFrom_spec 1600 (Nat.zero_le a) (by rwa [zero_add, ← pow_add])

theorem units_lt {x : F} (h : isFinite x = true) : units x < 2 ^ 2098 := by
  have htop : magUnits infMag = 2 ^ 2098 := by decide +kernel
  rw [units_eq, ← htop]
  exact magUnits_strictMono (isFinite_iff_magBits.mp h)

/-- From twice the least normal number on every finite number is an even number of units. -/
theorem two_dvd_magUnits {m : Nat} (h : 2 ^ 53 ≤ m) : 2 ∣ magUnits m := by
  rw [magUnits, if_neg (by omega)]
  exact Dvd.dvd.mul_left (dvd_pow_self 2 (by omega)) _

/-- There the midpoint of two neighbours is an integer number of units. -/
theorem exists_integer_midpoint {m : Nat} (hm : 2 ^ 53 ≤ m) :
    ∃ h : Nat, (keyValue m + keyValue (m + 1)) / 2 = (h : ℝ) / 2 ^ 1074 := by
  obtain ⟨h, hsum⟩ := dvd_add (two_dvd_magUnits hm) (two_dvd_magUnits (m := m + 1) (by omega))
  refine ⟨h, ?_⟩
  rw [← Nat.cast_succ, keyValue_add, hsum, Nat.cast_mul, Nat.cast_two, mul_div_assoc, mul_div_cancel_left₀ _ two_ne_zero]

/-- There two numbers of units strictly between the same two integers lie between the same midpoints. -/
theorem Between.of_same_floor {x y : ℝ} {n p : Nat} (h : Between (x / 2 ^ 1074) p) (hp : 2 ^ 53 < p) (hx : (n : ℝ) < x)
    (hx' : x < n + 1) (hy : (n : ℝ) < y) (hy' : y < n + 1) : Between (y / 2 ^ 1074) p := by
  obtain ⟨lo, hlo⟩ := exists_integer_midpoint (m := p - 1) (by omega)
  obtain ⟨hi, hhi⟩ := exists_integer_midpoint hp.le
  rw [Nat.cast_sub (by omega), Nat.cast_one, sub_add_cancel] at hlo
  have hbelow := h.below
  have habove := h.above
  rw [hlo, div_le_div_iff_of_pos_right two_pow_pos'] at hbelow
  rw [hhi, div_le_div_iff_of_pos_right two_pow_pos'] at habove
  have hlo' : (lo : ℝ) ≤ n := by exact_mod_cast Nat.lt_succ_iff.mp (by exact_mod_cast lt_of_le_of_lt hbelow hx')
  have hhi' : (n : ℝ) + 1 ≤ hi := by exact_mod_cast (show n < hi by exact_mod_cast lt_of_lt_of_le hx habove)
  refine ⟨?_, ?_, ?_⟩
  · rw [hlo, div_le_div_iff_of_pos_right two_pow_pos']; linarith
  · rw [hhi, div_le_div_iff_of_pos_right two_pow_pos']; linarith
  · rw [hlo, hhi, div_left_inj' two_pow_pos'.ne', div_left_inj' two_pow_pos'.ne']
    rintro (heq | heq) <;> linarith

theorem sqrt_between {a r : Nat} (hlo : r * r < a) (hhi : a < (r + 1) * (r + 1)) :
    (r : ℝ) < Real.sqrt a ∧ Real.sqrt a < r + 1 := by
  constructor
  · rw [Real.lt_sqrt (Nat.cast_nonneg r), pow_two]
    exact_mod_cast hlo
  · rw [Real.sqrt_lt' (by positivity), pow_two]
    exact_mod_cast hhi

/-- The root of a number of units, rounded from its integer part and whether that is exact. -/
theorem roundUnits_isqrt {a : Nat} (hlo : 2 ^ 1074 ≤ a) (hhi : a < 2 ^ 3200) :
    RoundsTo (Real.sqrt a / 2 ^ 1074) (roundUnits false (2 * isqrt a + if isqrt a * isqrt a = a then 0 else 1) 2) := by
  obtain ⟨hle, hlt⟩ := isqrt_spec hhi
  generalize isqrt a = r at *
  split
  · next hexact =>
    have h := roundMag_roundsTo (2 * r) two_pos
    rw [Nat.cast_mul, Nat.cast_two, mul_div_cancel_left₀ _ two_ne_zero] at h
    rwa [← hexact, Nat.cast_mul, Real.sqrt_mul_self (Nat.cast_nonneg r)]
  · next hinexact =>
    have hr : 2 ^ 100 < r + 1 := by
      by_contra hc
      have hsq := Nat.mul_le_mul (not_lt.mp hc) (not_lt.mp hc)
      rw [← pow_add] at hsq
      have hpow : 2 ^ (100 + 100) ≤ 2 ^ 1074 := Nat.pow_le_pow_right two_pos (by norm_num)
      omega
    have hpat : 2 ^ 53 < roundedPattern (2 * r + 1) 2 := by
      by_contra hc
      have habove := (roundedPattern_above (a := 2 * r + 1) two_pos).1
      have h1 := magUnits_strictMono.monotone (not_lt.mp hc)
      have h2 := magUnits_strictMono.monotone (show roundedPattern (2 * r + 1) 2 + 1 ≤ 2 ^ 53 + 1 by omega)
      have hc1 : magUnits (2 ^ 53) = 2 ^ 53 := by decide +kernel
      have hc2 : magUnits (2 ^ 53 + 1) = 2 ^ 53 + 2 := by decide +kernel
      rw [hc1] at h1
      rw [hc2] at h2
      omega
    have hroot := sqrt_between (lt_of_le_of_ne hle hinexact) hlt
    have hhalf : (r : ℝ) < ((2 * r + 1 : Nat) : ℝ) / (2 : Nat) ∧ ((2 * r + 1 : Nat) : ℝ) / (2 : Nat) < r + 1 := by
      push_cast
      constructor <;> linarith
    exact ((between_roundedPattern two_pos).of_same_floor hpat hhalf.1 hhalf.2 hroot.1 hroot.2).roundsTo_min
      (div_nonneg (Real.sqrt_nonneg _) two_pow_pos'.le)

theorem sqrt_value {x : F} (hs : signBit x = false) :
    Real.sqrt ((value x : ℚ) : ℝ) = Real.sqrt ((units x * 2 ^ 1074 : Nat) : ℝ) / 2 ^ 1074 := by
  have hT := two_pow_pos'
  rw [value_eq_signedReal, hs, signedReal, if_neg Bool.false_ne_true, Nat.cast_one, div_one, Nat.cast_mul, Nat.cast_pow,
    Nat.cast_two]
  generalize (2 : ℝ) ^ 1074 = T at *
  have hscale : (units x : ℝ) * T = units x / T * (T * T) := by field_simp
  rw [hscale, Real.sqrt_mul (by positivity), Real.sqrt_mul_self hT.le, mul_div_cancel_right₀ _ hT.ne']

theorem isQuietNaN_nanResult (d : Draw) (x y : F) : isQuietNaN (nanResult d x y) = true := by
  have hones := quietNaN_ones (Config.nanBits d x y)
  rw [isQuietNaN, isNaN_nanResult, Bool.true_and, nanResult, ← BitVec.testBit_toNat, Nat.testBit_eq_decide_div_mod_eq,
    decide_eq_true_eq]
  omega

/-- Settles O37: a zero is its own root, and the root of another number is rounded from its integer part. -/
theorem squareRootCorrectlyRounded : Obligations.SquareRootCorrectlyRounded := by
  intro d x
  refine ⟨fun hf hs => ?_, fun hinf hs => ?_, fun hnan => ?_⟩
  · cases hz : isZero x with
    | true =>
      have hroot : fsqrt d x = x := by simp [fsqrt, isNaN_of_isFinite hf, hz]
      rw [hroot, value_eq_zero.mpr hz, Rat.cast_zero, Real.sqrt_zero]
      exact roundsTo_zero hz
    | false =>
      have hsign : signBit x = false := by simpa [hz] using hs
      have hroot : fsqrt d x = roundUnits false (2 * isqrt (units x * 2 ^ 1074) +
          if isqrt (units x * 2 ^ 1074) * isqrt (units x * 2 ^ 1074) = units x * 2 ^ 1074 then 0 else 1) 2 := by
        simp only [fsqrt, isNaN_of_isFinite hf, hz, hsign, isInf_of_isFinite hf, Bool.false_eq_true, if_false]
      rw [hroot, sqrt_value hsign]
      refine roundUnits_isqrt (Nat.le_mul_of_pos_left _ (units_pos hz)) ?_
      calc units x * 2 ^ 1074 < 2 ^ 2098 * 2 ^ 1074 := Nat.mul_lt_mul_of_pos_right (units_lt hf) (by positivity)
        _ ≤ 2 ^ 3200 := by rw [← pow_add]; exact Nat.pow_le_pow_right two_pos (by norm_num)
  · simp [fsqrt, isNaN_of_isInf hinf, isZero_of_isInf hinf, hs, hinf]
  · rw [fsqrt, if_pos hnan]
    exact isQuietNaN_nanResult d x x

end Sys2Proof.Machine
end

section
/-! SUPPORT. The results of the scalar operations by the classes of the operands (40_numerics.md R104, R105, R106): one equation
for each case, and from these which results are a NaN and what sign a product or a quotient has. -/

namespace Sys2Proof.Machine

/-! ## When an operation is invalid -/

/-- The operands for which `fadd` gives a NaN (R104c). -/
def AddInvalid (x y : F) : Prop :=
  isNaN x = true ∨ isNaN y = true ∨ (isInf x = true ∧ isInf y = true ∧ signBit x ≠ signBit y)

/-- The operands for which `fmul` gives a NaN (R104c). -/
def MulInvalid (x y : F) : Prop :=
  isNaN x = true ∨ isNaN y = true ∨ (isInf x = true ∧ isZero y = true) ∨ (isZero x = true ∧ isInf y = true)

/-- The operands for which `fdiv` gives a NaN (R104c). -/
def DivInvalid (x y : F) : Prop :=
  isNaN x = true ∨ isNaN y = true ∨ (isZero x = true ∧ isZero y = true) ∨ (isInf x = true ∧ isInf y = true)

/-- An operation that gives its own NaN on the invalid operands and no NaN on the others. -/
theorem isNaN_iff_invalid {d : Draw} {x y r : F} {Invalid : Prop} (hbad : Invalid → r = nanResult d x y)
    (hgood : ¬Invalid → isNaN r = false) : (isNaN r = true ↔ Invalid) ∧ (isNaN r = true → isQuietNaN r = true) := by
  by_cases h : Invalid
  · rw [hbad h]
    exact ⟨iff_of_true (isNaN_nanResult d x y) h, fun _ => isQuietNaN_nanResult d x y⟩
  · rw [hgood h]
    exact ⟨iff_of_false Bool.false_ne_true h, fun hc => absurd hc Bool.false_ne_true⟩

section
variable {x y : F}

/-! ## The sum -/

theorem fadd_of_invalid (d : Draw) (h : AddInvalid x y) : fadd d x y = nanResult d x y := by
  rcases h with h | h | ⟨hx, hy, hs⟩
  · simp [fadd, h]
  · simp [fadd, h]
  · simp [fadd, hx, hy, hs]

theorem fadd_inf_left (d : Draw) (h : ¬AddInvalid x y) (hx : isInf x = true) : fadd d x y = x := by
  simp only [AddInvalid, not_or, Bool.not_eq_true, not_and, not_not] at h
  obtain ⟨hnx, hny, hs⟩ := h
  cases hy : isInf y with
  | true => simp [fadd, hnx, hny, hx, hs hx hy]
  | false => simp [fadd, hnx, hny, hx, hy]

theorem fadd_inf_right (d : Draw) (hx : isFinite x = true) (hy : isInf y = true) : fadd d x y = y := by
  simp [fadd, isNaN_of_isFinite hx, isInf_of_isFinite hx, isNaN_of_isInf hy, hy]

theorem isNaN_roundUnits (neg : Bool) (a b : Nat) : isNaN (roundUnits neg a b) = false :=
  isNaN_ofSignMag neg (roundMag_le a b)

theorem isNaN_fadd_of_valid (d : Draw) (h : ¬AddInvalid x y) : isNaN (fadd d x y) = false := by
  have hny : ¬isNaN y = true := fun hc => h (.inr (.inl hc))
  rcases class_cases x with hx | hx | hx
  · exact absurd (.inl hx) h
  · rw [fadd_inf_left d h hx]
    exact isNaN_of_isInf hx
  rcases (class_cases y).resolve_left hny with hy | hy
  · rw [fadd_inf_right d hx hy]
    exact isNaN_of_isInf hy
  · rw [fadd_finite d hx hy]
    split
    · exact isNaN_ofSignMag _ (Nat.zero_le _)
    · exact isNaN_roundUnits _ _ _

/-! ## The product -/

theorem fmul_of_invalid (d : Draw) (h : MulInvalid x y) : fmul d x y = nanResult d x y := by
  rcases h with h | h | ⟨hx, hy⟩ | ⟨hx, hy⟩
  · simp [fmul, h]
  · simp [fmul, h]
  · simp [fmul, hx, hy]
  · simp [fmul, hx, hy]

theorem fmul_of_inf (d : Draw) (h : ¬MulInvalid x y) (hinf : isInf x = true ∨ isInf y = true) :
    fmul d x y = infinity (signBit x != signBit y) := by
  simp only [MulInvalid, not_or, Bool.not_eq_true, not_and] at h
  obtain ⟨hnx, hny, hxy, hyx⟩ := h
  rcases hinf with hx | hy
  · simp [fmul, hnx, hny, hx, hxy hx, isZero_of_isInf hx]
  · have hx : isZero x = false := by
      by_contra hc
      rw [hyx (by simpa using hc)] at hy
      exact Bool.false_ne_true hy
    simp [fmul, hnx, hny, hy, hx, isZero_of_isInf hy]

/-- A product that is not a NaN has the exclusive-or of the signs (R106). -/
theorem fmul_of_valid (d : Draw) (h : ¬MulInvalid x y) :
    isNaN (fmul d x y) = false ∧ signBit (fmul d x y) = (signBit x != signBit y) := by
  by_cases hinf : isInf x = true ∨ isInf y = true
  · rw [fmul_of_inf d h hinf]
    exact ⟨isNaN_infinity _, signBit_infinity _⟩
  · have hx : isFinite x = true := ((class_cases x).resolve_left fun hc => h (.inl hc)).resolve_left fun hc => hinf (.inl hc)
    have hy : isFinite y = true :=
      ((class_cases y).resolve_left fun hc => h (.inr (.inl hc))).resolve_left fun hc => hinf (.inr hc)
    rw [fmul_finite d hx hy]
    exact ⟨isNaN_roundUnits _ _ _, signBit_roundUnits _ _ _⟩

/-! ## The quotient -/

theorem fdiv_of_invalid (d : Draw) (h : DivInvalid x y) : fdiv d x y = nanResult d x y := by
  rcases h with h | h | ⟨hx, hy⟩ | ⟨hx, hy⟩
  · simp [fdiv, h]
  · simp [fdiv, h]
  · simp [fdiv, hx, hy, isInf_of_isZero hx, isInf_of_isZero hy]
  · simp [fdiv, hx, hy]

theorem fdiv_inf_left (d : Draw) (hx : isInf x = true) (hy : isFinite y = true) :
    fdiv d x y = infinity (signBit x != signBit y) := by
  simp [fdiv, isNaN_of_isInf hx, hx, isNaN_of_isFinite hy, isInf_of_isFinite hy]

theorem fdiv_inf_right (d : Draw) (hx : isFinite x = true) (hy : isInf y = true) :
    fdiv d x y = ofSignMag (signBit x != signBit y) 0 := by
  simp [fdiv, isNaN_of_isFinite hx, isInf_of_isFinite hx, isNaN_of_isInf hy, hy]

theorem fdiv_by_zero (d : Draw) (hx : isFinite x = true) (hnz : isZero x = false) (hy : isZero y = true) :
    fdiv d x y = infinity (signBit x != signBit y) := by
  have hyf := isFinite_of_isZero hy
  simp [fdiv, isNaN_of_isFinite hx, isInf_of_isFinite hx, isNaN_of_isFinite hyf, isInf_of_isFinite hyf, hnz, hy]

@[simp] theorem signBit_zero (neg : Bool) : signBit (ofSignMag neg 0) = neg := signBit_ofSignMag neg (by norm_num)

/-- A quotient that is not a NaN has the exclusive-or of the signs (R106). -/
theorem fdiv_of_valid (d : Draw) (h : ¬DivInvalid x y) :
    isNaN (fdiv d x y) = false ∧ signBit (fdiv d x y) = (signBit x != signBit y) := by
  simp only [DivInvalid, not_or, not_and] at h
  obtain ⟨hnx, hny, hzz, hii⟩ := h
  rcases (class_cases x).resolve_left hnx with hx | hx
  · have hy := ((class_cases y).resolve_left hny).resolve_left (hii hx)
    rw [fdiv_inf_left d hx hy]
    exact ⟨isNaN_infinity _, signBit_infinity _⟩
  rcases (class_cases y).resolve_left hny with hy | hy
  · rw [fdiv_inf_right d hx hy]
    exact ⟨isNaN_ofSignMag _ (Nat.zero_le _), signBit_zero _⟩
  cases hz : isZero y with
  | true =>
    rw [fdiv_by_zero d hx (by simpa using fun hc => hzz hc hz) hz]
    exact ⟨isNaN_infinity _, signBit_infinity _⟩
  | false =>
    rw [fdiv_finite d hx hy hz]
    exact ⟨isNaN_roundUnits _ _ _, signBit_roundUnits _ _ _⟩

end

/-! ## Which results are a NaN -/

section
variable (d : Draw) (x y : F)

theorem fadd_nan : (isNaN (fadd d x y) = true ↔ AddInvalid x y) ∧
    (isNaN (fadd d x y) = true → isQuietNaN (fadd d x y) = true) :=
  isNaN_iff_invalid (fadd_of_invalid d) (isNaN_fadd_of_valid d)

theorem fmul_nan : (isNaN (fmul d x y) = true ↔ MulInvalid x y) ∧
    (isNaN (fmul d x y) = true → isQuietNaN (fmul d x y) = true) :=
  isNaN_iff_invalid (fmul_of_invalid d) fun h => (fmul_of_valid d h).1

theorem fdiv_nan : (isNaN (fdiv d x y) = true ↔ DivInvalid x y) ∧
    (isNaN (fdiv d x y) = true → isQuietNaN (fdiv d x y) = true) :=
  isNaN_iff_invalid (fdiv_of_invalid d) fun h => (fdiv_of_valid d h).1

end

theorem signBit_fmul {d : Draw} {x y : F} (h : isNaN (fmul d x y) = false) : signBit (fmul d x y) = (signBit x != signBit y) :=
  (fmul_of_valid d fun hc => by rw [(fmul_nan d x y).1.mpr hc] at h; cases h).2

theorem signBit_fdiv {d : Draw} {x y : F} (h : isNaN (fdiv d x y) = false) : signBit (fdiv d x y) = (signBit x != signBit y) :=
  (fdiv_of_valid d fun hc => by rw [(fdiv_nan d x y).1.mpr hc] at h; cases h).2

end Sys2Proof.Machine
end

section
/-! SUPPORT. Exceptional results and signed zeros (40_numerics.md R104, R105, R106), from the case equations above. -/

namespace Sys2Proof.Machine

theorem addInvalid_fneg_right {x y : F} : AddInvalid x (fneg y) ↔
    isNaN x = true ∨ isNaN y = true ∨ (isInf x = true ∧ isInf y = true ∧ signBit x = signBit y) := by
  simp [AddInvalid]

/-- An infinity with a finite operand makes no sum, difference or quotient invalid. -/
theorem not_addInvalid_of_finite {x y : F} (hx : isInf x = true) (hy : isFinite y = true) : ¬AddInvalid x y := by
  simp [AddInvalid, isNaN_of_isInf hx, isNaN_of_isFinite hy, isInf_of_isFinite hy]

/-- The infinities beside a finite operand (R104). -/
theorem infinite_with_finite (d : Draw) {x y : F} (hx : isInf x = true) (hy : isFinite y = true) :
    fadd d x y = x ∧ fadd d y x = x ∧ fsub d x y = x ∧ fsub d y x = fneg x ∧ isInf (fdiv d x y) = true ∧
      isZero (fdiv d y x) = true ∧ (isZero y = false → isInf (fmul d x y) = true ∧ isInf (fmul d y x) = true) := by
  have hy' : isFinite (fneg y) = true := by rwa [isFinite_fneg]
  have hx' : isInf (fneg x) = true := by rwa [isInf_fneg]
  have hmul (hz : isZero y = false) : ¬MulInvalid x y ∧ ¬MulInvalid y x := by
    simp [MulInvalid, isNaN_of_isInf hx, isNaN_of_isFinite hy, isInf_of_isFinite hy, hz]
  refine ⟨fadd_inf_left d (not_addInvalid_of_finite hx hy) hx, fadd_inf_right d hy hx,
    fadd_inf_left d (not_addInvalid_of_finite hx hy') hx, fadd_inf_right d hy hx', ?_, ?_, fun hz => ⟨?_, ?_⟩⟩
  · rw [fdiv_inf_left d hx hy, isInf_infinity]
  · rw [fdiv_inf_right d hy hx, isZero_ofSignMag_zero]
  · rw [fmul_of_inf d (hmul hz).1 (.inl hx), isInf_infinity]
  · rw [fmul_of_inf d (hmul hz).2 (.inr hx), isInf_infinity]

/-- Two infinities (R104). -/
theorem infinite_with_infinite (d : Draw) {x y : F} (hx : isInf x = true) (hy : isInf y = true) :
    (signBit x = signBit y → fadd d x y = x) ∧ (signBit x ≠ signBit y → fsub d x y = x) ∧
      isInf (fmul d x y) = true ∧ signBit (fmul d x y) = (signBit x != signBit y) := by
  have hmul : fmul d x y = infinity (signBit x != signBit y) := fmul_of_inf d
    (by simp [MulInvalid, isNaN_of_isInf hx, isNaN_of_isInf hy, isZero_of_isInf hx, isZero_of_isInf hy]) (.inl hx)
  refine ⟨fun hs => fadd_inf_left d ?_ hx, fun hs => fadd_inf_left d ?_ hx, ?_, ?_⟩
  · simp [AddInvalid, isNaN_of_isInf hx, isNaN_of_isInf hy, hs]
  · rw [addInvalid_fneg_right]
    simp [isNaN_of_isInf hx, isNaN_of_isInf hy, hs]
  · rw [hmul, isInf_infinity]
  · rw [hmul, signBit_infinity]

/-- Settles O38: the NaN clauses from the invalid operands of each operation, the others from the case equations. -/
theorem exceptionalResults : Obligations.ExceptionalResults := by
  intro d x y
  have hsub := fadd_nan d x (fneg y)
  rw [addInvalid_fneg_right] at hsub
  refine ⟨(fadd_nan d x y).1, hsub.1, (fmul_nan d x y).1, (fdiv_nan d x y).1, ?_, infinite_with_finite d,
    infinite_with_infinite d, fun hx hnz hy => ?_, signBit_fmul, signBit_fdiv⟩
  · simp only [List.forall_mem_cons]
    exact ⟨(fadd_nan d x y).2, hsub.2, (fmul_nan d x y).2, (fdiv_nan d x y).2, by simp⟩
  · rw [fdiv_by_zero d hx hnz hy]
    exact ⟨isInf_infinity _, signBit_infinity _⟩

theorem isNaN_of_isZero {x : F} (h : isZero x = true) : isNaN x = false := isNaN_of_isFinite (isFinite_of_isZero h)

theorem fsub_self (d : Draw) {x : F} (hx : isFinite x = true) : fsub d x x = posZero := by
  have hsum : signedUnits x + signedUnits (fneg x) = 0 := by rw [signedUnits_fneg, add_neg_cancel]
  rw [fsub, fadd_finite d hx (by rwa [isFinite_fneg]), if_pos hsum, signBit_fneg, Bool.and_not_self]
  rfl

/-- Settles O39: sums by the rule for a sum that is exactly zero, and a result that is a zero is not a NaN, so it has its sign. -/
theorem signedZeros : Obligations.SignedZeros := by
  refine ⟨fun d x hx => fsub_self d hx, fun d => ⟨?_, ?_, fsub_self d (by decide), ?_⟩,
    fun d x y => ⟨fun hz => signBit_fmul (isNaN_of_isZero hz), fun hz => signBit_fdiv (isNaN_of_isZero hz)⟩⟩
  · rw [fadd_finite d (by decide) (by decide)]; decide
  · rw [fadd_finite d (by decide) (by decide)]; decide
  · rw [fsub, fadd_finite d (by decide) (by decide)]; decide

end Sys2Proof.Machine
end

section
/-! SUPPORT. The laws of the scalar operations (40_numerics.md R109): commutativity, the identities, scaling by powers of two, and
what fails. -/

namespace Sys2Proof.Machine

/-! ## Commutativity -/

theorem addInvalid_comm {x y : F} : AddInvalid x y ↔ AddInvalid y x := by
  unfold AddInvalid
  tauto

theorem mulInvalid_comm {x y : F} : MulInvalid x y ↔ MulInvalid y x := by
  unfold MulInvalid
  tauto

theorem fadd_comm (d d' : Draw) (x y : F) : SameScalar (fadd d x y) (fadd d' y x) := by
  by_cases h : AddInvalid x y
  · rw [fadd_of_invalid d h, fadd_of_invalid d' (addInvalid_comm.mp h)]
    exact .inr ⟨isNaN_nanResult d x y, isNaN_nanResult d' y x⟩
  have h' : ¬AddInvalid y x := fun hc => h (addInvalid_comm.mp hc)
  have hycases := (class_cases y).resolve_left fun hc => h (.inr (.inl hc))
  left
  rcases (class_cases x).resolve_left fun hc => h (.inl hc) with hx | hx
  · rcases hycases with hy | hy
    · have hs : signBit x = signBit y := by simpa [AddInvalid, isNaN_of_isInf, hx, hy] using h
      rw [fadd_inf_left d h hx, fadd_inf_left d' h' hy, ← eq_infinity hx, hs, eq_infinity hy]
    · rw [fadd_inf_left d h hx, fadd_inf_right d' hy hx]
  · rcases hycases with hy | hy
    · rw [fadd_inf_right d hx hy, fadd_inf_left d' h' hy]
    · rw [fadd_finite d hx hy, fadd_finite d' hy hx, add_comm, Bool.and_comm]

theorem fmul_comm (d d' : Draw) (x y : F) : SameScalar (fmul d x y) (fmul d' y x) := by
  by_cases h : MulInvalid x y
  · rw [fmul_of_invalid d h, fmul_of_invalid d' (mulInvalid_comm.mp h)]
    exact .inr ⟨isNaN_nanResult d x y, isNaN_nanResult d' y x⟩
  left
  by_cases hinf : isInf x = true ∨ isInf y = true
  · rw [fmul_of_inf d h hinf, fmul_of_inf d' (fun hc => h (mulInvalid_comm.mp hc)) hinf.symm, bne_comm]
  · have hx : isFinite x = true := ((class_cases x).resolve_left fun hc => h (.inl hc)).resolve_left fun hc => hinf (.inl hc)
    have hy : isFinite y = true :=
      ((class_cases y).resolve_left fun hc => h (.inr (.inl hc))).resolve_left fun hc => hinf (.inr hc)
    rw [fmul_finite d hx hy, fmul_finite d' hy hx, mul_comm (units x), bne_comm]

/-! ## Identities -/

theorem units_one : units one = 2 ^ 1074 := by decide +kernel

theorem fmul_one (d : Draw) {x : F} (h : isNaN x = false) : fmul d one x = x := by
  have hsign : signBit one = false := by decide
  rcases (class_cases x).resolve_left (by simp [h]) with hx | hx
  · have hone : isNaN one = false ∧ isInf one = false ∧ isZero one = false := by decide
    have hv : ¬MulInvalid one x := by simp [MulInvalid, h, hone]
    rw [fmul_of_inf d hv (.inr hx), hsign, Bool.false_bne, eq_infinity hx]
  · rw [fmul_finite d (by decide) hx, units_one, mul_comm, hsign, Bool.false_bne]
    exact roundUnits_units hx (by positivity)

theorem decide_signedUnits_neg {x : F} (h : isZero x = false) : decide (signedUnits x < 0) = signBit x := by
  have hpos := units_pos h
  unfold signedUnits
  cases signBit x
  · simp
  · simpa using hpos

theorem natAbs_signedUnits (x : F) : (signedUnits x).natAbs = units x := by
  unfold signedUnits
  split <;> simp

/-- Adding a zero to a number other than a zero changes no bit of it; the sum of zeros is the zero of R106. -/
theorem fadd_zero (d : Draw) {x y : F} (hx : isFinite x = true) (hy : isZero y = true) :
    fadd d x y = if isZero x then ofSignMag (signBit x && signBit y) 0 else x := by
  rw [fadd_finite d hx (isFinite_of_isZero hy), signedUnits_eq_zero.mpr hy, add_zero]
  cases hz : isZero x with
  | true => rw [if_pos (signedUnits_eq_zero.mpr hz)]; rfl
  | false =>
    rw [if_neg (by rw [signedUnits_eq_zero, hz]; exact Bool.false_ne_true), decide_signedUnits_neg hz, natAbs_signedUnits,
      ← mul_one (units x)]
    exact roundUnits_units hx one_pos

/-- A zero is one of the two. -/
theorem eq_zero_of_isZero {x : F} (h : isZero x = true) : x = ofSignMag (signBit x) 0 := by
  rw [← isZero_iff.mp h, ofSignMag_magBits]

theorem fadd_posZero (d : Draw) {x : F} (hn : isNaN x = false) (hx : x ≠ negZero) : fadd d x posZero = x := by
  rcases (class_cases x).resolve_left (by simp [hn]) with hinf | hf
  · exact fadd_inf_left d (not_addInvalid_of_finite hinf (by decide)) hinf
  · rw [fadd_zero d hf (by decide)]
    split
    · next hz =>
      have hs : signBit x = false := by
        by_contra hc
        exact hx (by rw [eq_zero_of_isZero hz, Bool.eq_true_of_not_eq_false hc]; rfl)
      rw [eq_zero_of_isZero hz, hs]
      rfl
    · rfl

/-! ## Powers of two -/

/-- `2^j` is positive and has `2^(1074 + j)` units. -/
theorem powerOfTwo_spec {j : ℤ} (hlo : -1022 ≤ j) (hhi : j ≤ 1022) : isFinite (powerOfTwo j) = true ∧
    signBit (powerOfTwo j) = false ∧ units (powerOfTwo j) = 2 ^ (1074 + j).toNat := by
  obtain ⟨e, he⟩ : ∃ e, e = (1023 + j).toNat := ⟨_, rfl⟩
  have hpat : powerOfTwo j = ofSignMag false (e * 2 ^ 52) := by simp [powerOfTwo, ofSignMag, he]
  have hlt : e * 2 ^ 52 < infMag := by unfold infMag; omega
  refine ⟨hpat ▸ isFinite_ofSignMag false hlt, hpat ▸ signBit_ofSignMag false (lt_trans hlt infMag_lt), ?_⟩
  rw [hpat, units_ofSignMag false hlt, magUnits, if_neg (by omega), show e * 2 ^ 52 / 2 ^ 52 = e by omega,
    show e * 2 ^ 52 % 2 ^ 52 = 0 by omega, add_zero, ← pow_add]
  congr 1
  omega

theorem isZero_powerOfTwo {j : ℤ} (hlo : -1022 ≤ j) (hhi : j ≤ 1022) : isZero (powerOfTwo j) = false := by
  apply isZero_of_units
  rw [(powerOfTwo_spec hlo hhi).2.2]
  positivity

/-- `2^n` converts to the power of two. -/
theorem ofNat_two_pow {n : Nat} (hn : n ≤ 1022) : ofNat (2 ^ n) = powerOfTwo n := by
  obtain ⟨hfin, hsign, hunits⟩ := powerOfTwo_spec (j := n) (by omega) (by omega)
  have h := roundUnits_units hfin one_pos
  have hpow : 2 ^ n * 2 ^ 1074 = 2 ^ (1074 + (n : ℤ)).toNat := by
    rw [← pow_add]
    congr 1
    omega
  rw [hsign, hunits, mul_one] at h
  rw [ofNat, hpow, h]

/-- Dividing by a power of two is multiplying by its inverse: both round the same magnitude (R109b). -/
theorem fdiv_powerOfTwo (d d' : Draw) (x : F) {j : ℤ} (hlo : -1022 ≤ j) (hhi : j ≤ 1022) :
    SameScalar (fdiv d x (powerOfTwo (-j))) (fmul d' x (powerOfTwo j)) := by
  obtain ⟨hfin, hsign, hunits⟩ := powerOfTwo_spec hlo hhi
  obtain ⟨hfin', hsign', hunits'⟩ := powerOfTwo_spec (j := -j) (by omega) (by omega)
  have hz := isZero_powerOfTwo hlo hhi
  have hz' := isZero_powerOfTwo (j := -j) (by omega) (by omega)
  rcases class_cases x with hx | hx | hx
  · rw [fdiv_of_invalid d (.inl hx), fmul_of_invalid d' (.inl hx)]
    exact .inr ⟨isNaN_nanResult _ _ _, isNaN_nanResult _ _ _⟩
  · have hv : ¬MulInvalid x (powerOfTwo j) := by
      simp [MulInvalid, isNaN_of_isInf hx, isNaN_of_isFinite hfin, isInf_of_isFinite hfin, hz]
    rw [fdiv_inf_left d hx hfin', fmul_of_inf d' hv (.inl hx), hsign, hsign']
    exact .refl _
  · left
    have hexp : 1074 + 1074 = (1074 + j).toNat + (1074 + -j).toNat := by omega
    have hmag : roundMag (units x * 2 ^ 1074) (2 ^ (1074 + -j).toNat) =
        roundMag (units x * 2 ^ (1074 + j).toNat) (2 ^ 1074) := by
      refine roundMag_congr (by positivity) (by positivity) ?_
      rw [mul_assoc, mul_assoc, ← pow_add, ← pow_add, ← hexp]
    rw [fdiv_finite d hx hfin' hz', fmul_finite d' hx hfin, hsign, hsign', hunits, hunits', hmag]

theorem abs_value (x : F) : |value x| = (units x : ℚ) / 2 ^ 1074 := by
  rw [value, abs_div, abs_of_pos (a := (2 : ℚ) ^ 1074) (by positivity), ← Int.cast_abs, Int.abs_eq_natAbs,
    natAbs_signedUnits, Int.cast_natCast]

theorem value_eq_sign_mul_abs (x : F) : value x = (if signBit x then -1 else 1) * |value x| := by
  rw [abs_value, value, signedUnits]
  cases signBit x <;> simp [neg_div]

/-- `|x| * 2^j` in terms of the units of `x`. -/
theorem abs_value_scaled (x : F) {j : ℤ} (hlo : -1022 ≤ j) :
    |value x| * 2 ^ j = ((units x * 2 ^ (1074 + j).toNat : Nat) : ℚ) / (2 ^ 1074 * 2 ^ 1074) := by
  have hpow : (2 : ℚ) ^ j = 2 ^ (1074 + j).toNat / 2 ^ 1074 := by
    rw [← zpow_natCast, ← zpow_natCast, ← zpow_sub₀ two_ne_zero]
    congr 1
    omega
  rw [abs_value, hpow, div_mul_div_comm, Nat.cast_mul, Nat.cast_pow, Nat.cast_two]

/-- A scaled magnitude that neither overflows nor falls into the subnormal range has 53 significant bits in whole units. -/
theorem exists_scaled_units {x : F} {e : Nat} (hhi : units x * 2 ^ e < 2 ^ 2098 * 2 ^ 1074)
    (hlo : units x = 0 ∨ 2 ^ 1126 ≤ units x * 2 ^ e) :
    ∃ c i, c < 2 ^ 53 ∧ c * 2 ^ i < 2 ^ 2098 ∧ units x * 2 ^ e = c * 2 ^ i * 2 ^ 1074 := by
  rcases hlo with h0 | hlo
  · exact ⟨0, 0, by norm_num, by rw [zero_mul]; positivity, by rw [h0, zero_mul, zero_mul, zero_mul]⟩
  obtain ⟨c, i, hc, -, hu⟩ := magUnits_bits (magBits x)
  rw [← units_eq] at hu
  have hexp : 1126 < 53 + (i + e) := by
    apply (Nat.pow_lt_pow_iff_right one_lt_two).mp
    calc 2 ^ 1126 ≤ units x * 2 ^ e := hlo
      _ = c * 2 ^ (i + e) := by rw [hu, mul_assoc, ← pow_add]
      _ < 2 ^ 53 * 2 ^ (i + e) := Nat.mul_lt_mul_of_pos_right hc (by positivity)
      _ = 2 ^ (53 + (i + e)) := (pow_add _ _ _).symm
  obtain ⟨l, hl⟩ := Nat.exists_eq_add_of_le (show 1074 ≤ i + e by omega)
  have hscaled : units x * 2 ^ e = c * 2 ^ l * 2 ^ 1074 := by
    rw [hu, mul_assoc, ← pow_add, hl, pow_add, mul_assoc, mul_comm (2 ^ 1074)]
  rw [hscaled] at hhi
  exact ⟨c, l, hc, lt_of_mul_lt_mul_right hhi (Nat.zero_le _), hscaled⟩

/-- Multiplying by `2^j` is exact short of overflow and of the subnormal range (R109b). -/
theorem fmul_powerOfTwo (d : Draw) {x : F} {j : ℤ} (hlo : -1022 ≤ j) (hhi : j ≤ 1022) (hx : isFinite x = true)
    (hover : |value x| * 2 ^ j < 2 ^ 1024) (hunder : value x = 0 ∨ 1 / 2 ^ 1022 ≤ |value x| * 2 ^ j) :
    isFinite (fmul d x (powerOfTwo j)) = true ∧ value (fmul d x (powerOfTwo j)) = value x * 2 ^ j := by
  obtain ⟨hfin, hsign, hunits⟩ := powerOfTwo_spec hlo hhi
  have hT : (0 : ℚ) < 2 ^ 1074 * 2 ^ 1074 := by positivity
  obtain ⟨e, he⟩ : ∃ e, e = (1074 + j).toNat := ⟨_, rfl⟩
  rw [← he] at hunits
  have habs := abs_value_scaled x hlo
  rw [← he] at habs
  rw [habs] at hover hunder
  have hlt : units x * 2 ^ e < 2 ^ 2098 * 2 ^ 1074 := by
    have hcast : (2 : ℚ) ^ 1024 * (2 ^ 1074 * 2 ^ 1074) = ((2 ^ 2098 * 2 ^ 1074 : Nat) : ℚ) := by
      rw [Nat.cast_mul, Nat.cast_pow, Nat.cast_pow, Nat.cast_two, ← mul_assoc, ← pow_add]
    rwa [div_lt_iff₀ hT, hcast, Nat.cast_lt] at hover
  have hge : units x = 0 ∨ 2 ^ 1126 ≤ units x * 2 ^ e := by
    refine hunder.imp (fun h => isZero_iff_units.mp (value_eq_zero.mp h)) fun h => ?_
    have hcast : 1 / (2 : ℚ) ^ 1022 * (2 ^ 1074 * 2 ^ 1074) = ((2 ^ 1126 : Nat) : ℚ) := by
      rw [Nat.cast_pow, Nat.cast_two, one_div, inv_mul_eq_iff_eq_mul₀ (by positivity), ← pow_add, ← pow_add]
    rwa [le_div_iff₀ hT, hcast, Nat.cast_le] at h
  obtain ⟨c, i, hc, hci, hscaled⟩ := exists_scaled_units hlt hge
  have hmul : fmul d x (powerOfTwo j) = roundUnits (signBit x) (c * 2 ^ i * 2 ^ 1074) (2 ^ 1074) := by
    rw [fmul_finite d hx hfin, hsign, hunits, hscaled, Bool.bne_false, roundUnits]
  obtain ⟨hf, hu⟩ := units_roundUnits_exact (signBit x) (b := 2 ^ 1074) (by positivity) hc hci
  rw [hmul]
  refine ⟨hf, ?_⟩
  rw [value_eq_sign_mul_abs, signBit_roundUnits, abs_value, hu, value_eq_sign_mul_abs x, mul_assoc, habs, hscaled,
    Nat.cast_mul _ (2 ^ 1074), Nat.cast_pow, Nat.cast_two, mul_div_mul_right _ _ (by positivity)]

theorem SameScalar.eq {x y : F} (h : SameScalar x y) (hy : isNaN y = false) : x = y :=
  h.resolve_right fun hn => by rw [hy] at hn; exact Bool.false_ne_true hn.2

/-! ## Neither associative nor distributive -/

/-- The least positive subnormal. -/
def leastPositive : F := 1#64

/-- The number `-1.0`. -/
def negOne : F := fneg one

theorem fadd_eq_of_eval (d : Draw) {x y z : F} (h : fadd ⟨0, []⟩ x y = z) (hz : isNaN z = false) : fadd d x y = z := by
  rw [← h] at hz ⊢
  exact (drawsOnlyNaN_fadd.draw _ _ x y).eq hz

theorem fmul_eq_of_eval (d : Draw) {x y z : F} (h : fmul ⟨0, []⟩ x y = z) (hz : isNaN z = false) : fmul d x y = z := by
  rw [← h] at hz ⊢
  exact (drawsOnlyNaN_fmul.draw _ _ x y).eq hz

/-- `(1 + (-1)) + 2^-1074` is `2^-1074`, `1 + ((-1) + 2^-1074)` a zero. -/
theorem fadd_not_associative (d : Draw) : ∃ x y z : F, numEq (fadd d (fadd d x y) z) (fadd d x (fadd d y z)) = false ∧
    isFinite (fadd d (fadd d x y) z) = true ∧ isFinite (fadd d x (fadd d y z)) = true := by
  refine ⟨one, negOne, leastPositive, ?_⟩
  have h1 : fadd d one negOne = posZero := fadd_eq_of_eval d (by decide +kernel) (by decide)
  have h2 : fadd d posZero leastPositive = leastPositive := fadd_eq_of_eval d (by decide +kernel) (by decide)
  have h3 : fadd d negOne leastPositive = negOne := fadd_eq_of_eval d (by decide +kernel) (by decide)
  rw [h1, h2, h3, h1]
  decide

/-- `(2^-1074 * 0.5) * 2` is a zero, `2^-1074 * (0.5 * 2)` is `2^-1074`. -/
theorem fmul_not_associative (d : Draw) : ∃ x y z : F, numEq (fmul d (fmul d x y) z) (fmul d x (fmul d y z)) = false ∧
    isFinite (fmul d (fmul d x y) z) = true ∧ isFinite (fmul d x (fmul d y z)) = true := by
  refine ⟨leastPositive, powerOfTwo (-1), powerOfTwo 1, ?_⟩
  have h1 : fmul d leastPositive (powerOfTwo (-1)) = posZero := fmul_eq_of_eval d (by decide +kernel) (by decide)
  have h2 : fmul d posZero (powerOfTwo 1) = posZero := fmul_eq_of_eval d (by decide +kernel) (by decide)
  have h3 : fmul d (powerOfTwo (-1)) (powerOfTwo 1) = one := fmul_eq_of_eval d (by decide +kernel) (by decide)
  have h4 : fmul d leastPositive one = leastPositive := fmul_eq_of_eval d (by decide +kernel) (by decide)
  rw [h1, h2, h3, h4]
  decide

/-- `0.5 * (2^-1074 + 2^-1074)` is `2^-1074`, `0.5 * 2^-1074 + 0.5 * 2^-1074` a zero. -/
theorem fmul_not_distributive (d : Draw) : ∃ x y z : F,
    numEq (fmul d x (fadd d y z)) (fadd d (fmul d x y) (fmul d x z)) = false ∧
    isFinite (fmul d x (fadd d y z)) = true ∧ isFinite (fadd d (fmul d x y) (fmul d x z)) = true := by
  refine ⟨powerOfTwo (-1), leastPositive, leastPositive, ?_⟩
  have h1 : fadd d leastPositive leastPositive = 2#64 := fadd_eq_of_eval d (by decide +kernel) (by decide)
  have h2 : fmul d (powerOfTwo (-1)) 2#64 = leastPositive := fmul_eq_of_eval d (by decide +kernel) (by decide)
  have h3 : fmul d (powerOfTwo (-1)) leastPositive = posZero := fmul_eq_of_eval d (by decide +kernel) (by decide)
  have h4 : fadd d posZero posZero = posZero := fadd_eq_of_eval d (by decide +kernel) (by decide)
  rw [h1, h2, h3, h4]
  decide

/-- Settles O41: one lemma for each law; division by `2^-j` and by `ofNat(2^n)` are both `fdiv_powerOfTwo`. -/
theorem scalarLaws : Obligations.ScalarLaws := by
  refine ⟨fun d d' x y => ⟨fadd_comm d d' x y, fmul_comm d d' x y⟩, fun d x j hlo hhi hx hover hunder => ?_,
    fun d d' x n hn => ?_, fun d d' x y => drawsOnlyNaN_fadd.draw d d' x (fneg y),
    fun d x hx => ⟨fmul_one d hx, fadd_posZero d hx, fadd_zero d (by decide) (by decide)⟩, fadd_not_associative,
    fmul_not_associative, fmul_not_distributive⟩
  · obtain ⟨hfin, hval⟩ := fmul_powerOfTwo d hlo hhi hx hover hunder
    rw [(fdiv_powerOfTwo d d x hlo hhi).eq (isNaN_of_isFinite hfin)]
    exact ⟨hval, hval⟩
  · have h := fdiv_powerOfTwo d d' x (j := -n) (by omega) (by omega)
    rwa [neg_neg, ← ofNat_two_pow hn] at h

end Sys2Proof.Machine
end

section
/-! SUPPORT. The twiddle generator of a build has the properties of 40_numerics.md R116, its inverse factors included. -/

namespace Sys2Proof.Machine

theorem InUnitRange.fneg {x : F} (h : InUnitRange x) : InUnitRange (fneg x) :=
  ⟨by rw [isFinite_fneg]; exact h.1, by rw [value_fneg, abs_neg]; exact h.2⟩

theorem CloseTo.fneg {x : F} {r : ℝ} (h : CloseTo x r) : CloseTo (fneg x) (-r) := by
  rw [CloseTo, value_fneg, Rat.cast_neg, neg_sub_neg, abs_sub_comm]
  exact h

/-- Settles O42: the forward factor by the generator's own proofs, the inverse one as its conjugate. -/
theorem twiddleProperties : Obligations.TwiddleProperties := by
  intro c k N hdom
  obtain ⟨hre, him⟩ := (generator c).inRange k N hdom
  obtain ⟨hcos, hsin⟩ := (generator c).accurate k N hdom
  refine ⟨?_, ?_, ⟨rfl, rfl⟩, ?_⟩
  · rintro (_ | _)
    · exact ⟨hre, him⟩
    · exact ⟨hre, him.fneg⟩
  · rintro rfl
    obtain ⟨hone, hzero⟩ := (generator c).atZero N hdom
    rintro (_ | _)
    · exact ⟨hone, hzero⟩
    · exact ⟨hone, (isZero_fneg _).trans hzero⟩
  · rintro (_ | _)
    · exact ⟨hcos, hsin⟩
    · rw [Real.cos_neg] at hcos
      have hconj := hsin.fneg
      rw [Real.sin_neg, neg_neg] at hconj
      exact ⟨hcos, hconj⟩

end Sys2Proof.Machine
end

section
/-! SUPPORT. The angle of R118 as a magnitude with the sign of `s`: it does not depend on the place of its two operations, and it
is not changed when a power of two is cancelled from `k` and `N` (40_numerics.md R118, R119a). -/

namespace Sys2Proof.Machine

theorem roundMag_zero {b : Nat} (hb : 0 < b) : roundMag 0 b = 0 := by
  simpa using roundMag_magUnits (Nat.zero_le infMag) hb

theorem roundMag_scale_one (a : Nat) {c : Nat} (hc : 0 < c) : roundMag (a * c) c = roundMag a 1 := by
  simpa using roundMag_scale a 1 hc

/-- The units of `TWO_PI`. -/
def twoPiUnits : Nat := 7074237752028440 * 2 ^ 1024

/-- The magnitude of `TWO_PI * k`, rounded. -/
def productMag (k : Nat) : Nat := roundMag (twoPiUnits * k) 1

/-- The magnitude of `TWO_PI * k / N`, the product rounded and the quotient rounded. -/
def angleMag (k N : Nat) : Nat := roundMag (magUnits (productMag k)) N

theorem twoPiUnits_mul_lt {k : Nat} (hk : k < 2 ^ 32) : twoPiUnits * k < 2 ^ (1110 + 1) := by
  rw [twoPiUnits, mul_right_comm, show 1110 + 1 = 87 + 1024 from rfl, pow_add]
  exact Nat.mul_lt_mul_of_pos_right (by omega) (by positivity)

theorem productMag_lt {k : Nat} (hk : k < 2 ^ 32) : productMag k < infMag :=
  (roundMag_units one_pos (by
    rw [Nat.div_one]
    exact log2_le (twoPiUnits_mul_lt hk) (by norm_num))).1

/-- The two operations of R118 at any place, on `TWO_PI` or its negation. -/
theorem angle_eq (d d' : Draw) {s : F} (hs : isFinite s = true) (hu : units s = twoPiUnits) {k N : Nat} (hk : k < 2 ^ 32)
    (hN : 0 < N) (hN' : N < 2 ^ 53) : fdiv d' (fmul d s (ofNat k)) (ofNat N) = ofSignMag (signBit s) (angleMag k N) := by
  obtain ⟨hkfin, hksign, hkunits⟩ := ofNat_exact (n := k) (by omega)
  obtain ⟨hNfin, hNsign, hNunits⟩ := ofNat_exact hN'
  have hT := Nat.two_pow_pos 1074
  have hNzero : isZero (ofNat N) = false := isZero_of_units (hNunits ▸ (Nat.mul_pos hN hT).ne')
  have hprod : fmul d s (ofNat k) = ofSignMag (signBit s) (productMag k) := by
    rw [fmul_finite d hs hkfin, hu, hkunits, hksign, Bool.bne_false, ← mul_assoc, roundMag_scale_one _ hT, productMag]
  have hlt := productMag_lt hk
  rw [hprod, fdiv_finite d' (isFinite_ofSignMag _ hlt) hNfin hNzero, units_ofSignMag _ hlt, hNunits,
    signBit_ofSignMag _ (lt_trans hlt infMag_lt), hNsign, Bool.bne_false, roundMag_scale _ _ hT, angleMag]

theorem refAngle_forward {k N : Nat} (hk : k < 2 ^ 32) (hN : 0 < N) (hN' : N < 2 ^ 53) :
    refAngle .forward k N = ofSignMag true (angleMag k N) :=
  angle_eq _ _ (by decide) (by decide +kernel) hk hN hN'

theorem angleMag_zero {N : Nat} (hN : 0 < N) : angleMag 0 N = 0 := by
  rw [angleMag, productMag, mul_zero, roundMag_zero one_pos, magUnits_zero, roundMag_zero hN]

/-! ## Scaling by a power of two -/

theorem log2_mul_two_pow {a : Nat} (ha : a ≠ 0) (n : Nat) : Nat.log2 (a * 2 ^ n) = Nat.log2 a + n := by
  induction n with
  | zero => simp
  | succ n ih => rw [pow_succ, ← mul_assoc, mul_comm _ 2, Nat.log2_two_mul (by positivity), ih, add_assoc]

/-- A power of two passes through the rounding of a normal magnitude. -/
theorem magUnits_roundedPattern_two_pow {a : Nat} (ha : 2 ^ 52 ≤ a) (n : Nat) :
    magUnits (roundedPattern (a * 2 ^ n) 1) = magUnits (roundedPattern a 1) * 2 ^ n := by
  have hlog : 52 ≤ Nat.log2 a := (Nat.le_log2 (by omega)).mpr ha
  have hbits : droppedBits (a * 2 ^ n) 1 = droppedBits a 1 + n := by
    rw [droppedBits, droppedBits, Nat.div_one, Nat.div_one, log2_mul_two_pow (by omega)]
    omega
  have hsig : significand (a * 2 ^ n) 1 = significand a 1 := by
    rw [significand, significand, hbits, pow_add, ← mul_assoc, roundHalfEven_scale _ _ (by positivity)]
  rw [magUnits_roundedPattern one_pos, magUnits_roundedPattern one_pos, hbits, hsig, pow_add, mul_assoc]

theorem magUnits_productMag_scale {k n : Nat} (hk : k * 2 ^ n < 2 ^ 32) :
    magUnits (productMag (k * 2 ^ n)) = magUnits (productMag k) * 2 ^ n := by
  rcases Nat.eq_zero_or_pos k with rfl | hpos
  · rw [zero_mul, productMag, mul_zero, roundMag_zero one_pos, magUnits_zero, zero_mul]
  have hk' : k < 2 ^ 32 := lt_of_le_of_lt (Nat.le_mul_of_pos_right k (by positivity)) hk
  have hpat {m : Nat} (hm : m < 2 ^ 32) : productMag m = roundedPattern (twoPiUnits * m) 1 := by
    refine roundMag_of_lt (lt_of_not_ge fun hc => ?_)
    have hlt := productMag_lt hm
    rw [productMag, roundMag_eq, min_eq_right hc] at hlt
    exact absurd hlt (lt_irrefl _)
  have hbig : 2 ^ 52 ≤ twoPiUnits * k := by
    have htwo : 2 ^ 52 ≤ twoPiUnits := by decide +kernel
    exact le_trans htwo (Nat.le_mul_of_pos_right _ hpos)
  rw [hpat hk, hpat hk', ← mul_assoc, magUnits_roundedPattern_two_pow hbig]

/-- A common power of two cancels from the angle (R119a). -/
theorem angleMag_scale {k N n : Nat} (hk : k * 2 ^ n < 2 ^ 32) : angleMag (k * 2 ^ n) (N * 2 ^ n) = angleMag k N := by
  rw [angleMag, magUnits_productMag_scale hk, roundMag_scale _ _ (by positivity), angleMag]

end Sys2Proof.Machine
end

section
/-! SUPPORT. The factors of `TW_REF` (40_numerics.md R118, R119): the factor of an angle and of its negation, and the factor of
a fraction in lowest terms. -/

namespace Sys2Proof.Machine

/-- `W` is the factor of the angle `θ` (R118). -/
def IsFactor (θ : F) (W : Sample) : Prop :=
  (isZero θ = true → W = ⟨one, θ⟩) ∧
    (isZero θ = false → RoundsTo (Real.cos ((value θ : ℚ) : ℝ)) W.re ∧ RoundsTo (Real.sin ((value θ : ℚ) : ℝ)) W.im)

theorem isFactor_refFactor (θ : F) : IsFactor θ (refFactor θ) := by
  refine ⟨fun h => if_pos h, fun h => ?_⟩
  rw [refFactor, if_neg (by rw [h]; exact Bool.false_ne_true)]
  exact ⟨cosRounded_roundsTo h, sinRounded_roundsTo h⟩

/-- The conjugate is the factor of the negated angle (TW-P4). -/
theorem IsFactor.conj {θ : F} {W : Sample} (h : IsFactor θ W) : IsFactor (fneg θ) { W with im := fneg W.im } := by
  obtain ⟨hzero, hround⟩ := h
  rw [IsFactor, isZero_fneg, value_fneg, Rat.cast_neg, Real.cos_neg, Real.sin_neg]
  exact ⟨fun hz => by rw [hzero hz], fun hz => ⟨(hround hz).1, (hround hz).2.neg⟩⟩

theorem inReach_of_domain {k N : Nat} (h : InTwiddleDomain k N) (h31 : N ≤ 2 ^ 31) : InReach k N :=
  have := h.2
  ⟨by omega, h31, by omega⟩

theorem refForward_of_reach {k N : Nat} (h : InReach k N) : refForward k N = refFactor (refAngle .forward k N) := if_pos h

/-- In reach the forward angle is finite and the forward factor is its factor. -/
theorem forward_isFactor {k N : Nat} (h : InTwiddleDomain k N) (h31 : N ≤ 2 ^ 31) :
    isFinite (ofSignMag true (angleMag k N)) = true ∧ IsFactor (ofSignMag true (angleMag k N)) (refForward k N) := by
  have hreach := inReach_of_domain h h31
  obtain ⟨hpos, -, hk⟩ := hreach
  have hangle := refAngle_forward (k := k) (by omega) hpos (by omega)
  obtain ⟨n, rfl⟩ := (isPow2_iff N).mp h.1
  have hn : n ≤ 31 := (Nat.pow_le_pow_iff_right one_lt_two).mp h31
  rw [refForward_of_reach ⟨hpos, h31, hk⟩, ← hangle]
  exact ⟨(refAngle_near (by omega) (by have := h.2; omega)).1, isFactor_refFactor _⟩

/-- Settles O60: the angle of either direction is that magnitude with a sign, so the inverse angle is the negated forward one. -/
theorem referenceFactorsCorrectlyRounded : Obligations.ReferenceFactorsCorrectlyRounded := by
  refine ⟨rfl, fun dir k N d d' hdom h31 => ?_⟩
  obtain ⟨hpos, -, hk⟩ := inReach_of_domain hdom h31
  obtain ⟨hfin, hfactor⟩ := forward_isFactor hdom h31
  cases dir with
  | forward =>
    have hθ : fdiv d' (fmul d (fneg 0x401921FB54442D18#64) (ofNat k)) (ofNat N) = ofSignMag true (angleMag k N) :=
      angle_eq d d' (by decide) (by decide +kernel) (by omega) hpos (by omega)
    simp only [hθ]
    refine ⟨hfin, ?_, hfactor.1, hfactor.2⟩
    rintro rfl
    rw [angleMag_zero hpos]
    rfl
  | inverse =>
    have hlt : angleMag k N < 2 ^ 63 := lt_of_le_of_lt (roundMag_le _ _) infMag_lt
    have hθ : fdiv d' (fmul d 0x401921FB54442D18#64 (ofNat k)) (ofNat N) = fneg (ofSignMag true (angleMag k N)) := by
      rw [fneg_ofSignMag _ hlt]
      exact angle_eq d d' (by decide) (by decide +kernel) (by omega) hpos (by omega)
    simp only [hθ]
    refine ⟨(isFinite_fneg _).trans hfin, ?_, hfactor.conj.1, hfactor.conj.2⟩
    rintro rfl
    rw [angleMag_zero hpos]
    decide

/-! ## Lowest terms -/

theorem refAngle_scale {k N n : Nat} (hk : k ≤ N) (hN : 0 < N) (h31 : N * 2 ^ n ≤ 2 ^ 31) :
    refAngle .forward (k * 2 ^ n) (N * 2 ^ n) = refAngle .forward k N := by
  have hn : 0 < 2 ^ n := by positivity
  have hscaled : k * 2 ^ n ≤ N * 2 ^ n := Nat.mul_le_mul_right _ hk
  have hle : N ≤ N * 2 ^ n := Nat.le_mul_of_pos_right N hn
  rw [refAngle_forward (by omega) (by positivity) (by omega), refAngle_forward (by omega) hN (by omega),
    angleMag_scale (by omega)]

/-- The factor that `refForward` gives for a fraction in lowest terms. -/
def lowestFactor (k N : Nat) : Sample :=
  if InReach k N then refFactor (refAngle .forward k N) else (freeGenerator 0).fwd k N

/-- In the domain the factor is that of the fraction in lowest terms, whether `N` is in reach or not. -/
theorem refForward_eq_lowest {k N : Nat} (h : InTwiddleDomain k N) :
    refForward k N = lowestFactor (k / Nat.gcd k N) (N / Nat.gcd k N) := by
  by_cases hreach : InReach k N
  · obtain ⟨n, hn⟩ := (isPow2_iff N).mp h.1
    have hdvd : Nat.gcd k N ∣ 2 ^ n := by
      rw [← hn]
      exact Nat.gcd_dvd_right k N
    obtain ⟨m, -, hm⟩ := (Nat.dvd_prime_pow Nat.prime_two).mp hdvd
    have hk : k / 2 ^ m * 2 ^ m = k := Nat.div_mul_cancel (hm ▸ Nat.gcd_dvd_left k N)
    have hN : N / 2 ^ m * 2 ^ m = N := Nat.div_mul_cancel (hm ▸ Nat.gcd_dvd_right k N)
    have hle : k / 2 ^ m ≤ N / 2 ^ m := Nat.div_le_div_right hreach.2.2
    have hpos : 0 < N / 2 ^ m := Nat.pos_of_mul_pos_right (hN.symm ▸ hreach.1)
    have hscale := refAngle_scale (n := m) hle hpos (hN.symm ▸ hreach.2.1)
    rw [hk, hN] at hscale
    rw [refForward_of_reach hreach, hm, lowestFactor, if_pos ⟨hpos, (Nat.div_le_self _ _).trans hreach.2.1, hle⟩, hscale]
  · rw [refForward, if_neg hreach]
    rfl

theorem InTwiddleDomain.scale {k N : Nat} (h : InTwiddleDomain k N) (n : Nat) : InTwiddleDomain (k * 2 ^ n) (N * 2 ^ n) := by
  obtain ⟨hpow, h2, hk⟩ := h
  have hn : 0 < 2 ^ n := by positivity
  have hpow' : isPow2 (N * 2 ^ n) = true := by
    obtain ⟨m, rfl⟩ := (isPow2_iff N).mp hpow
    rw [← pow_add, isPow2_two_pow]
  have h2' : 2 ≤ N * 2 ^ n := le_trans h2 (Nat.le_mul_of_pos_right _ hn)
  have hlt : 2 * k * 2 ^ n < N * 2 ^ n := Nat.mul_lt_mul_of_pos_right (by have := isPow2_even hpow h2; omega) hn
  refine ⟨hpow', h2', ?_⟩
  have := isPow2_even hpow' h2'
  rw [mul_assoc] at hlt
  omega

theorem refForward_scale {k N : Nat} (h : InTwiddleDomain k N) (n : Nat) :
    refForward (k * 2 ^ n) (N * 2 ^ n) = refForward k N := by
  rw [refForward_eq_lowest (h.scale n), refForward_eq_lowest h, Nat.gcd_mul_right, Nat.mul_div_mul_right _ _ (by positivity),
    Nat.mul_div_mul_right _ _ (by positivity)]

theorem twiddle_reference_scale (dir : Dir) {k N : Nat} (h : InTwiddleDomain k N) (n : Nat) :
    twiddle .reference dir (k * 2 ^ n) (N * 2 ^ n) = twiddle .reference dir k N := by
  have hforward : (generator .reference).fwd (k * 2 ^ n) (N * 2 ^ n) = (generator .reference).fwd k N := refForward_scale h n
  simp only [twiddle, hforward]

/-- Index 0, for every length. -/
theorem refForward_zero {N : Nat} (hN : 1 ≤ N) : refForward 0 N = ⟨one, negZero⟩ := by
  have hfactor {M : Nat} (hM : 1 ≤ M) (hM' : M ≤ 2 ^ 31) : refFactor (refAngle .forward 0 M) = ⟨one, negZero⟩ := by
    rw [refAngle_forward (by norm_num) hM (by omega), angleMag_zero hM]
    rfl
  unfold refForward
  split
  · next h => exact hfactor h.1 h.2.1
  · simp only [Nat.gcd_zero_left, Nat.zero_div, Nat.div_self hN]
    rw [if_pos (by decide)]
    exact hfactor le_rfl (by norm_num)

/-- Settles O43: the factors at a quarter and an eighth of the length are those of `1/4` and `1/8`, by `twiddle_reference_scale`. -/
theorem referenceTwiddleValues : Obligations.ReferenceTwiddleValues := by
  refine ⟨fun N hN => ?_, fun n => ?_, fun n => ?_, fun dir k N n h => twiddle_reference_scale dir h n⟩
  · have hforward : (generator .reference).fwd 0 N = ⟨one, negZero⟩ := refForward_zero hN
    have hneg : fneg negZero = posZero := by decide
    simp only [twiddle, hforward, hneg, and_self]
  · have h := twiddle_reference_scale .forward (k := 1) (N := 4) ⟨by decide, by decide, by decide⟩ n
    rw [one_mul] at h
    rw [h]
    decide +kernel
  · have h := twiddle_reference_scale .forward (k := 1) (N := 8) ⟨by decide, by decide, by decide⟩ n
    rw [one_mul] at h
    rw [h]
    decide +kernel

end Sys2Proof.Machine
end

section
/-! SUPPORT. What multiplying by `W_0` does to a finite sample, and the inverse transform as the forward one with conjugate
factors (40_numerics.md R117). -/

namespace Sys2Proof.Machine

/-! ## Finite patterns of one number -/

/-- Two finite patterns stand for the same number: equal bits, or two zeros. -/
structure SameNumber (x y : F) : Prop where
  left : isFinite x = true
  right : isFinite y = true
  units : signedUnits x = signedUnits y

theorem numEq_refl {x : F} (h : isNaN x = false) : numEq x x = true := by simp [numEq, h]

theorem SameNumber.numEq {x y : F} (h : SameNumber x y) : numEq x y = true := by
  have hkey : orderKey x = orderKey y := by
    apply keyUnits_strictMono.injective
    rw [← signedUnits_eq_keyUnits, ← signedUnits_eq_keyUnits, h.units]
  simp [Machine.numEq, isNaN_of_isFinite h.left, isNaN_of_isFinite h.right, hkey]

theorem sameNumber_of_zeros {x y : F} (hx : isZero x = true) (hy : isZero y = true) : SameNumber x y :=
  ⟨isFinite_of_isZero hx, isFinite_of_isZero hy, (signedUnits_eq_zero.mpr hx).trans (signedUnits_eq_zero.mpr hy).symm⟩

theorem SameNumber.fneg {x y : F} (h : SameNumber x y) : SameNumber (fneg x) (fneg y) :=
  ⟨(isFinite_fneg x).trans h.left, (isFinite_fneg y).trans h.right, by rw [signedUnits_fneg, signedUnits_fneg, h.units]⟩

/-- Adding a zero gives the same number. -/
theorem sameNumber_fadd_zero (d : Draw) {x y : F} (hx : isFinite x = true) (hy : isZero y = true) :
    SameNumber (fadd d x y) x := by
  rw [fadd_zero d hx hy]
  split
  · next hz => exact sameNumber_of_zeros (isZero_ofSignMag_zero _) hz
  · exact ⟨hx, hx, rfl⟩

theorem sameNumber_fsub_zero (d : Draw) {x y : F} (hx : isFinite x = true) (hy : isZero y = true) : SameNumber (fsub d x y) x :=
  sameNumber_fadd_zero d hx ((isZero_fneg y).trans hy)

/-- Sums of the same numbers are numerically equal, an infinity included. -/
theorem fadd_numEq (d d' : Draw) {x y y' : F} (hx : isFinite x = true) (h : SameNumber y y') :
    numEq (fadd d x y) (fadd d' x y') = true := by
  rw [fadd_finite d hx h.left, fadd_finite d' hx h.right, h.units]
  split
  · exact (sameNumber_of_zeros (isZero_ofSignMag_zero _) (isZero_ofSignMag_zero _)).numEq
  · exact numEq_refl (isNaN_roundUnits _ _ _)

theorem fsub_numEq (d d' : Draw) {x y y' : F} (hx : isFinite x = true) (h : SameNumber y y') :
    numEq (fsub d x y) (fsub d' x y') = true := fadd_numEq d d' hx h.fneg

/-! ## Multiplying by `W_0` -/

/-- A zero times a finite number is a zero. -/
theorem fmul_zero_left (d : Draw) {w y : F} (hw : isZero w = true) (hy : isFinite y = true) : isZero (fmul d w y) = true := by
  rw [fmul_finite d (isFinite_of_isZero hw) hy, isZero_iff_units.mp hw, zero_mul, roundMag_zero (by positivity)]
  exact isZero_ofSignMag_zero _

theorem cmul_identity (c : TwChoice) (d : Draw) {w z : Sample} (hre : w.re = one) (him : isZero w.im = true)
    (hz : FiniteSample z) : SameNumber (cmul (hardware c) d w z).re z.re ∧ SameNumber (cmul (hardware c) d w z).im z.im := by
  obtain ⟨hzre, hzim⟩ := hz
  simp only [cmul, hardware, hre, fmul_one _ (isNaN_of_isFinite hzre), fmul_one _ (isNaN_of_isFinite hzim)]
  exact ⟨sameNumber_fsub_zero _ hzre (fmul_zero_left _ him hzim), sameNumber_fadd_zero _ hzim (fmul_zero_left _ him hzre)⟩

/-- Multiplying by `W_0` leaves a finite sample the same numbers, for every build and direction (TW-P3). -/
theorem cmul_twiddle_zero (c : TwChoice) (dir : Dir) {N : Nat} (d : Draw) {z : Sample} (hdom : InTwiddleDomain 0 N)
    (hz : FiniteSample z) : SameNumber (cmul (hardware c) d (twiddle c dir 0 N) z).re z.re ∧
      SameNumber (cmul (hardware c) d (twiddle c dir 0 N) z).im z.im := by
  obtain ⟨hre, him⟩ := (twiddleProperties c 0 N hdom).2.1 rfl dir
  exact cmul_identity c d hre him hz

/-! ## The inverse transform -/

/-- The numerics of a build with every forward factor conjugated, in both directions. -/
def conjugated (c : TwChoice) : Numerics F :=
  { hardware c with tw := fun _ k N => ⟨(twiddle c .forward k N).re, fneg (twiddle c .forward k N).im⟩ }

theorem combine_conjugated (c : TwChoice) (d : Draw) (N : Nat) (E O : List Sample) :
    combine (hardware c) d .inverse N E O = combine (conjugated c) d .forward N E O := rfl

/-- The inverse transform is the forward one with conjugated factors, bit for bit at the same places. -/
theorem xform_conjugated (c : TwChoice) (d : Draw) (n : Nat) (x : List Sample) :
    xform (hardware c) d .inverse n x = xform (conjugated c) d .forward n x := by
  induction n generalizing d x with
  | zero => rfl
  | succ n ih => rw [xform, xform, ih, ih, combine_conjugated]

/-- Settles O44: `W_0` leaves the numbers as they are, sums of the same numbers are numerically equal, and the transform with
conjugated factors is the inverse one at the same places. -/
theorem identityTwiddle : Obligations.IdentityTwiddle := by
  refine ⟨fun c dir N d z hdom hz => ?_, fun c dir N d d' E O hdom hE hO => ?_, fun c d d' n x _ => ?_⟩
  · obtain ⟨hre, him⟩ := cmul_twiddle_zero c dir d hdom hz
    exact ⟨hre.numEq, him.numEq⟩
  · obtain ⟨hre, him⟩ := cmul_twiddle_zero c dir (d.at 0) hdom hO
    exact ⟨⟨fadd_numEq _ _ hE.1 hre, fadd_numEq _ _ hE.2 him⟩, ⟨fsub_numEq _ _ hE.1 hre, fsub_numEq _ _ hE.2 him⟩⟩
  · have h := xform_same c d d' .inverse n (List.forall₂_same.mpr fun z (_ : z ∈ x) => SameSample.refl z)
    rwa [xform_conjugated c d' n x] at h

end Sys2Proof.Machine
end

section
/-! SUPPORT. The operations on registers (41_complex_arith.md R131 to R136): the next state of each when its checks pass, and what
a command that writes one register leaves alone. -/

namespace Sys2Proof.Machine

/-! ## NOP (R132) -/

theorem encode_nop : encode .nop = 0#128 := by decide

theorem exec_nop (s : State) : exec .nop s = .next s.respondOk := rfl

/-- A descriptor with `op = 0x00` uses no field, so it is packed from zeros or it is illegal (R80b). -/
theorem decode_of_opField_zero {D : Word} (hop : opField D = 0x00#8) (hD : D ≠ 0#128) :
    decode D = .error .unusedFieldNotZero := by
  have hunused : unusedZero (Format.uses .Z) D ≠ true := by
    intro hzero
    apply hD
    calc D = pack (opField D) ((fieldsOf D).restrict (Format.uses .Z)) := (pack_restrict_of_unusedZero hzero).symm
      _ = encode .nop := by rw [hop]; rfl
      _ = 0#128 := encode_nop
  simp [decode, hop, inFormat, hunused]

/-- Settles O7: a response alone changes no register and no word, and of the descriptors with `op = 0x00` only that of NOP
decodes. -/
theorem nopOnlyAnswers : Obligations.NopOnlyAnswers := by
  refine ⟨encode_nop, encode_nop ▸ decodeOfEncode .nop rfl, fun s => ?answered, fun D s hop hD => ?illegal⟩
  case answered =>
    exact ⟨_, exec_nop s, regsKeptBut_of_regs_eq rfl [], word_respondOk s, succeeded_withData s s.regs s.sm⟩
  case illegal =>
    exact ⟨_, issue_of_decode_error (decode_of_opField_zero hop hD) s, failed_raiseError s (by decide)⟩

/-! ## A command that writes one register (R131) -/

/-- What such a command does to the state: the register holds the value and nothing but the response changes besides. -/
theorem setReg_respondOk_effects (s : State) (i : Reg) (v : Sample) :
    (s.setReg i v).respondOk.reg i = v ∧ RegsKeptBut [i] s (s.setReg i v).respondOk ∧
      WordsKept s (s.setReg i v).respondOk ∧ Succeeded s (s.setReg i v).respondOk :=
  ⟨reg_setReg_self s i v, regsKeptBut_setReg s i v, word_setReg s i v, succeeded_setReg s i v⟩

section
variable (rd ra rb : Reg) (s : State)

theorem exec_cadd : exec (.cadd rd ra rb) s =
    .next (s.setReg rd (cadd (hardware s.cfg.tw) s.place (s.reg ra) (s.reg rb))).respondOk := rfl

theorem exec_csub : exec (.csub rd ra rb) s =
    .next (s.setReg rd (csub (hardware s.cfg.tw) s.place (s.reg ra) (s.reg rb))).respondOk := rfl

theorem exec_cmul : exec (.cmul rd ra rb) s =
    .next (s.setReg rd (cmul (hardware s.cfg.tw) s.place (s.reg ra) (s.reg rb))).respondOk := rfl

theorem exec_cdivn (len : Word32) : exec (.cdivn rd ra len) s = execCdivn rd ra len s := rfl

variable {s}

theorem exec_cdivn_of_pass {len : Word32} (h : firstFailure (divisionChecks s (integer len)) = none) :
    exec (.cdivn rd ra len) s =
      .next (s.setReg rd (cdivn (hardware s.cfg.tw) s.place (s.reg ra) (integer len))).respondOk :=
  (exec_cdivn rd ra s len).trans (command_of_pass _ s h)

end

/-- Settles O8: the value written is `cadd` over binary64, which adds at the places 0 and 1 of the command. -/
theorem caddResult : Obligations.CaddResult := fun rd ra rb s =>
  ⟨_, s.place.at 0, s.place.at 1, exec_cadd rd ra rb s, setReg_respondOk_effects s rd _⟩

/-- Settles O9: the value written is `csub` over binary64, which subtracts at the places 0 and 1 of the command. -/
theorem csubResult : Obligations.CsubResult := fun rd ra rb s =>
  ⟨_, s.place.at 0, s.place.at 1, exec_csub rd ra rb s, setReg_respondOk_effects s rd _⟩

/-- Settles O10: the value written is `cmul` over binary64, whose six operations stand at the places 0 to 5 of the command. -/
theorem cmulResult : Obligations.CmulResult := fun rd ra rb s =>
  ⟨_, s.place.at 0, s.place.at 1, s.place.at 2, s.place.at 3, s.place.at 4, s.place.at 5, exec_cmul rd ra rb s,
    setReg_respondOk_effects s rd _⟩

/-- Settles O11: the hypotheses are the two checks of R136, and the value written is `cdivn` over binary64. -/
theorem cdivnResult : Obligations.CdivnResult := by
  intro rd ra len s hpow hserved
  have hpass : firstFailure (divisionChecks s (integer len)) = none :=
    divisionChecks_pass.mpr ⟨(isPow2_iff _).mpr hpow, hserved⟩
  exact ⟨_, s.place.at 0, s.place.at 1, exec_cdivn_of_pass rd ra hpass, setReg_respondOk_effects s rd _⟩

end Sys2Proof.Machine
end

section
/-! SUPPORT. The twiddle operations (42_twiddle_butterfly.md R140 to R145): the next state of each when its checks pass, and the
butterfly put together from its parts. -/

namespace Sys2Proof.Machine

/-! ## The next states (R141 to R144) -/

theorem TwiddleReady.checks_pass {s : State} {k len : Word32} (h : TwiddleReady s k len) :
    firstFailure (twiddleChecks s (integer k) (integer len)) = none :=
  twiddleChecks_pass.mpr ⟨(isPow2_iff _).mpr h.isPower, h.served, h.indexInRange⟩

section
variable (rd rd2 ra rb : Reg) (dir : Dir)

theorem exec_twid (k len : Word32) (s : State) : exec (.twid rd dir k len) s = execTwid rd dir k len s := rfl

theorem exec_twmul (k len : Word32) (s : State) : exec (.twmul rd ra dir k len) s = execTwmul rd ra dir k len s := rfl

theorem exec_bfly (k len : Word32) (s : State) :
    exec (.bfly rd rd2 ra rb dir k len) s = execBfly rd rd2 ra rb dir k len s := rfl

variable {k len : Word32} {s : State} (h : TwiddleReady s k len)
include h

theorem exec_twid_of_ready : exec (.twid rd dir k len) s =
    .next (s.setReg rd (twiddle s.cfg.tw dir (integer k) (integer len))).respondOk :=
  (exec_twid rd dir k len s).trans (command_of_pass _ s h.checks_pass)

theorem exec_twmul_of_ready : exec (.twmul rd ra dir k len) s =
    .next (s.setReg rd
      (cmul (hardware s.cfg.tw) s.place (twiddle s.cfg.tw dir (integer k) (integer len)) (s.reg ra))).respondOk :=
  (exec_twmul rd ra dir k len s).trans (command_of_pass _ s h.checks_pass)

/-- The product `T` stands at place 0 of the command, the sum at place 1 and the difference at place 2 (R140). -/
theorem exec_bfly_of_ready {T : Sample}
    (hT : T = cmul (hardware s.cfg.tw) (s.place.at 0) (twiddle s.cfg.tw dir (integer k) (integer len)) (s.reg rb)) :
    exec (.bfly rd rd2 ra rb dir k len) s =
      .next ((s.setReg rd (cadd (hardware s.cfg.tw) (s.place.at 1) (s.reg ra) T)).setReg rd2
        (csub (hardware s.cfg.tw) (s.place.at 2) (s.reg ra) T)).respondOk := by
  subst hT
  exact (exec_bfly rd rd2 ra rb dir k len s).trans (command_of_pass _ s h.checks_pass)

end

/-- What a command that writes two different registers does to the state. -/
theorem setReg_setReg_respondOk_effects (s : State) {i j : Reg} (hij : i ≠ j) (v w : Sample) :
    ((s.setReg i v).setReg j w).respondOk.reg i = v ∧ ((s.setReg i v).setReg j w).respondOk.reg j = w ∧
      RegsKeptBut [i, j] s ((s.setReg i v).setReg j w).respondOk ∧
      WordsKept s ((s.setReg i v).setReg j w).respondOk ∧ Succeeded s ((s.setReg i v).setReg j w).respondOk := by
  refine ⟨?first, reg_setReg_self _ j w, fun r hr => ?others, fun _ => rfl, succeeded_respondOk rfl rfl rfl rfl rfl rfl rfl⟩
  case first => rw [reg_respondOk, reg_setReg_ne _ hij.symm, reg_setReg_self]
  case others =>
    obtain ⟨hi, hj⟩ : r ≠ i ∧ r ≠ j := by simpa using hr
    rw [reg_respondOk, reg_setReg_ne _ hj.symm, reg_setReg_ne _ hi.symm]

/-- Settles O12: the value written is the factor of the build's generator, in which no register stands. -/
theorem twidResult : Obligations.TwidResult := fun rd dir _ _ s h =>
  ⟨_, exec_twid_of_ready rd dir h, setReg_respondOk_effects s rd _⟩

/-- Settles O13: the value written is `cmul` over binary64 of the factor and the register, at the places 0 to 5 of the
command. -/
theorem twmulResult : Obligations.TwmulResult := fun rd ra dir _ _ s h =>
  ⟨_, s.place.at 0, s.place.at 1, s.place.at 2, s.place.at 3, s.place.at 4, s.place.at 5, exec_twmul_of_ready rd ra dir h,
    setReg_respondOk_effects s rd _⟩

/-- Settles O14: `T` is a `cmul` over binary64, and what is written are `cadd` and `csub` of `E` and that one `T`. -/
theorem bflyResult : Obligations.BflyResult := by
  intro rd rd2 ra rb dir k len s hne h W E O
  let dT := s.place.at 0
  let dSum := s.place.at 1
  let dDiff := s.place.at 2
  exact ⟨_, cmul (hardware s.cfg.tw) dT W O, dT.at 0, dT.at 1, dT.at 2, dT.at 3, dT.at 4, dT.at 5, dSum.at 0, dSum.at 1,
    dDiff.at 0, dDiff.at 1, exec_bfly_of_ready rd rd2 ra rb dir h rfl, rfl, setReg_setReg_respondOk_effects s hne _ _⟩

/-! ## The butterfly from its parts (R145) -/

theorem sameSample_cmul_draw (c : TwChoice) (d d' : Draw) (x y : Sample) :
    SameSample (cmul (hardware c) d x y) (cmul (hardware c) d' x y) := .cmul c d d' (.refl x) (.refl y)

/-- CADD then CSUB of the same sources leave their sum and their difference, when the sum overwrites no source of the
difference. -/
theorem exec_cadd_csub {x y e t : Reg} (hxe : x ≠ e) (hxt : x ≠ t) (hxy : x ≠ y) (s : State) :
    ∃ s₁ s₂ d d', exec (.cadd x e t) s = .next s₁ ∧ exec (.csub y e t) s₁ = .next s₂ ∧
      s₂.reg x = cadd (hardware s.cfg.tw) d (s.reg e) (s.reg t) ∧
      s₂.reg y = csub (hardware s.cfg.tw) d' (s.reg e) (s.reg t) := by
  let s₁ := (s.setReg x (cadd (hardware s.cfg.tw) s.place (s.reg e) (s.reg t))).respondOk
  have he : s₁.reg e = s.reg e := reg_setReg_ne s hxe _
  have ht : s₁.reg t = s.reg t := reg_setReg_ne s hxt _
  have hx : s₁.reg x = cadd (hardware s.cfg.tw) s.place (s.reg e) (s.reg t) := reg_setReg_self s x _
  have hcfg : s₁.cfg = s.cfg := rfl
  refine ⟨s₁, _, s.place, s₁.place, exec_cadd x e t s, exec_csub y e t s₁, ?sum, ?difference⟩
  case sum => rw [reg_respondOk, reg_setReg_ne _ hxy.symm, hx]
  case difference => rw [reg_respondOk, reg_setReg_self, he, ht, hcfg]

/-- Settles O22: the parts compute on equal operands and differ from BFLY, and TWID, CMUL from TWMUL, only in the places of
their operations, which select the free bits of a NaN. -/
theorem butterflyFromItsParts : Obligations.ButterflyFromItsParts := by
  refine ⟨fun t e o x y dir k len s h hte hxe hxt hxy => ?butterfly, fun w t o dir k len s h hwo => ?product⟩
  case butterfly =>
    let T := cmul (hardware s.cfg.tw) s.place (twiddle s.cfg.tw dir (integer k) (integer len)) (s.reg o)
    let s₁ := (s.setReg t T).respondOk
    have he : s₁.reg e = s.reg e := reg_setReg_ne s hte T
    have ht : s₁.reg t = T := reg_setReg_self s t T
    obtain ⟨s₂, s₃, d, d', hadd, hsub, hx, hy⟩ := exec_cadd_csub hxe hxt hxy s₁
    rw [he, ht] at hx hy
    obtain ⟨hux, huy, -⟩ := setReg_setReg_respondOk_effects s hxy (cadd (hardware s.cfg.tw) (s.place.at 1) (s.reg e) _)
      (csub (hardware s.cfg.tw) (s.place.at 2) (s.reg e) _)
    refine ⟨s₁, s₂, s₃, _, exec_twmul_of_ready t o dir h, hadd, hsub, exec_bfly_of_ready x y e o dir h rfl, ?_, ?_⟩
    · rw [hx, hux]
      exact .cadd _ _ _ (.refl _) (sameSample_cmul_draw _ _ _ _ _)
    · rw [hy, huy]
      exact .csub _ _ _ (.refl _) (sameSample_cmul_draw _ _ _ _ _)
  case product =>
    let W := twiddle s.cfg.tw dir (integer k) (integer len)
    let s₁ := (s.setReg w W).respondOk
    have hw : s₁.reg w = W := reg_setReg_self s w W
    have ho : s₁.reg o = s.reg o := reg_setReg_ne s hwo W
    refine ⟨s₁, _, _, exec_twid_of_ready w dir h, exec_cmul t w o s₁, exec_twmul_of_ready t o dir h, ?_⟩
    rw [hw, ho, reg_respondOk, reg_respondOk, reg_setReg_self, reg_setReg_self]
    exact sameSample_cmul_draw _ _ _ _ _

end Sys2Proof.Machine
end

section
/-! SUPPORT. The two transfers of one word (43_load_store.md R150 to R152): the next state of each when its address exists, and the
two in succession at one address. -/

namespace Sys2Proof.Machine

theorem exec_cld (rd : Reg) (a : Word32) (s : State) : exec (.cld rd a) s = execCld rd a s := rfl

theorem exec_cst (ra : Reg) (a : Word32) (s : State) : exec (.cst ra a) s = execCst ra a s := rfl

theorem exec_cld_of_lt (rd : Reg) {a : Word32} {s : State} (h : address a < s.cfg.smSize) :
    exec (.cld rd a) s = .next (s.setReg rd (s.word (address a))).respondOk :=
  (exec_cld rd a s).trans (command_of_pass _ s (accessChecks_pass.mpr h))

theorem exec_cst_of_lt (ra : Reg) {a : Word32} {s : State} (h : address a < s.cfg.smSize) :
    exec (.cst ra a) s = .next (s.memWrite (address a) [s.reg ra]).respondOk :=
  (exec_cst ra a s).trans (command_of_pass _ s (accessChecks_pass.mpr h))

theorem word_memWrite_single (s : State) (b : Nat) (v : Sample) : (s.memWrite b [v]).word b = v :=
  word_memWrite_inside s b (vs := [v]) Nat.one_pos

/-- A word written back to its own address changes no word. -/
theorem word_memWrite_word (s : State) (b x : Nat) : (s.memWrite b [s.word b]).word x = s.word x := by
  by_cases hx : x = b
  · rw [hx, word_memWrite_single]
  · have houtside : ¬(b ≤ x ∧ x < b + [s.word b].length) := by rw [List.length_singleton]; omega
    exact word_memWrite_outside s houtside

/-- Settles O15: the address check passes, and the effect writes one register. -/
theorem cldResult : Obligations.CldResult := fun rd _ s h =>
  ⟨_, exec_cld_of_lt rd h, setReg_respondOk_effects s rd _⟩

/-- Settles O16: the address check passes, and the effect is a write of one word, which is outside every other word. -/
theorem cstResult : Obligations.CstResult := fun ra a s h =>
  ⟨_, exec_cst_of_lt ra h, word_memWrite_single s (address a) (s.reg ra), regsKeptBut_of_regs_eq rfl [],
    wordsKeptOutside_memWrite s (address a) [s.reg ra], succeeded_memWrite s (address a) [s.reg ra]⟩

/-- Settles O21: the first transfer keeps the parameters, so the address check passes again; a load reads the word just stored,
and a store after a load writes a word back to its own address. -/
theorem storeThenLoad : Obligations.StoreThenLoad := by
  refine fun ra rd a s h => ⟨?storeLoad, ?loadStore⟩
  case storeLoad =>
    let t := (s.memWrite (address a) [s.reg ra]).respondOk
    have hword : t.word (address a) = s.reg ra := word_memWrite_single s (address a) (s.reg ra)
    refine ⟨t, _, exec_cst_of_lt ra h, exec_cld_of_lt (s := t) rd h, ?_⟩
    rw [reg_respondOk, reg_setReg_self, hword]
  case loadStore =>
    let t := (s.setReg rd (s.word (address a))).respondOk
    have hreg : t.reg rd = t.word (address a) := reg_setReg_self s rd (s.word (address a))
    refine ⟨t, _, exec_cld_of_lt rd h, exec_cst_of_lt (s := t) rd h, fun x => ?_⟩
    calc (t.memWrite (address a) [t.reg rd]).respondOk.word x
        = (t.memWrite (address a) [t.word (address a)]).word x := by rw [word_respondOk, hreg]
      _ = t.word x := word_memWrite_word t (address a) x

end Sys2Proof.Machine
end

section
/-! SUPPORT. The reversal of an index (44_bitrev.md R156, R157): `rev(i, n)` is the one number below `2^n` with the mirrored bits,
and every law of `rev` is read off from that or from the recursion. -/

namespace Sys2Proof.Machine

theorem rev_succ (i n : Nat) : rev i (n + 1) = i % 2 * 2 ^ n + rev (i / 2) n := rfl

theorem rev_lt (i n : Nat) : rev i n < 2 ^ n := by
  induction n generalizing i with
  | zero => exact Nat.one_pos
  | succ n ih =>
    have hlow := ih (i / 2)
    have hbit : i % 2 * 2 ^ n ≤ 1 * 2 ^ n := Nat.mul_le_mul_right _ (by omega)
    rw [rev_succ, pow_succ]
    omega

/-- The lowest bit of `i` stands above the reversal of the others. -/
theorem testBit_rev (i : Nat) {n j : Nat} (h : j < n) : (rev i n).testBit j = i.testBit (n - 1 - j) := by
  induction n generalizing i with
  | zero => omega
  | succ n ih =>
    rw [rev_succ, Nat.mul_comm, Nat.testBit_two_pow_mul_add _ (rev_lt _ _)]
    split
    · next hj => rw [ih _ hj, ← Nat.testBit_succ, show (n - 1 - j).succ = n + 1 - 1 - j by omega]
    · next hj =>
      obtain rfl : j = n := by omega
      simp

/-- The definition of R156. -/
theorem rev_eq_iff {i n r : Nat} : rev i n = r ↔ r < 2 ^ n ∧ ∀ j, j < n → r.testBit j = i.testBit (n - 1 - j) := by
  constructor
  · rintro rfl
    exact ⟨rev_lt i n, fun j => testBit_rev i⟩
  · rintro ⟨hr, hbits⟩
    refine Nat.eq_of_testBit_eq fun j => ?_
    rcases Nat.lt_or_ge j n with hj | hj
    · rw [testBit_rev i hj, hbits j hj]
    · have hpow : 2 ^ n ≤ 2 ^ j := Nat.pow_le_pow_right Nat.two_pos hj
      rw [Nat.testBit_lt_two_pow ((rev_lt i n).trans_le hpow), Nat.testBit_lt_two_pow (hr.trans_le hpow)]

theorem rev_eq_sum (i n : Nat) : rev i n = ∑ j ∈ Finset.range n, (i.testBit j).toNat * 2 ^ (n - 1 - j) := by
  induction n generalizing i with
  | zero => rfl
  | succ n ih =>
    have hlow : (i.testBit 0).toNat = i % 2 := by rw [Nat.toNat_testBit, pow_zero, Nat.div_one]
    have hhigh : ∀ j ∈ Finset.range n, (i.testBit (j + 1)).toNat * 2 ^ (n + 1 - 1 - (j + 1)) =
        ((i / 2).testBit j).toNat * 2 ^ (n - 1 - j) := fun j _ => by
      rw [Nat.testBit_succ, show n + 1 - 1 - (j + 1) = n - 1 - j by omega]
    rw [rev_succ, ih, Finset.sum_range_succ', Finset.sum_congr rfl hhigh, hlow, Nat.add_comm]
    rfl

/-- Settles O45: the bits and the sum by induction on `n`; the recursion is the model's definition. -/
theorem revReversesBits : Obligations.RevReversesBits :=
  ⟨fun n i _ => ⟨rev_lt i n, fun _ => testBit_rev i, rev_eq_sum i n⟩, fun _ _ => rfl, fun n i _ => rev_succ i n⟩

/-! ## The laws of R157 -/

/-- Mirroring the bits twice leaves each in its place. -/
theorem rev_rev {i n : Nat} (h : i < 2 ^ n) : rev (rev i n) n = i :=
  rev_eq_iff.mpr ⟨h, fun j hj => by rw [testBit_rev i (by omega), show n - 1 - (n - 1 - j) = j by omega]⟩

theorem rev_eq_comm {i k n : Nat} (hi : i < 2 ^ n) (hk : k < 2 ^ n) : rev i n = k ↔ rev k n = i :=
  ⟨fun h => h ▸ rev_rev hi, fun h => h ▸ rev_rev hk⟩

theorem rev_bijOn (n : Nat) : Set.BijOn (fun i => rev i n) (Set.Iio (2 ^ n)) (Set.Iio (2 ^ n)) :=
  have hinvolution : Set.LeftInvOn (fun i => rev i n) (fun i => rev i n) (Set.Iio (2 ^ n)) := fun _ h => rev_rev h
  have hrange : Set.MapsTo (fun i => rev i n) (Set.Iio (2 ^ n)) (Set.Iio (2 ^ n)) := fun i _ => rev_lt i n
  Set.InvOn.bijOn ⟨hinvolution, hinvolution⟩ hrange hrange

@[simp] theorem rev_zero_left (n : Nat) : rev 0 n = 0 :=
  rev_eq_iff.mpr ⟨Nat.two_pow_pos n, fun j _ => by rw [Nat.zero_testBit, Nat.zero_testBit]⟩

@[simp] theorem rev_two_pow_sub_one (n : Nat) : rev (2 ^ n - 1) n = 2 ^ n - 1 := by
  have hpos := Nat.two_pow_pos n
  refine rev_eq_iff.mpr ⟨by omega, fun j hj => ?_⟩
  rw [Nat.testBit_two_pow_sub_one, Nat.testBit_two_pow_sub_one, decide_eq_decide]
  omega

theorem rev_of_lt_two {i : Nat} (h : i < 2) : rev i 1 = i := by
  rw [rev_succ, Nat.mod_eq_of_lt h]
  exact Nat.mul_one i

theorem rev_even (i n : Nat) : rev (2 * i) (n + 1) = rev i n := by
  rw [rev_succ, Nat.mul_mod_right, Nat.zero_mul, Nat.zero_add, Nat.mul_div_cancel_left i Nat.two_pos]

theorem rev_odd (i n : Nat) : rev (2 * i + 1) (n + 1) = 2 ^ n + rev i n := by
  rw [rev_succ, show (2 * i + 1) % 2 = 1 by omega, show (2 * i + 1) / 2 = i by omega, Nat.one_mul]

/-- An index of the lower half comes from an even one. -/
theorem rev_lower {i n : Nat} (h : i < 2 ^ n) : rev i (n + 1) = 2 * rev i n := by
  have hr := rev_lt i n
  rw [rev_eq_comm (by omega) (by omega), rev_even, rev_rev h]

/-- An index of the upper half comes from an odd one. -/
theorem rev_upper {i n : Nat} (h : i < 2 ^ n) : rev (i + 2 ^ n) (n + 1) = 2 * rev i n + 1 := by
  have hr := rev_lt i n
  rw [rev_eq_comm (by omega) (by omega), rev_odd, rev_rev h, Nat.add_comm]

theorem rev_eq_self_iff {i n : Nat} (h : i < 2 ^ n) :
    rev i n = i ↔ ∀ j, j < n → i.testBit j = i.testBit (n - 1 - j) := rev_eq_iff.trans (and_iff_right h)

/-- Settles O46: (a) to (c) and (g) by the bits, (e) by the recursion, (f) from (e) by the involution; the tables are computed. -/
theorem revLaws : Obligations.RevLaws :=
  ⟨rev_bijOn, fun _ _ => rev_rev, fun n => ⟨rev_zero_left n, rev_two_pow_sub_one n⟩, ⟨rfl, fun _ => rev_of_lt_two⟩,
   fun n i h => ⟨rev_even i n, rev_odd i n, rev_upper h, rev_lower h⟩, fun _ _ => rev_eq_self_iff, by decide⟩

end Sys2Proof.Machine
end

section
/-! SUPPORT. The bit reversal of a sequence (44_bitrev.md R158, R159), from the laws of `rev` on its indices, and the sequence
that BITREV leaves in memory. -/

namespace Sys2Proof.Machine

section
variable {α : Type}

theorem evens_getElem? (x : List α) (i : Nat) : (evens x)[i]? = x[2 * i]? := by
  induction x using evens.induct generalizing i with
  | case1 => rfl
  | case2 a => cases i <;> rfl
  | case3 a b t ih =>
    cases i with
    | zero => rfl
    | succ i => exact ih i

theorem odds_getElem? (x : List α) (i : Nat) : (odds x)[i]? = x[2 * i + 1]? := by
  induction x using odds.induct generalizing i with
  | case1 => rfl
  | case2 a => rfl
  | case3 a b t ih =>
    cases i with
    | zero => rfl
    | succ i => exact ih i

variable [Inhabited α]

theorem bitrev_getElem? {n i : Nat} {x : List α} (hx : x.length = 2 ^ n) (hi : i < 2 ^ n) :
    (bitrev n x)[i]? = x[rev i n]? := by
  have hr : rev i n < x.length := hx ▸ rev_lt i n
  rw [bitrev, List.getElem?_map, List.getElem?_range hi, Option.map_some, List.getElem?_eq_getElem hr, Option.getD_some]

theorem bitrev_bitrev {n : Nat} {x : List α} (hx : x.length = 2 ^ n) : bitrev n (bitrev n x) = x := by
  refine List.ext_getElem? fun i => ?_
  rcases Nat.lt_or_ge i (2 ^ n) with hi | hi
  · rw [bitrev_getElem? (bitrev_length n x) hi, bitrev_getElem? hx (rev_lt i n), rev_rev hi]
  · rw [List.getElem?_eq_none (by rwa [bitrev_length]), List.getElem?_eq_none (by rwa [hx])]

/-- The reversed indices are the indices in another order. -/
theorem map_rev_range_perm (n : Nat) : ((List.range (2 ^ n)).map fun i => rev i n).Perm (List.range (2 ^ n)) := by
  have hnodup : ((List.range (2 ^ n)).map fun i => rev i n).Nodup :=
    List.nodup_range.map_on fun i hi k hk h => (rev_bijOn n).injOn (List.mem_range.mp hi) (List.mem_range.mp hk) h
  refine (List.perm_ext_iff_of_nodup hnodup List.nodup_range).mpr fun k => ?_
  rw [List.mem_map, List.mem_range]
  constructor
  · rintro ⟨i, -, rfl⟩
    exact rev_lt i n
  · exact fun hk => ⟨rev k n, List.mem_range.mpr (rev_lt k n), rev_rev hk⟩

theorem bitrev_perm {n : Nat} {x : List α} (hx : x.length = 2 ^ n) : (bitrev n x).Perm x := by
  have hread : ((List.range (2 ^ n)).map fun i => x[i]?.getD default) = x := by
    refine List.ext_getElem (by simp [hx]) fun i _ hi => ?_
    simp [hi]
  have hperm := (map_rev_range_perm n).map fun i => x[i]?.getD default
  rwa [List.map_map, hread] at hperm

/-- The lower half of the result reads the even indices and the upper half the odd ones (R157 (f)). -/
theorem bitrev_succ (n : Nat) (x : List α) : bitrev (n + 1) x = bitrev n (evens x) ++ bitrev n (odds x) := by
  simp only [bitrev, pow_succ, Nat.mul_two, List.range_add, List.map_append, List.map_map]
  refine congrArg₂ _ (List.map_congr_left fun i hi => ?_) (List.map_congr_left fun i hi => ?_)
  · rw [rev_lower (List.mem_range.mp hi), evens_getElem?]
  · rw [Function.comp_apply, Nat.add_comm, rev_upper (List.mem_range.mp hi), odds_getElem?]

end

/-- A destination word of BITREV is the source word of the reversed index. -/
theorem word_memWrite_bitrev_memRead (s : State) (a b : Nat) {n i : Nat} (hi : i < 2 ^ n) :
    (s.memWrite b (bitrev n (s.memRead a (2 ^ n)))).word (b + i) = s.word (a + rev i n) := by
  have hlen : i < (bitrev n (s.memRead a (2 ^ n))).length := by rwa [bitrev_length]
  rw [word_memWrite_inside s b hlen, ← Option.some_inj, ← List.getElem?_eq_getElem hlen,
    bitrev_getElem? (memRead_length s a (2 ^ n)) hi, memRead_getElem? s a (rev_lt i n)]

/-- Settles O17: the checks pass, and the effect is one write of `2^n` words at the destination. -/
theorem bitrevResult : Obligations.BitrevResult := by
  intro a b len n s h
  have houtside := wordsKeptOutside_memWrite s (address b) (bitrev n (s.memRead (address a) (2 ^ n)))
  rw [bitrev_length] at houtside
  exact ⟨_, exec_bitrev_of_ready h, fun i hi => word_memWrite_bitrev_memRead s (address a) (address b) hi,
    regsKeptBut_of_regs_eq rfl [], houtside, succeeded_memWrite s (address b) _⟩

/-- Settles O47: each law of the sequence from the law of `rev` on its indices; the second command passes its checks because the
first keeps the parameters, and it reads word `rev(i, n)` of what the first one wrote. -/
theorem bitrevLaws : Obligations.BitrevLaws := by
  refine ⟨fun n x hx => ⟨bitrev_bitrev hx, bitrev_perm hx, ?first, ?last⟩, fun n x _ => bitrev_succ n x, ?copy⟩
  case first => rw [bitrev_getElem? hx (Nat.two_pow_pos n), rev_zero_left]
  case last => rw [bitrev_getElem? hx (Nat.sub_one_lt_of_lt (Nat.two_pow_pos n)), rev_two_pow_sub_one]
  case copy =>
    intro a b c len n s hab hbc
    obtain ⟨t, ht, hword, -, -, hsucc⟩ := bitrevResult a b len n s hab
    obtain ⟨u, hu, hword', -⟩ := bitrevResult b c len n t (hbc.of_cfg hsucc.responded.build)
    refine ⟨t, u, ht, hu, fun i hi => ?_⟩
    rw [hword' i hi, hword (rev i n) (rev_lt i n), rev_rev hi]

end Sys2Proof.Machine
end

section
/-! SUPPORT. The elements of a combination and of the two transforms (45_transform_engine.md R166 to R169), and the sequences that
FFT and IFFT leave in memory (R170 to R172). -/

namespace Sys2Proof.Machine

/-- Settles O48: the lengths are those of the halves, and an element of a half is the element of its index in the whole. -/
theorem splitByParity : Obligations.SplitByParity := by
  intro x m hx
  refine ⟨?_, ?_, fun i _ => ⟨evens_getElem? x i, odds_getElem? x i⟩⟩
  · rw [evens_length, hx]
    omega
  · rw [odds_length, hx]
    omega

theorem evens_length_two_pow {α : Type} {n : Nat} {x : List α} (hx : x.length = 2 ^ (n + 1)) : (evens x).length = 2 ^ n := by
  rw [evens_length, hx, pow_succ]
  omega

theorem odds_length_two_pow {α : Type} {n : Nat} {x : List α} (hx : x.length = 2 ^ (n + 1)) : (odds x).length = 2 ^ n := by
  rw [odds_length, hx, pow_succ]
  omega

/-! ## The recursion -/

section
variable {R : Type} (num : Numerics R) (d : Draw) (dir : Dir)

/-- Outputs `k` and `k + N/2` of a combination are the two outputs of one butterfly (R167). -/
theorem combine_getElem? (N : Nat) {E O : List (Cx R)} {k : Nat} {e o : Cx R} (hlen : E.length = O.length)
    (he : E[k]? = some e) (ho : O[k]? = some o) :
    (combine num d dir N E O)[k]? = some (bfly num (d.at k) dir k N e o).1 ∧
      (combine num d dir N E O)[k + E.length]? = some (bfly num (d.at k) dir k N e o).2 := by
  obtain ⟨hk, -⟩ := List.getElem?_eq_some_iff.mp he
  have hzip : (E.zip O)[k]? = some (e, o) := List.getElem?_zip_eq_some.mpr ⟨he, ho⟩
  constructor
  · rw [combine, List.getElem?_append_left (by simpa [← hlen] using hk)]
    simp [hzip]
  · rw [combine, List.getElem?_append_right (by simp [← hlen])]
    simp [hzip, ← hlen]

/-- The transform of `2^(n+1)` samples at the indices `k` and `k + 2^n`, from elements `k` of the transformed halves. -/
theorem xform_succ_getElem? {n k : Nat} {x : List (Cx R)} {e o : Cx R} (hx : x.length = 2 ^ (n + 1))
    (he : (xform num (d.at 0) dir n (evens x))[k]? = some e) (ho : (xform num (d.at 1) dir n (odds x))[k]? = some o) :
    (xform num d dir (n + 1) x)[k]? = some (bfly num ((d.at 2).at k) dir k (2 ^ (n + 1)) e o).1 ∧
      (xform num d dir (n + 1) x)[k + 2 ^ n]? = some (bfly num ((d.at 2).at k) dir k (2 ^ (n + 1)) e o).2 := by
  have hE := xform_length num (d.at 0) dir n _ (evens_length_two_pow hx)
  have hO := xform_length num (d.at 1) dir n _ (odds_length_two_pow hx)
  have h := combine_getElem? num (d.at 2) dir (2 ^ (n + 1)) (hE.trans hO.symm) he ho
  rwa [hE] at h

theorem exists_xform_getElem? {n k : Nat} {x : List (Cx R)} (hx : x.length = 2 ^ n) (hk : k < 2 ^ n) :
    ∃ y, (xform num d dir n x)[k]? = some y :=
  ⟨_, List.getElem?_eq_getElem (by rwa [xform_length num d dir n x hx])⟩

/-- Output `i` of the inverse transform is output `i` of the recursion, divided (R169). -/
theorem ifft_getElem? (n : Nat) (x : List (Cx R)) (i : Nat) :
    (ifft num d n x)[i]? = ((xform num (d.at 0) .inverse n x)[i]?).map fun y => cdivn num ((d.at 1).at i) y (2 ^ n) :=
  List.getElem?_mapIdx

end

/-- Settles O49: the transformed halves have the elements `k` below `N/2`, and a butterfly is the sum and the difference with
one product. -/
theorem transformIsTheRecursion : Obligations.TransformIsTheRecursion := by
  refine fun num d dir => ⟨fun z => rfl, fun n x hx => ⟨xform_length num d dir (n + 1) x hx, d.at 0, d.at 1, fun k hk => ?_⟩⟩
  obtain ⟨e, he⟩ := exists_xform_getElem? num (d.at 0) dir (evens_length_two_pow hx) hk
  obtain ⟨o, ho⟩ := exists_xform_getElem? num (d.at 1) dir (odds_length_two_pow hx) hk
  exact ⟨e, o, _, _, _, he, ho, xform_succ_getElem? num d dir hx he ho⟩

/-! ## The division by `N` -/

/-- Division by `ofNat(1)` is division by `2^0`, which is multiplication by `1.0`. -/
theorem sameScalar_fdiv_one (d : Draw) (x : F) : SameScalar (fdiv d x (ofNat (2 ^ 0))) x := by
  cases hx : isNaN x with
  | true => exact .inr ⟨drawsOnlyNaN_fdiv.ofNaN d x _ (.inl hx), hx⟩
  | false =>
    have hone : powerOfTwo 0 = one := by decide
    have hdiv := fdiv_powerOfTwo d d x (j := 0) (by norm_num) (by norm_num)
    have hmul := (fmul_comm d d x one).eq (by rwa [fmul_one d hx])
    rw [neg_zero, hone, hmul, fmul_one d hx] at hdiv
    rwa [ofNat_two_pow (by norm_num), Nat.cast_zero, hone]

/-- Settles O50: the two transforms are the model's definitions; on one sample the recursion copies and the divisor is 1. -/
theorem inverseDividesOnce : Obligations.InverseDividesOnce := by
  refine fun c d n x hx => ⟨rfl, ⟨d.at 0, fun i hi => ?_⟩, ?_⟩
  · obtain ⟨y, hy⟩ := exists_xform_getElem? (hardware c) (d.at 0) .inverse hx hi
    exact ⟨y, _, _, hy, (ifft_getElem? (hardware c) d n x i).trans (congrArg (Option.map _) hy)⟩
  · rintro rfl z rfl
    exact ⟨rfl, _, rfl, sameScalar_fdiv_one _ z.re, sameScalar_fdiv_one _ z.im⟩

/-! ## FFT and IFFT -/

/-- A command that writes a sequence of length `m` at `b`: its words, no register, no other word, and the success effects. -/
theorem memWrite_respondOk_effects (s : State) (b : Nat) {vs : List Sample} {m : Nat} (hm : vs.length = m) :
    (∀ i, i < m → some ((s.memWrite b vs).respondOk.word (b + i)) = vs[i]?) ∧ RegsKeptBut [] s (s.memWrite b vs).respondOk ∧
      WordsKeptOutside b m s (s.memWrite b vs).respondOk ∧ Succeeded s (s.memWrite b vs).respondOk := by
  subst hm
  refine ⟨fun i hi => ?_, regsKeptBut_of_regs_eq rfl [], wordsKeptOutside_memWrite s b vs, succeeded_memWrite s b vs⟩
  rw [word_respondOk, word_memWrite_inside s b hi, List.getElem?_eq_getElem hi]

/-- Settles O18: the checks pass, and the effect is one write of the transform of the source words at the destination. -/
theorem fftResult : Obligations.FftResult := fun _ b _ n s h =>
  ⟨_, s.place, exec_fft_of_ready h,
    memWrite_respondOk_effects s (address b) (fft_length _ s.place n _ (memRead_length s _ _))⟩

/-- Settles O19: the checks pass, and each word written at the destination is an output of the recursion, divided. -/
theorem ifftResult : Obligations.IfftResult := by
  intro a b len n s h
  have hlen := memRead_length s (address a) (2 ^ n)
  obtain ⟨hwords, hkept⟩ := memWrite_respondOk_effects s (address b) (ifft_length (hardware s.cfg.tw) s.place n _ hlen)
  refine ⟨_, s.place.at 0, exec_ifft_of_ready h, fun i hi => ?_, hkept⟩
  obtain ⟨y, hy⟩ := exists_xform_getElem? (hardware s.cfg.tw) (s.place.at 0) .inverse hlen hi
  have hword := hwords i hi
  rw [ifft_getElem?, hy, Option.map_some, Option.some_inj] at hword
  exact ⟨y, _, _, hy, hword⟩

end Sys2Proof.Machine
end

section
/-! SUPPORT. The iterative bottom-up form computes the recursion (45_transform_engine.md R174): the first `n` stages on `2^(n+1)`
samples work on the two halves apart, and bit reversal puts the even samples into the lower half and the odd ones into the
upper half. -/

namespace Sys2Proof.Machine

open List (Forall₂)

/-! ## Agreement up to the free bits of a NaN -/

theorem SameScalar.trans {x y z : F} (hxy : SameScalar x y) (hyz : SameScalar y z) : SameScalar x z := by
  rcases hxy with rfl | ⟨hx, hy⟩
  · exact hyz
  rcases hyz with rfl | ⟨-, hz⟩
  · exact .inr ⟨hx, hy⟩
  · exact .inr ⟨hx, hz⟩

/-- Two sequences of equal length whose elements agree up to the free bits of a NaN. -/
abbrev SameSequence (x y : List Sample) : Prop := Forall₂ SameSample x y

theorem SameSequence.refl (x : List Sample) : SameSequence x x := List.forall₂_same.mpr fun z _ => SameSample.refl z

theorem SameSequence.trans {x y z : List Sample} (hxy : SameSequence x y) (hyz : SameSequence y z) : SameSequence x z := by
  induction hxy generalizing z with
  | nil => exact hyz
  | cons hab _ ih =>
    cases hyz with
    | cons hbc hyz => exact .cons ⟨hab.1.trans hbc.1, hab.2.trans hbc.2⟩ (ih hyz)

/-! ## One stage -/

section
variable (c : TwChoice) (dir : Dir)

theorem stage_length {R : Type} (num : Numerics R) (d : Draw) {m : Nat} (hm : m % 2 = 0) (blocks : Nat) {y : List (Cx R)}
    (hy : y.length = m * blocks) : (stage num d dir m blocks y).length = m * blocks := by
  induction blocks generalizing y with
  | zero => exact hy
  | succ blocks ih =>
    rw [Nat.mul_succ] at hy ⊢
    have hrest : (y.drop m).length = m * blocks := by
      rw [List.length_drop]
      omega
    rw [stage, List.length_append, ih hrest, combine_length, List.length_drop, List.length_take, List.length_take]
    omega

theorem stage_same (d d' : Draw) (m blocks : Nat) {y y' : List Sample} (h : SameSequence y y') :
    SameSequence (stage (hardware c) d dir m blocks y) (stage (hardware c) d' dir m blocks y') := by
  induction blocks generalizing y y' with
  | zero => exact h
  | succ blocks ih =>
    exact List.rel_append (combine_same c _ _ dir m (List.forall₂_take _ h) (List.forall₂_drop _ (List.forall₂_take _ h)))
      (ih (List.forall₂_drop _ h))

/-- Adjacent groups of blocks are worked on apart. -/
theorem stage_append (d d' d'' : Draw) (m a b : Nat) {x y : List Sample} (hx : x.length = m * a) :
    SameSequence (stage (hardware c) d dir m (a + b) (x ++ y))
      (stage (hardware c) d' dir m a x ++ stage (hardware c) d'' dir m b y) := by
  induction a generalizing x with
  | zero =>
    obtain rfl := List.eq_nil_of_length_eq_zero hx
    rw [Nat.zero_add]
    exact stage_same c dir d d'' m b (.refl y)
  | succ a ih =>
    rw [Nat.mul_succ] at hx
    have hrest : (x.drop m).length = m * a := by
      rw [List.length_drop]
      omega
    rw [Nat.succ_add, stage, stage, List.take_append_of_le_length (by omega), List.take_append_of_le_length (by omega),
      List.drop_append_of_le_length (by omega), List.append_assoc]
    exact List.rel_append (combine_same c _ _ dir m (SameSequence.refl _) (SameSequence.refl _)) (ih hrest)

/-- A stage on one block is the combination of its halves. -/
theorem stage_one {R : Type} (num : Numerics R) (d : Draw) {h : Nat} {E O : List (Cx R)} (hE : E.length = h) (hO : O.length = h) :
    stage num d dir (2 * h) 1 (E ++ O) = combine num (d.at 0) dir (2 * h) E O := by
  have htake : (E ++ O).take (2 * h) = E ++ O := List.take_of_length_le (by simp; omega)
  have hdrop : (E ++ O).drop (2 * h) = [] := List.drop_of_length_le (by simp; omega)
  rw [stage, stage, htake, hdrop, List.append_nil, Nat.mul_div_cancel_left h Nat.two_pos, List.take_left' hE,
    List.drop_left' hE]

/-! ## All stages -/

theorem stages_length {R : Type} (num : Numerics R) (d : Draw) {n s : Nat} (hs : s ≤ n) {y : List (Cx R)}
    (hy : y.length = 2 ^ n) : (stages num d dir n y s).length = 2 ^ n := by
  induction s with
  | zero => exact hy
  | succ s ih =>
    have hblocks : 2 ^ (s + 1) * 2 ^ (n - (s + 1)) = 2 ^ n := by rw [← pow_add, Nat.add_sub_cancel' hs]
    have h := stage_length dir num (d.at s) (m := 2 ^ (s + 1)) (by rw [pow_succ]; omega) (2 ^ (n - (s + 1)))
      ((ih (by omega)).trans hblocks.symm)
    rwa [hblocks] at h

/-- The first `s` stages on two adjacent sequences of length `2^n` are those stages on each. -/
theorem stages_append (d d' d'' : Draw) {n s : Nat} (hs : s ≤ n) {x y : List Sample} (hx : x.length = 2 ^ n) :
    SameSequence (stages (hardware c) d dir (n + 1) (x ++ y) s)
      (stages (hardware c) d' dir n x s ++ stages (hardware c) d'' dir n y s) := by
  induction s with
  | zero => exact .refl _
  | succ s ih =>
    have hblocks : 2 ^ (n + 1 - (s + 1)) = 2 ^ (n - (s + 1)) + 2 ^ (n - (s + 1)) := by
      rw [show n + 1 - (s + 1) = n - (s + 1) + 1 by omega, pow_succ, Nat.mul_two]
    have hlen : (stages (hardware c) d' dir n x s).length = 2 ^ (s + 1) * 2 ^ (n - (s + 1)) := by
      rw [stages_length dir (hardware c) d' (by omega) hx, ← pow_add, Nat.add_sub_cancel' hs]
    rw [stages, hblocks]
    exact (stage_same c dir _ (d.at s) _ _ (ih (by omega))).trans (stage_append c dir _ _ _ _ _ _ hlen)

/-- The last stage combines the iterative forms of the even and the odd samples. -/
theorem xformIter_succ (d d' d'' : Draw) (n : Nat) (x : List Sample) :
    SameSequence (xformIter (hardware c) d dir (n + 1) x)
      (combine (hardware c) d'' dir (2 ^ (n + 1)) (xformIter (hardware c) d' dir n (evens x))
        (xformIter (hardware c) d' dir n (odds x))) := by
  have hlen (z : List Sample) : (xformIter (hardware c) d' dir n z).length = 2 ^ n :=
    stages_length dir (hardware c) d' le_rfl (bitrev_length n z)
  have hlast : SameSequence (xformIter (hardware c) d dir (n + 1) x) (stage (hardware c) d'' dir (2 * 2 ^ n) 1
      (xformIter (hardware c) d' dir n (evens x) ++ xformIter (hardware c) d' dir n (odds x))) := by
    rw [xformIter, stages, Nat.sub_self, pow_zero, pow_succ, Nat.mul_comm, bitrev_succ]
    exact stage_same c dir _ _ _ _ (stages_append c dir d d' d' le_rfl (bitrev_length n _))
  rw [stage_one dir _ _ (hlen _) (hlen _)] at hlast
  rw [pow_succ, Nat.mul_comm]
  exact hlast.trans (combine_same c _ _ dir _ (SameSequence.refl _) (SameSequence.refl _))

end

/-- Settles O51, by induction on `n`: the last stage is the combination step of the recursion. -/
theorem iterativeFormAgrees : Obligations.IterativeFormAgrees := by
  intro c d d' dir n x hx
  induction n generalizing d d' x with
  | zero =>
    obtain ⟨z, rfl⟩ := List.length_eq_one_iff.mp hx
    exact SameSequence.refl [z]
  | succ n ih =>
    exact (xformIter_succ c dir d d (d'.at 2) n x).trans (combine_same c _ _ dir _ (ih _ _ _ (evens_length_two_pow hx))
      (ih _ _ _ (odds_length_two_pow hx)))

end Sys2Proof.Machine
end

section
/-! SUPPORT. The transforms of an impulse and of a constant sequence, exact for every generator (45_transform_engine.md R182): a
product with a zero is a zero, adding a zero changes nothing, and doubling a number short of overflow is exact. -/

namespace Sys2Proof.Machine

/-! ## Sequences of one sample -/

theorem evens_replicate {α : Type} (m : Nat) (z : α) : evens (List.replicate (2 * m) z) = List.replicate m z := by
  induction m with
  | zero => rfl
  | succ m ih => exact congrArg (z :: ·) ih

theorem odds_replicate {α : Type} (m : Nat) (z : α) : odds (List.replicate (2 * m) z) = List.replicate m z := by
  induction m with
  | zero => rfl
  | succ m ih => exact congrArg (z :: ·) ih

/-- The even half of one sample before copies of another. -/
theorem evens_cons_replicate {α : Type} (m : Nat) (a z : α) :
    evens (a :: List.replicate (2 * m + 1) z) = a :: List.replicate m z := congrArg (a :: ·) (evens_replicate m z)

/-- The odd half does not hold the first sample. -/
theorem odds_cons_replicate {α : Type} (m : Nat) (a z : α) :
    odds (a :: List.replicate (2 * m + 1) z) = List.replicate (m + 1) z := congrArg (z :: ·) (odds_replicate m z)

/-- Butterflies that all have the same outputs. -/
theorem combine_replicate {R : Type} (num : Numerics R) (d : Draw) (dir : Dir) (N : Nat) {m : Nat} {e o z w : Cx R}
    (h : ∀ k, k < m → bfly num (d.at k) dir k N e o = (z, w)) :
    combine num d dir N (List.replicate m e) (List.replicate m o) = List.replicate m z ++ List.replicate m w := by
  have hout : ((List.replicate m e).zip (List.replicate m o)).mapIdx (fun k p => bfly num (d.at k) dir k N p.1 p.2) =
      List.replicate m (z, w) := by
    refine List.ext_getElem (by simp) fun k hk _ => ?_
    simp only [List.length_mapIdx, List.length_zip, List.length_replicate, min_self] at hk
    simp [h k hk]
  simp only [combine, hout, List.map_replicate]

theorem two_pow_domain {n k : Nat} (hk : k < 2 ^ n) : InTwiddleDomain k (2 ^ (n + 1)) := by
  have hN : 2 ^ (n + 1) = 2 ^ n * 2 := pow_succ 2 n
  exact ⟨isPow2_two_pow _, by omega, by omega⟩

/-! ## A butterfly with a zero -/

/-- Both components are zeros, of either sign. -/
def ZeroSample (z : Sample) : Prop := isZero z.re = true ∧ isZero z.im = true

theorem ZeroSample.finite {z : Sample} (h : ZeroSample z) : FiniteSample z :=
  ⟨isFinite_of_isZero h.1, isFinite_of_isZero h.2⟩

theorem isZero_fadd (d : Draw) {x y : F} (hx : isZero x = true) (hy : isZero y = true) : isZero (fadd d x y) = true := by
  rw [fadd_zero d (isFinite_of_isZero hx) hy, if_pos hx]
  exact isZero_ofSignMag_zero _

theorem isZero_fsub (d : Draw) {x y : F} (hx : isZero x = true) (hy : isZero y = true) : isZero (fsub d x y) = true :=
  isZero_fadd d hx ((isZero_fneg y).trans hy)

/-- A finite number times a zero is a zero. -/
theorem fmul_zero_right (d : Draw) {w y : F} (hw : isFinite w = true) (hy : isZero y = true) : isZero (fmul d w y) = true := by
  have hzero := fmul_zero_left d hy hw
  rwa [(fmul_comm d d w y).eq (isNaN_of_isZero hzero)]

section
variable (c : TwChoice) (dir : Dir) (d : Draw)

/-- A factor times a zero is a zero (TW-P2: the factors are finite). -/
theorem cmul_twiddle_zeroSample {k N : Nat} (hdom : InTwiddleDomain k N) {z : Sample} (hz : ZeroSample z) :
    ZeroSample (cmul (hardware c) d (twiddle c dir k N) z) := by
  obtain ⟨⟨hre, -⟩, ⟨him, -⟩⟩ := (twiddleProperties c k N hdom).1 dir
  exact ⟨isZero_fsub _ (fmul_zero_right _ hre hz.1) (fmul_zero_right _ him hz.2),
    isZero_fadd _ (fmul_zero_right _ hre hz.2) (fmul_zero_right _ him hz.1)⟩

theorem bfly_of_zeros {k N : Nat} (hdom : InTwiddleDomain k N) {e o : Sample} (he : ZeroSample e) (ho : ZeroSample o) :
    ZeroSample (bfly (hardware c) d dir k N e o).1 ∧ ZeroSample (bfly (hardware c) d dir k N e o).2 := by
  obtain ⟨hre, him⟩ := cmul_twiddle_zeroSample c dir (d.at 0) hdom ho
  exact ⟨⟨isZero_fadd _ he.1 hre, isZero_fadd _ he.2 him⟩, ⟨isZero_fsub _ he.1 hre, isZero_fsub _ he.2 him⟩⟩

/-- A finite number that is not `-0` is unchanged, bit for bit, by adding a zero of either sign. -/
theorem fadd_isZero {x y : F} (hx : isFinite x = true) (hn : x ≠ negZero) (hy : isZero y = true) : fadd d x y = x := by
  rw [fadd_zero d hx hy]
  split
  · next hz =>
    have hsign : signBit x = false := by
      refine Bool.eq_false_iff.mpr fun hs => hn ?_
      rw [eq_zero_of_isZero hz, hs]
      rfl
    rw [eq_zero_of_isZero hz, hsign, signBit_zero, Bool.false_and]
  · rfl

/-- A finite sample with no component `-0`. -/
structure PlainSample (z : Sample) : Prop where
  finite : FiniteSample z
  re : z.re ≠ negZero
  im : z.im ≠ negZero

/-- Both outputs of a butterfly with a zero for the odd operand are the even one. -/
theorem bfly_zero {k N : Nat} (hdom : InTwiddleDomain k N) {e o : Sample} (he : PlainSample e) (ho : ZeroSample o) :
    bfly (hardware c) d dir k N e o = (e, e) := by
  obtain ⟨hre, him⟩ := cmul_twiddle_zeroSample c dir (d.at 0) hdom ho
  obtain ⟨⟨hfre, hfim⟩, hnre, hnim⟩ := he
  have hneg {y : F} (hy : isZero y = true) : isZero (fneg y) = true := (isZero_fneg y).trans hy
  exact congrArg₂ Prod.mk (congrArg₂ Cx.mk (fadd_isZero _ hfre hnre hre) (fadd_isZero _ hfim hnim him))
    (congrArg₂ Cx.mk (fadd_isZero _ hfre hnre (hneg hre)) (fadd_isZero _ hfim hnim (hneg him)))

/-! ## The impulse -/

/-- The combination of a flat even half with an odd half of zeros. -/
theorem combine_flat_zeros (n : Nat) {e o : Sample} (he : PlainSample e) (ho : ZeroSample o) :
    combine (hardware c) d dir (2 ^ (n + 1)) (List.replicate (2 ^ n) e) (List.replicate (2 ^ n) o) =
      List.replicate (2 ^ (n + 1)) e := by
  rw [combine_replicate _ _ _ _ fun k hk => bfly_zero c dir (d.at k) (two_pow_domain hk) he ho, List.replicate_append_replicate,
    pow_succ, Nat.mul_two]

/-- Silence, `(+0, +0)` in every sample, transforms to silence. -/
theorem xform_silence (n : Nat) : xform (hardware c) d dir n (List.replicate (2 ^ n) ⟨posZero, posZero⟩) =
    List.replicate (2 ^ n) ⟨posZero, posZero⟩ := by
  have hplain : PlainSample ⟨posZero, posZero⟩ := ⟨⟨by decide, by decide⟩, by decide, by decide⟩
  induction n generalizing d with
  | zero => rfl
  | succ n ih =>
    have hlen : 2 ^ (n + 1) = 2 * 2 ^ n := by rw [pow_succ, Nat.mul_comm]
    rw [xform, hlen, evens_replicate, odds_replicate, ih, ih, ← hlen]
    exact combine_flat_zeros c dir _ n hplain ⟨by decide, by decide⟩

end

/-- Settles O52, by induction on `n`: the even half of an impulse is an impulse and the odd half is silence. -/
theorem impulseIsFlat : Obligations.ImpulseIsFlat := by
  intro c d n
  have hplain : PlainSample ⟨one, posZero⟩ := ⟨⟨by decide, by decide⟩, by decide, by decide⟩
  rw [fft]
  induction n generalizing d with
  | zero => rfl
  | succ n ih =>
    have hpos : 2 ^ n - 1 + 1 = 2 ^ n := Nat.sub_add_cancel Nat.one_le_two_pow
    have htail : 2 ^ (n + 1) - 1 = 2 * (2 ^ n - 1) + 1 := by rw [pow_succ]; omega
    rw [xform, htail, evens_cons_replicate, odds_cons_replicate, hpos, ih, xform_silence]
    exact combine_flat_zeros c .forward _ n hplain ⟨by decide, by decide⟩

/-! ## The constant sequence -/

/-- Twice a finite number is exact while it is short of overflow; the operands may be two zeros of either sign. -/
theorem fadd_same (d : Draw) {x y : F} (h : SameNumber x y) (hlt : 2 * units x < 2 ^ 2098) :
    isFinite (fadd d x y) = true ∧ signedUnits (fadd d x y) = 2 * signedUnits x := by
  obtain ⟨m, i, hm, -, hunits⟩ := magUnits_bits (magBits x)
  rw [← units_eq] at hunits
  have hdouble : 2 * units x = m * 2 ^ (i + 1) := by rw [hunits, pow_succ]; ring
  have habs : (signedUnits x + signedUnits x).natAbs = m * 2 ^ (i + 1) * 1 := by
    rw [← two_mul, Int.natAbs_mul, natAbs_signedUnits, mul_one, ← hdouble]
    rfl
  rw [fadd_finite d h.left h.right, ← h.units]
  split
  · next hz => exact ⟨isFinite_of_isZero (isZero_ofSignMag_zero _), by
      rw [signedUnits_eq_zero.mpr (isZero_ofSignMag_zero _)]; omega⟩
  · obtain ⟨hfin, hu⟩ := units_roundUnits_exact (decide (signedUnits x + signedUnits x < 0)) one_pos hm (hdouble ▸ hlt)
    rw [habs]
    refine ⟨hfin, ?_⟩
    rw [signedUnits, hu, signBit_roundUnits, ← mul_one (m * _), ← habs]
    split
    · next hs => have := of_decide_eq_true hs; omega
    · next hs => have := of_decide_eq_false (Bool.eq_false_iff.mpr hs); omega

/-- The difference of two patterns of one number is a zero. -/
theorem fsub_same (d : Draw) {x y : F} (h : SameNumber x y) : isZero (fsub d x y) = true := by
  rw [fsub, fadd_finite d h.left h.fneg.right, signedUnits_fneg, ← h.units, add_neg_cancel, if_pos rfl]
  exact isZero_ofSignMag_zero _

/-- A butterfly with `k = 0` on operands of the same numbers: twice the number, and zero. -/
theorem bfly_of_same (c : TwChoice) (d : Draw) (dir : Dir) {N : Nat} (hdom : InTwiddleDomain 0 N) {e o : Sample}
    (he : FiniteSample e) (ho : FiniteSample o) (hre : signedUnits e.re = signedUnits o.re)
    (him : signedUnits e.im = signedUnits o.im) (hlt_re : 2 * units e.re < 2 ^ 2098) (hlt_im : 2 * units e.im < 2 ^ 2098) :
    (FiniteSample (bfly (hardware c) d dir 0 N e o).1 ∧
      signedUnits (bfly (hardware c) d dir 0 N e o).1.re = 2 * signedUnits e.re ∧
      signedUnits (bfly (hardware c) d dir 0 N e o).1.im = 2 * signedUnits e.im) ∧
    ZeroSample (bfly (hardware c) d dir 0 N e o).2 := by
  obtain ⟨hTre, hTim⟩ := cmul_twiddle_zero c dir (d.at 0) hdom ho
  have hsame_re : SameNumber e.re (cmul (hardware c) (d.at 0) (twiddle c dir 0 N) o).re :=
    ⟨he.1, hTre.left, hre.trans hTre.units.symm⟩
  have hsame_im : SameNumber e.im (cmul (hardware c) (d.at 0) (twiddle c dir 0 N) o).im :=
    ⟨he.2, hTim.left, him.trans hTim.units.symm⟩
  obtain ⟨hfin_re, hsum_re⟩ := fadd_same ((d.at 1).at 0) hsame_re hlt_re
  obtain ⟨hfin_im, hsum_im⟩ := fadd_same ((d.at 1).at 1) hsame_im hlt_im
  exact ⟨⟨⟨hfin_re, hfin_im⟩, hsum_re, hsum_im⟩, fsub_same _ hsame_re, fsub_same _ hsame_im⟩

/-- The transform of `2^n` samples `z`: bin 0 is the sum of the samples, in units, and every other bin is a zero. -/
structure OneBin (n : Nat) (z : Sample) (X : List Sample) : Prop where
  first : ∃ X₀, X[0]? = some X₀ ∧ FiniteSample X₀ ∧
    signedUnits X₀.re = 2 ^ n * signedUnits z.re ∧ signedUnits X₀.im = 2 ^ n * signedUnits z.im
  others : ∀ k y, X[k]? = some y → k ≠ 0 → ZeroSample y

theorem units_of_signedUnits {n : Nat} {x y : F} (h : signedUnits x = 2 ^ n * signedUnits y) : units x = 2 ^ n * units y := by
  rw [← natAbs_signedUnits, h, Int.natAbs_mul, natAbs_signedUnits, Int.natAbs_pow]
  rfl

section
variable (c : TwChoice) (d : Draw) (dir : Dir) {n : Nat} {z : Sample}

/-- The combination of two such halves: bin 0 doubles, the butterfly of index 0 cancels, and the others are of zeros. -/
theorem OneBin.succ {x : List Sample} (hx : x.length = 2 ^ (n + 1))
    (hE : OneBin n z (xform (hardware c) (d.at 0) dir n (evens x))) (hO : OneBin n z (xform (hardware c) (d.at 1) dir n (odds x)))
    (hre : 2 ^ (n + 1) * units z.re < 2 ^ 2098) (him : 2 ^ (n + 1) * units z.im < 2 ^ 2098) :
    OneBin (n + 1) z (xform (hardware c) d dir (n + 1) x) := by
  obtain ⟨e, he, hefin, here, heim⟩ := hE.first
  obtain ⟨o, ho, hofin, hore, hoim⟩ := hO.first
  rw [pow_succ', mul_assoc] at hre him
  obtain ⟨hlow, hhigh⟩ := xform_succ_getElem? (hardware c) d dir hx he ho
  obtain ⟨⟨hfin, hsum_re, hsum_im⟩, hdiff⟩ := bfly_of_same c ((d.at 2).at 0) dir (two_pow_domain (Nat.two_pow_pos n)) hefin
    hofin (here.trans hore.symm) (heim.trans hoim.symm) (by rwa [units_of_signedUnits here])
    (by rwa [units_of_signedUnits heim])
  have hzeros {j : Nat} (hj : j < 2 ^ n) (h0 : j ≠ 0) :
      (∃ u, (xform (hardware c) d dir (n + 1) x)[j]? = some u ∧ ZeroSample u) ∧
        ∃ v, (xform (hardware c) d dir (n + 1) x)[j + 2 ^ n]? = some v ∧ ZeroSample v := by
    obtain ⟨e', he'⟩ := exists_xform_getElem? (hardware c) (d.at 0) dir (evens_length_two_pow hx) hj
    obtain ⟨o', ho'⟩ := exists_xform_getElem? (hardware c) (d.at 1) dir (odds_length_two_pow hx) hj
    obtain ⟨hu, hv⟩ := xform_succ_getElem? (hardware c) d dir hx he' ho'
    obtain ⟨hzu, hzv⟩ := bfly_of_zeros c dir ((d.at 2).at j) (two_pow_domain hj) (hE.others j e' he' h0) (hO.others j o' ho' h0)
    exact ⟨⟨_, hu, hzu⟩, _, hv, hzv⟩
  refine ⟨⟨_, hlow, hfin, ?_, ?_⟩, fun k y hy hk => ?_⟩
  · rw [hsum_re, here, pow_succ', mul_assoc]
  · rw [hsum_im, heim, pow_succ', mul_assoc]
  · have hbound : k < 2 ^ (n + 1) := by
      rw [← xform_length (hardware c) d dir (n + 1) x hx]
      exact (List.getElem?_eq_some_iff.mp hy).1
    rw [pow_succ] at hbound
    rcases Nat.lt_or_ge k (2 ^ n) with hlt | hge
    · obtain ⟨⟨u, hu, hzu⟩, -⟩ := hzeros hlt hk
      rwa [Option.some_inj.mp (hy.symm.trans hu)]
    · obtain ⟨j, rfl⟩ := Nat.exists_eq_add_of_le' hge
      rcases eq_or_ne j 0 with rfl | h0
      · rwa [Option.some_inj.mp (hy.symm.trans hhigh)]
      · obtain ⟨-, v, hv, hzv⟩ := hzeros (j := j) (by omega) h0
        rwa [Option.some_inj.mp (hy.symm.trans hv)]

/-- Both halves of a constant sequence are the constant sequence. -/
theorem xform_constant (hz : FiniteSample z) (hre : 2 ^ n * units z.re < 2 ^ 2098) (him : 2 ^ n * units z.im < 2 ^ 2098) :
    OneBin n z (xform (hardware c) d dir n (List.replicate (2 ^ n) z)) := by
  induction n generalizing d with
  | zero =>
    refine ⟨⟨z, rfl, hz, by rw [pow_zero, one_mul], by rw [pow_zero, one_mul]⟩, fun k y hy hk => ?_⟩
    cases k with
    | zero => exact absurd rfl hk
    | succ k => exact absurd hy (by simp [xform])
  | succ n ih =>
    have hhalf {u : Nat} (h : 2 ^ (n + 1) * u < 2 ^ 2098) : 2 ^ n * u < 2 ^ 2098 := by
      rw [pow_succ', mul_assoc] at h
      omega
    refine OneBin.succ c d dir List.length_replicate ?_ ?_ hre him
    · rw [pow_succ', evens_replicate]
      exact ih (d.at 0) (hhalf hre) (hhalf him)
    · rw [pow_succ', odds_replicate]
      exact ih (d.at 1) (hhalf hre) (hhalf him)

end

/-- A bound on the magnitude of a multiple, in units. -/
theorem units_mul_lt {n : Nat} {x : F} (h : 2 ^ n * |value x| < 2 ^ 1024) : 2 ^ n * units x < 2 ^ 2098 := by
  rw [abs_value, ← mul_div_assoc, div_lt_iff₀ (by positivity), ← pow_add] at h
  refine Nat.cast_lt (α := ℚ) |>.mp ?_
  rwa [Nat.cast_mul, Nat.cast_pow, Nat.cast_pow, Nat.cast_ofNat]

theorem value_of_signedUnits {n : Nat} {x y : F} (h : signedUnits x = 2 ^ n * signedUnits y) : value x = 2 ^ n * value y := by
  rw [value, value, h, Int.cast_mul, mul_div_assoc, Int.cast_pow, Int.cast_ofNat]

/-- Settles O53: the hypotheses bound `N * c` in units, and a number is its units over `2^1074`. -/
theorem constantHasOneBin : Obligations.ConstantHasOneBin := by
  intro c d n z hz hre him
  obtain ⟨⟨X₀, hfirst, hfin, hX₀re, hX₀im⟩, hothers⟩ := xform_constant c d .forward hz (units_mul_lt hre) (units_mul_lt him)
  obtain ⟨rest, hrest⟩ := List.head?_eq_some_iff.mp (List.head?_eq_getElem?.trans hfirst)
  refine ⟨X₀, rest, hrest, hfin, value_of_signedUnits hX₀re, value_of_signedUnits hX₀im, fun y hy => ?_⟩
  obtain ⟨k, hk⟩ := List.mem_iff_getElem?.mp hy
  exact hothers (k + 1) y (by rw [hrest, List.getElem?_cons_succ, hk]) (Nat.succ_ne_zero k)

end Sys2Proof.Machine
end

section
/-! SUPPORT. The transforms over the real numbers (45_transform_engine.md R180, R181): the recursion splits a sum of powers of a
root of unity into the sums over the even and the odd indices, and the powers of a root of unity are orthogonal. -/

namespace Sys2Proof.Machine

open Finset (range sum_congr mul_sum)

/-! ## Sums of powers -/

/-- `sum over j in [0, N) of x[j] * w^(j*k)`: a bin of a discrete Fourier transform when `w` is an `N`-th root of unity. -/
def powerSum (w : ℂ) (N : Nat) (x : Nat → ℂ) (k : Nat) : ℂ := ∑ j ∈ range N, x j * w ^ (j * k)

theorem powerSum_congr (w : ℂ) {N : Nat} {x y : Nat → ℂ} (h : ∀ j, j < N → x j = y j) (k : Nat) :
    powerSum w N x k = powerSum w N y k :=
  sum_congr rfl fun j hj => by rw [h j (Finset.mem_range.mp hj)]

theorem powerSum_linear (w a b : ℂ) (N : Nat) (x y : Nat → ℂ) (k : Nat) :
    powerSum w N (fun j => a * x j + b * y j) k = a * powerSum w N x k + b * powerSum w N y k := by
  simp only [powerSum, mul_sum, ← Finset.sum_add_distrib]
  exact sum_congr rfl fun j _ => by ring

/-- The even and the odd indices apart. -/
theorem powerSum_split (w : ℂ) (M : Nat) (x : Nat → ℂ) (k : Nat) : powerSum w (2 * M) x k =
    powerSum (w ^ 2) M (fun j => x (2 * j)) k + w ^ k * powerSum (w ^ 2) M (fun j => x (2 * j + 1)) k := by
  unfold powerSum
  induction M with
  | zero => simp
  | succ M ih =>
    rw [Nat.mul_succ, Finset.sum_range_succ, Finset.sum_range_succ, ih, Finset.sum_range_succ, Finset.sum_range_succ]
    ring

/-- The bins of a root of unity repeat. -/
theorem powerSum_add_period {w : ℂ} {M : Nat} (hw : w ^ M = 1) (x : Nat → ℂ) (k : Nat) :
    powerSum w M x (k + M) = powerSum w M x k :=
  sum_congr rfl fun j _ => by rw [Nat.mul_add, pow_add, Nat.mul_comm j M, pow_mul w M, hw, one_pow, mul_one]

/-- The upper half of the bins. -/
theorem powerSum_split_upper {w : ℂ} {M : Nat} (hw : w ^ M = -1) (x : Nat → ℂ) (k : Nat) : powerSum w (2 * M) x (k + M) =
    powerSum (w ^ 2) M (fun j => x (2 * j)) k - w ^ k * powerSum (w ^ 2) M (fun j => x (2 * j + 1)) k := by
  have hperiod : (w ^ 2) ^ M = 1 := by rw [← pow_mul, Nat.mul_comm, pow_mul, hw, neg_one_sq]
  rw [powerSum_split, powerSum_add_period hperiod, powerSum_add_period hperiod, pow_add, hw, mul_neg_one, neg_mul, sub_eq_add_neg]

/-- The powers of a root of unity other than 1 cancel. -/
theorem sum_powers_eq_zero {z : ℂ} {N : Nat} (hz : z ^ N = 1) (hne : z ≠ 1) : ∑ k ∈ range N, z ^ k = 0 := by
  rw [geom_sum_eq hne, hz, sub_self, zero_div]

section
variable {w : ℂ} {N : Nat} (hw : IsPrimitiveRoot w N)
include hw

/-- Orthogonality: only equal indices survive. -/
theorem sum_powers_orthogonal {i j : Nat} (hi : i < N) (hj : j < N) :
    ∑ k ∈ range N, w ^ (i * k) * w⁻¹ ^ (k * j) = if i = j then (N : ℂ) else 0 := by
  have hterm (k : Nat) : w ^ (i * k) * w⁻¹ ^ (k * j) = (w ^ i * w⁻¹ ^ j) ^ k := by
    rw [mul_pow, ← pow_mul, ← pow_mul, Nat.mul_comm k j]
  have hunit : w ^ j ≠ 0 := pow_ne_zero j (hw.ne_zero (by omega))
  simp only [hterm]
  split
  · next h =>
    rw [h, inv_pow, mul_inv_cancel₀ hunit]
    simp
  · next h =>
    refine sum_powers_eq_zero ?_ fun hone => h (hw.pow_inj hi hj ?_)
    · rw [mul_pow, ← pow_mul, ← pow_mul, Nat.mul_comm i, Nat.mul_comm j, pow_mul, pow_mul, inv_pow, hw.pow_eq_one, inv_one,
        one_pow, one_pow, mul_one]
    · rwa [inv_pow, mul_inv_eq_one₀ hunit] at hone

/-- Transforming with `w` and then with `1/w` gives each element `N` times. -/
theorem powerSum_powerSum (x : Nat → ℂ) {j : Nat} (hj : j < N) : powerSum w⁻¹ N (powerSum w N x) j = N * x j := by
  calc powerSum w⁻¹ N (powerSum w N x) j
      = ∑ i ∈ range N, x i * ∑ k ∈ range N, w ^ (i * k) * w⁻¹ ^ (k * j) := by
        simp only [powerSum, Finset.sum_mul, mul_sum]
        rw [Finset.sum_comm]
        exact sum_congr rfl fun i _ => sum_congr rfl fun k _ => mul_assoc _ _ _
    _ = ∑ i ∈ range N, if i = j then N * x j else 0 := sum_congr rfl fun i hi => by
        rw [sum_powers_orthogonal hw (Finset.mem_range.mp hi) hj]
        split
        · next h => rw [h, mul_comm]
        · rw [mul_zero]
    _ = N * x j := by rw [Finset.sum_ite_eq', if_pos (Finset.mem_range.mpr hj)]

theorem powerSum_constant (c : ℂ) {k : Nat} (hk : k < N) : powerSum w N (fun _ => c) k = if k = 0 then N * c else 0 := by
  have horth := sum_powers_orthogonal hw hk (Nat.zero_lt_of_lt hk)
  simp only [Nat.mul_zero, pow_zero, mul_one] at horth
  simp only [powerSum, Nat.mul_comm _ k]
  rw [← mul_sum, horth, mul_ite, mul_zero, mul_comm]

end

/-! ## The exact twiddle factors -/

/-- The factor of index 1. -/
noncomputable def rootOf (dir : Dir) (N : Nat) : ℂ := Complex.exp (exactAngle dir 1 N * Complex.I)

theorem exactAngle_inverse (k N : Nat) : exactAngle .inverse k N = 2 * Real.pi * k / N := rfl

theorem exactAngle_forward (k N : Nat) : exactAngle .forward k N = -exactAngle .inverse k N := rfl

theorem exactAngle_nsmul (dir : Dir) (k N : Nat) : exactAngle dir k N = k * exactAngle dir 1 N := by
  have h : exactAngle .inverse k N = k * exactAngle .inverse 1 N := by
    rw [exactAngle_inverse, exactAngle_inverse]
    push_cast
    ring
  cases dir with
  | forward => rw [exactAngle_forward, exactAngle_forward, h, mul_neg]
  | inverse => exact h

theorem exactAngle_double (dir : Dir) (M : Nat) : exactAngle dir 2 (2 * M) = exactAngle dir 1 M := by
  have h : exactAngle .inverse 2 (2 * M) = exactAngle .inverse 1 M := by
    rw [exactAngle_inverse, exactAngle_inverse]
    push_cast
    ring
  cases dir with
  | forward => rw [exactAngle_forward, exactAngle_forward, h]
  | inverse => exact h

theorem rootOf_pow (dir : Dir) (k N : Nat) : rootOf dir N ^ k = Complex.exp (exactAngle dir k N * Complex.I) := by
  rw [rootOf, ← Complex.exp_nat_mul, exactAngle_nsmul dir k, Complex.ofReal_mul, Complex.ofReal_natCast, mul_assoc]

/-- The factor of index `k` is the `k`-th power of that of index 1. -/
theorem toComplexNumber_tw (dir : Dir) (k N : Nat) : toComplexNumber (ideal.tw dir k N) = rootOf dir N ^ k := by
  rw [rootOf_pow]
  exact Complex.ext (Complex.exp_ofReal_mul_I_re _).symm (Complex.exp_ofReal_mul_I_im _).symm

theorem rootOf_inverse (N : Nat) : rootOf .inverse N = (rootOf .forward N)⁻¹ := by
  rw [rootOf, rootOf, ← Complex.exp_neg, exactAngle_forward, Complex.ofReal_neg, neg_mul, neg_neg]

theorem rootOf_inverse_primitive {N : Nat} (hN : N ≠ 0) : IsPrimitiveRoot (rootOf .inverse N) N := by
  have h : rootOf .inverse N = Complex.exp (2 * Real.pi * Complex.I / N) := by
    rw [rootOf, exactAngle_inverse]
    congr 1
    push_cast
    ring
  exact h ▸ Complex.isPrimitiveRoot_exp N hN

theorem rootOf_primitive (dir : Dir) {N : Nat} (hN : N ≠ 0) : IsPrimitiveRoot (rootOf dir N) N := by
  cases dir with
  | inverse => exact rootOf_inverse_primitive hN
  | forward =>
    have h := (rootOf_inverse_primitive hN).inv
    rwa [rootOf_inverse, inv_inv] at h

theorem rootOf_double_sq (dir : Dir) (M : Nat) : rootOf dir (2 * M) ^ 2 = rootOf dir M := by
  rw [rootOf_pow, exactAngle_double, rootOf]

theorem rootOf_double_pow (dir : Dir) {M : Nat} (hM : M ≠ 0) : rootOf dir (2 * M) ^ M = -1 := by
  have h := (rootOf_primitive dir (N := 2 * M) (by omega)).pow (by omega) (Nat.mul_comm 2 M)
  exact h.eq_neg_one_of_two_right

/-! ## The transforms as sums -/

/-- Sample `j` of a sequence as a complex number. -/
def sampleAt (x : List (Cx ℝ)) (j : Nat) : ℂ := (x.map toComplexNumber).getD j 0

theorem sampleAt_of_getElem? {x : List (Cx ℝ)} {j : Nat} {z : Cx ℝ} (h : x[j]? = some z) : sampleAt x j = toComplexNumber z := by
  simp [sampleAt, h]

theorem getElem?_map_toComplexNumber {x : List (Cx ℝ)} {j : Nat} (h : j < x.length) :
    (x.map toComplexNumber)[j]? = some (sampleAt x j) := by
  simp [sampleAt, h]

theorem sampleAt_evens (x : List (Cx ℝ)) (j : Nat) : sampleAt (evens x) j = sampleAt x (2 * j) := by
  simp [sampleAt, evens_getElem?]

theorem sampleAt_odds (x : List (Cx ℝ)) (j : Nat) : sampleAt (odds x) j = sampleAt x (2 * j + 1) := by
  simp [sampleAt, odds_getElem?]

theorem toComplexNumber_injective : Function.Injective toComplexNumber := by
  rintro ⟨a, b⟩ ⟨c, d⟩ h
  obtain ⟨rfl, rfl⟩ := Complex.ext_iff.mp h
  rfl

/-- A sequence is determined by its samples. -/
theorem eq_of_sampleAt {x y : List (Cx ℝ)} {N : Nat} (hx : x.length = N) (hy : y.length = N)
    (h : ∀ j, j < N → sampleAt x j = sampleAt y j) : x = y := by
  apply List.map_injective_iff.mpr toComplexNumber_injective
  refine List.ext_getElem? fun j => ?_
  rcases Nat.lt_or_ge j N with hj | hj
  · rw [getElem?_map_toComplexNumber (hx ▸ hj), getElem?_map_toComplexNumber (hy ▸ hj), h j hj]
  · rw [List.getElem?_eq_none (by simpa [hx]), List.getElem?_eq_none (by simpa [hy])]

theorem toComplexNumber_cmul (d : Draw) (x y : Cx ℝ) :
    toComplexNumber (cmul ideal d x y) = toComplexNumber x * toComplexNumber y := rfl

theorem toComplexNumber_bfly (d : Draw) (dir : Dir) (k N : Nat) (e o : Cx ℝ) :
    toComplexNumber (bfly ideal d dir k N e o).1 = toComplexNumber e + rootOf dir N ^ k * toComplexNumber o ∧
      toComplexNumber (bfly ideal d dir k N e o).2 = toComplexNumber e - rootOf dir N ^ k * toComplexNumber o := by
  rw [← toComplexNumber_tw, ← toComplexNumber_cmul (d.at 0)]
  exact ⟨rfl, rfl⟩

theorem toComplexNumber_cdivn (d : Draw) (x : Cx ℝ) (N : Nat) :
    toComplexNumber (cdivn ideal d x N) = 1 / N * toComplexNumber x := by
  rw [one_div_mul_eq_div]
  exact Complex.ext (Complex.div_natCast_re (toComplexNumber x) N).symm (Complex.div_natCast_im (toComplexNumber x) N).symm

/-- Bin `k` of the recursion is a sum of powers, by induction on `n`: the even and the odd indices are the transformed halves. -/
theorem xform_ideal_sampleAt (d : Draw) (dir : Dir) {n : Nat} {x : List (Cx ℝ)} (hx : x.length = 2 ^ n) {k : Nat}
    (hk : k < 2 ^ n) : sampleAt (xform ideal d dir n x) k = powerSum (rootOf dir (2 ^ n)) (2 ^ n) (sampleAt x) k := by
  induction n generalizing d x k with
  | zero =>
    obtain rfl : k = 0 := by omega
    simp [xform, powerSum]
  | succ n ih =>
    have hbins {j : Nat} (hj : j < 2 ^ n) :
        sampleAt (xform ideal d dir (n + 1) x) j = powerSum (rootOf dir (2 ^ (n + 1))) (2 ^ (n + 1)) (sampleAt x) j ∧
        sampleAt (xform ideal d dir (n + 1) x) (j + 2 ^ n) =
          powerSum (rootOf dir (2 ^ (n + 1))) (2 ^ (n + 1)) (sampleAt x) (j + 2 ^ n) := by
      obtain ⟨e, he⟩ := exists_xform_getElem? ideal (d.at 0) dir (evens_length_two_pow hx) hj
      obtain ⟨o, ho⟩ := exists_xform_getElem? ideal (d.at 1) dir (odds_length_two_pow hx) hj
      obtain ⟨hlow, hhigh⟩ := xform_succ_getElem? ideal d dir hx he ho
      obtain ⟨hsum, hdiff⟩ := toComplexNumber_bfly ((d.at 2).at j) dir j (2 ^ (n + 1)) e o
      have hE := (sampleAt_of_getElem? he).symm.trans (ih (d.at 0) (evens_length_two_pow hx) hj)
      have hO := (sampleAt_of_getElem? ho).symm.trans (ih (d.at 1) (odds_length_two_pow hx) hj)
      rw [sampleAt_of_getElem? hlow, sampleAt_of_getElem? hhigh, hsum, hdiff, hE, hO, pow_succ', powerSum_split,
        powerSum_split_upper (rootOf_double_pow dir (by positivity)), rootOf_double_sq]
      simp only [powerSum, sampleAt_evens, sampleAt_odds, and_self]
    rcases Nat.lt_or_ge k (2 ^ n) with hlt | hge
    · exact (hbins hlt).1
    · obtain ⟨j, rfl⟩ := Nat.exists_eq_add_of_le' hge
      exact (hbins (by rw [pow_succ] at hk; omega)).2

section
variable (d : Draw) {n : Nat} {x : List (Cx ℝ)} (hx : x.length = 2 ^ n) {k : Nat} (hk : k < 2 ^ n)
include hx hk

theorem fft_ideal_sampleAt :
    sampleAt (fft ideal d n x) k = powerSum (rootOf .forward (2 ^ n)) (2 ^ n) (sampleAt x) k :=
  xform_ideal_sampleAt d .forward hx hk

theorem ifft_ideal_sampleAt : sampleAt (ifft ideal d n x) k =
    1 / (2 ^ n : Nat) * powerSum (rootOf .inverse (2 ^ n)) (2 ^ n) (sampleAt x) k := by
  obtain ⟨y, hy⟩ := exists_xform_getElem? ideal (d.at 0) .inverse hx hk
  have hdiv := (ifft_getElem? ideal d n x k).trans (congrArg (Option.map _) hy)
  rw [sampleAt_of_getElem? hdiv, toComplexNumber_cdivn, ← sampleAt_of_getElem? hy, xform_ideal_sampleAt _ _ hx hk]

end

theorem dftBin_eq (N : Nat) (x : List (Cx ℝ)) (k : Nat) :
    dftBin N x k = powerSum (rootOf .forward N) N (sampleAt x) k := by
  refine sum_congr rfl fun j _ => congrArg (sampleAt x j * ·) ?_
  rw [rootOf_pow, exactAngle_forward, exactAngle_inverse]
  congr 1
  push_cast
  ring

theorem inverseDftSample_eq (N : Nat) (X : List (Cx ℝ)) (j : Nat) :
    inverseDftSample N X j = 1 / N * powerSum (rootOf .inverse N) N (sampleAt X) j := by
  refine congrArg (1 / (N : ℂ) * ·) (sum_congr rfl fun k _ => congrArg (sampleAt X k * ·) ?_)
  rw [rootOf_pow, exactAngle_inverse]
  congr 1
  push_cast
  ring

/-- Settles O54: both sides are sums of powers of the factor of index 1. -/
theorem idealTransformIsTheSum : Obligations.IdealTransformIsTheSum := by
  intro d n x hx
  have hfft := fft_length ideal d n x hx
  have hifft := ifft_length ideal d n x hx
  refine ⟨hfft, hifft, fun k hk => ⟨?_, ?_⟩⟩
  · rw [getElem?_map_toComplexNumber (hfft ▸ hk), fft_ideal_sampleAt d hx hk, dftBin_eq]
  · rw [getElem?_map_toComplexNumber (hifft ▸ hk), ifft_ideal_sampleAt d hx hk, inverseDftSample_eq]

/-! ## The source's properties (R181) -/

theorem ideal_roundTrip (d d' : Draw) {n : Nat} {x : List (Cx ℝ)} (hx : x.length = 2 ^ n) :
    ifft ideal d n (fft ideal d' n x) = x := by
  have hfft := fft_length ideal d' n x hx
  have hN : ((2 ^ n : Nat) : ℂ) ≠ 0 := by exact_mod_cast (Nat.two_pow_pos n).ne'
  refine eq_of_sampleAt (ifft_length ideal d n _ hfft) hx fun j hj => ?_
  rw [ifft_ideal_sampleAt d hfft hj, powerSum_congr _ fun k hk => fft_ideal_sampleAt d' hx hk, rootOf_inverse,
    powerSum_powerSum (rootOf_primitive .forward (by positivity)) _ hj, one_div, inv_mul_cancel_left₀ hN]

theorem sampleAt_replicate {N j : Nat} (z : Cx ℝ) (hj : j < N) : sampleAt (List.replicate N z) j = toComplexNumber z :=
  sampleAt_of_getElem? (by rw [List.getElem?_replicate, if_pos hj])

theorem sampleAt_cons_replicate {M j : Nat} (y z : Cx ℝ) (hj : j < M + 1) :
    sampleAt (y :: List.replicate M z) j = if j = 0 then toComplexNumber y else toComplexNumber z := by
  cases j with
  | zero => rfl
  | succ j => exact sampleAt_replicate z (by omega)

theorem toComplexNumber_natCast_mul (N : Nat) (c : Cx ℝ) : toComplexNumber ⟨N * c.re, N * c.im⟩ = N * toComplexNumber c := by
  rw [← Complex.ofReal_natCast]
  exact Complex.ext (Complex.re_ofReal_mul N (toComplexNumber c)).symm (Complex.im_ofReal_mul N (toComplexNumber c)).symm

theorem toComplexNumber_zero : toComplexNumber ⟨0, 0⟩ = 0 := rfl

theorem toComplexNumber_one : toComplexNumber ⟨1, 0⟩ = 1 := rfl

section
variable (d : Draw) (n : Nat)

theorem fft_ideal_constant (c : Cx ℝ) : fft ideal d n (List.replicate (2 ^ n) c) =
    ⟨2 ^ n * c.re, 2 ^ n * c.im⟩ :: List.replicate (2 ^ n - 1) ⟨0, 0⟩ := by
  have hpos := Nat.two_pow_pos n
  have hlen : (List.replicate (2 ^ n) c).length = 2 ^ n := List.length_replicate
  have hbin : toComplexNumber ⟨2 ^ n * c.re, 2 ^ n * c.im⟩ = (2 ^ n : Nat) * toComplexNumber c := by
    rw [← toComplexNumber_natCast_mul, Nat.cast_pow, Nat.cast_ofNat]
  refine eq_of_sampleAt (fft_length ideal d n _ hlen) (by simp; omega) fun k hk => ?_
  rw [fft_ideal_sampleAt d hlen hk, powerSum_congr _ fun j hj => sampleAt_replicate c hj,
    powerSum_constant (rootOf_primitive .forward (by positivity)) _ hk, sampleAt_cons_replicate _ _ (by omega), hbin,
    toComplexNumber_zero]

theorem fft_ideal_impulse :
    fft ideal d n (⟨1, 0⟩ :: List.replicate (2 ^ n - 1) ⟨0, 0⟩) = List.replicate (2 ^ n) ⟨1, 0⟩ := by
  have hpos := Nat.two_pow_pos n
  have hlen : ((⟨1, 0⟩ : Cx ℝ) :: List.replicate (2 ^ n - 1) ⟨0, 0⟩).length = 2 ^ n := by simp; omega
  refine eq_of_sampleAt (fft_length ideal d n _ hlen) List.length_replicate fun k hk => ?_
  rw [fft_ideal_sampleAt d hlen hk, powerSum_congr _ fun j hj => sampleAt_cons_replicate ⟨1, 0⟩ ⟨0, 0⟩ (by omega),
    sampleAt_replicate _ hk, powerSum, Finset.sum_eq_single 0]
  · simp [toComplexNumber_one]
  · intro j _ hj
    rw [if_neg hj, toComplexNumber_zero, zero_mul]
  · exact fun h => absurd (Finset.mem_range.mpr hpos) h

theorem sum_sampleAt (x : List (Cx ℝ)) : ∑ j ∈ range x.length, sampleAt x j = (x.map toComplexNumber).sum := by
  induction x with
  | nil => rfl
  | cons z x ih =>
    rw [List.length_cons, Finset.sum_range_succ', List.map_cons, List.sum_cons, ← ih, add_comm]
    rfl

/-- Bin 0 is the sum of the samples. -/
theorem fft_ideal_bin_zero {x : List (Cx ℝ)} (hx : x.length = 2 ^ n) :
    ((fft ideal d n x).map toComplexNumber)[0]? = some (x.map toComplexNumber).sum := by
  have hpos := Nat.two_pow_pos n
  rw [getElem?_map_toComplexNumber (by rwa [fft_length ideal d n x hx]), fft_ideal_sampleAt d hx hpos, ← sum_sampleAt, hx,
    powerSum]
  simp only [Nat.mul_zero, pow_zero, mul_one]

end

/-- Settles O55: each property of the sums of powers, read off sample by sample. -/
theorem idealTransformProperties : Obligations.IdealTransformProperties := by
  refine ⟨fun d d' n x hx => ideal_roundTrip d d' hx, fun d n x y z a b hx hy hz hlin k hk => ?_, fft_ideal_constant,
    fft_ideal_impulse, fun d n x hx => fft_ideal_bin_zero d n hx⟩
  change sampleAt (fft ideal d n z) k = a * sampleAt (fft ideal d n x) k + b * sampleAt (fft ideal d n y) k
  rw [fft_ideal_sampleAt d hx hk, fft_ideal_sampleAt d hy hk, fft_ideal_sampleAt d hz hk]
  exact (powerSum_congr _ hlin k).trans (powerSum_linear _ a b _ _ _ k)

end Sys2Proof.Machine
end

section
/-! SUPPORT. The host's rounding to an integer (48_host_collaborators.md R192) as the library's `round` of the magnitude with the
sign put back, from which its distance and its ties follow. -/

namespace Sys2Proof.Machine

/-- The library's `round` of a quotient, which sends halves up, in natural numbers. -/
theorem round_natCast_div (a : Nat) {b : Nat} (hb : 0 < b) : round ((a : ℚ) / b) = ((2 * a + b) / (2 * b) : Nat) := by
  have hb' : (b : ℚ) ≠ 0 := by positivity
  rw [round_eq, Int.natCast_div, ← Rat.floor_natCast_div_natCast]
  congr 1
  push_cast
  field_simp

/-- The magnitude rounded with halves going up, which is away from zero, and the sign put back. -/
theorem roundHalfAway_eq (r : F) : roundHalfAway r = (if signBit r then -1 else 1) * round |value r| := by
  have hround : round |value r| = ((2 * units r + 2 ^ 1074) / 2 ^ 1075 : Nat) := by
    rw [abs_value, show 1075 = 1074 + 1 from rfl, pow_succ' 2 1074, ← round_natCast_div _ (by positivity), Nat.cast_pow,
      Nat.cast_two]
  rw [hround, roundHalfAway]
  generalize (2 * units r + 2 ^ 1074) / 2 ^ 1075 = m
  cases signBit r <;> simp

theorem roundHalfAway_of_value_eq {r : F} {n : Int} (h : value r = n) : roundHalfAway r = n := by
  have hsign := value_eq_sign_mul_abs r
  rw [roundHalfAway_eq]
  rw [h, ← Int.cast_abs] at hsign ⊢
  rw [round_intCast]
  exact_mod_cast hsign.symm

theorem abs_value_sub_roundHalfAway (r : F) : |value r - roundHalfAway r| = |(|value r| - round |value r|)| := by
  have hsign : |if signBit r then (-1 : ℚ) else 1| = 1 := by cases signBit r <;> simp
  conv_lhs => rw [value_eq_sign_mul_abs r, roundHalfAway_eq, Int.cast_mul]
  push_cast
  rw [← mul_sub, abs_mul, hsign, one_mul]

theorem abs_roundHalfAway (r : F) : |roundHalfAway r| = |round (|value r|)| := by
  rw [roundHalfAway_eq, abs_mul]
  cases signBit r <;> simp

/-- On a tie `round` goes up from the magnitude. -/
theorem abs_value_lt_roundHalfAway {r : F} (h : |value r - roundHalfAway r| = 1 / 2) :
    |value r| < |(roundHalfAway r : ℚ)| := by
  have hlow := sub_half_lt_round |value r|
  rw [abs_value_sub_roundHalfAway, abs_eq (by norm_num)] at h
  rw [← Int.cast_abs, abs_roundHalfAway, Int.cast_abs]
  rcases h with h | h
  · linarith
  · exact lt_of_lt_of_le (by linarith) (le_abs_self _)

/-- Settles O58: the distance and the tie from `round` of the magnitude, the examples by evaluation. -/
theorem roundsHalvesAway : Obligations.RoundsHalvesAway := by
  refine ⟨fun r _ => ⟨?_, abs_value_lt_roundHalfAway⟩, by decide +kernel, by decide +kernel⟩
  rw [abs_value_sub_roundHalfAway]
  exact abs_sub_round _

end Sys2Proof.Machine
end

section
/-! SUPPORT. The conversion of one sample to PCM, an equation for each row of R191, and the list of the lossy events; an integer in
range comes back as it was (48_host_collaborators.md R190, R193). -/

namespace Sys2Proof.Machine

/-! ## One sample -/

section
variable {c : Sample}

theorem toPcm1_of_isNaN (h : isNaN c.re = true) : toPcm1 c = (0#16, .lossy) := by simp only [toPcm1, h, if_true]

theorem toPcm1_of_isInf (h : isInf c.re = true) :
    toPcm1 c = (if signBit c.re then BitVec.ofInt 16 (-32768) else 32767#16, .lossy) := by
  simp only [toPcm1, isNaN_of_isInf h, h, if_true, Bool.false_eq_true, if_false]
  split <;> rfl

/-- A finite number is rounded and clamped. -/
theorem toPcm1_of_isFinite (h : isFinite c.re = true) :
    toPcm1 c = if roundHalfAway c.re > 32767 then (32767#16, .lossy)
      else if roundHalfAway c.re < -32768 then (BitVec.ofInt 16 (-32768), .lossy)
      else (BitVec.ofInt 16 (roundHalfAway c.re), .exact) := by
  simp only [toPcm1, isNaN_of_isFinite h, isInf_of_isFinite h, Bool.false_eq_true, if_false]

theorem toPcm1_of_gt (h : isFinite c.re = true) (hq : 32767 < roundHalfAway c.re) : toPcm1 c = (32767#16, .lossy) := by
  rw [toPcm1_of_isFinite h, if_pos hq]

theorem toPcm1_of_lt (h : isFinite c.re = true) (hq : roundHalfAway c.re < -32768) :
    toPcm1 c = (BitVec.ofInt 16 (-32768), .lossy) := by
  rw [toPcm1_of_isFinite h, if_neg (by omega), if_pos hq]

theorem toPcm1_of_inRange (h : isFinite c.re = true) (hlo : -32768 ≤ roundHalfAway c.re) (hhi : roundHalfAway c.re ≤ 32767) :
    toPcm1 c = (BitVec.ofInt 16 (roundHalfAway c.re), .exact) := by
  rw [toPcm1_of_isFinite h, if_neg (by omega), if_neg (by omega)]

end

/-- A 16-bit integer is a binary64 number, so it comes back unchanged whatever the imaginary part (R193). -/
theorem toPcm1_ofInt (v : Pcm) (im : F) : toPcm1 ⟨ofInt v.toInt, im⟩ = (v, .exact) := by
  have hlo := BitVec.le_toInt v
  have hhi := BitVec.toInt_le (x := v)
  obtain ⟨hfin, hval⟩ := ofInt_exact (n := v.toInt) (by omega)
  have hq := roundHalfAway_of_value_eq hval
  rw [← hq] at hlo hhi
  rw [toPcm1_of_inRange (c := ⟨ofInt v.toInt, im⟩) hfin hlo hhi, hq, BitVec.ofInt_toInt]

/-! ## A sequence -/

theorem mem_toPcm_lossy {y : List Sample} {i : Nat} :
    i ∈ (toPcm y).2 ↔ ∃ c, y[i]? = some c ∧ (toPcm1 c).2 = .lossy := by
  simp only [toPcm, List.mem_filter, List.mem_range, decide_eq_true_eq, Option.map_eq_some_iff, and_iff_right_iff_imp]
  rintro ⟨c, hc, -⟩
  exact (List.getElem?_eq_some_iff.mp hc).1

theorem toPcm_lossy_sorted (y : List Sample) : (toPcm y).2.Pairwise (· < ·) := List.pairwise_lt_range.filter _

/-- Settles O57: an equation for each row of R191, and the filter of the indices for the list of events. -/
theorem pcmClampsAndReports : Obligations.PcmClampsAndReports := by
  refine ⟨fun c => ⟨toPcm1_of_isNaN, toPcm1_of_isInf, toPcm1_of_gt, toPcm1_of_lt, fun h hlo hhi => ?_, fun im => rfl⟩,
    fun y => ⟨rfl, toPcm_lossy_sorted y, fun i => mem_toPcm_lossy⟩⟩
  rw [toPcm1_of_inRange h hlo hhi]
  exact ⟨BitVec.toInt_ofInt_eq_self (by decide) hlo (Int.lt_add_one_of_le hhi), rfl⟩

/-- Settles O56: each sample comes back by `toPcm1_ofInt`, so no index is listed. -/
theorem conversionRoundTrip : Obligations.ConversionRoundTrip := by
  refine fun s => Prod.ext ?_ (List.eq_nil_iff_forall_not_mem.mpr fun i hi => ?_)
  · simp [toPcm, toComplex, Function.comp_def, toPcm1_ofInt]
  · obtain ⟨c, hc, hlossy⟩ := mem_toPcm_lossy.mp hi
    obtain ⟨v, -, rfl⟩ := List.mem_map.mp (List.mem_of_getElem? hc)
    rw [toPcm1_ofInt] at hlossy
    cases hlossy

end Sys2Proof.Machine
end

section
/-! SUPPORT. The padded length (48_host_collaborators.md R194) is two to the rounded-up logarithm of the length. -/

namespace Sys2Proof.Machine

theorem clog_two_eq {n : Nat} (hn : 2 ≤ n) : Nat.clog 2 n = Nat.log2 (n - 1) + 1 := by
  have hlo : 2 ^ Nat.log2 (n - 1) ≤ n - 1 := Nat.log2_self_le (by omega)
  have hhi : n - 1 < 2 ^ (Nat.log2 (n - 1) + 1) := Nat.lt_log2_self
  refine le_antisymm (Nat.clog_le_of_le_pow (by omega)) ?_
  exact (Nat.lt_clog_iff_pow_lt one_lt_two).mpr (by omega)

theorem padLength_zero : padLength 0 = none := rfl

theorem padLength_eq {n : Nat} (hn : 1 ≤ n) : padLength n = some (2 ^ Nat.clog 2 n) := by
  rw [padLength, if_neg (by omega)]
  split
  · next h => rw [h, Nat.clog_one_right, pow_zero]
  · rw [clog_two_eq (by omega)]

theorem padLength_two_pow (m : Nat) : padLength (2 ^ m) = some (2 ^ m) := by
  rw [padLength_eq Nat.one_le_two_pow, Nat.clog_pow 2 m one_lt_two]

/-- Settles O59: the rounded-up logarithm is the least exponent that reaches the length. -/
theorem padLengthIsLeast : Obligations.PadLengthIsLeast := by
  refine ⟨padLength_zero, fun n hn => ⟨2 ^ Nat.clog 2 n, padLength_eq hn, ⟨_, rfl⟩, Nat.le_pow_clog one_lt_two n, ?_⟩,
    padLength_two_pow, by decide +kernel⟩
  exact fun m hm => Nat.pow_le_pow_right two_pos (Nat.clog_le_of_le_pow hm)

end Sys2Proof.Machine
end

section
/-! SUPPORT. The rows of spec/opcode_table.json are the legal descriptors but for R80c (30_encoding.md R73, R79, R80): a match
with a row fixes the opcode and the unused fields, and the descriptor of a command lies in the row of the command. -/

namespace Sys2Proof

/-! ## A descriptor in a row -/

/-- Where the mask has no zero, a match fixes the bits. -/
theorem extractLsb'_of_matches {D mask pattern : Word} {start w : Nat} (h : D &&& mask = pattern)
    (hmask : (~~~mask).extractLsb' start w = 0#w) : D.extractLsb' start w = pattern.extractLsb' start w := by
  have hsplit : D = pattern ||| D &&& ~~~mask := by
    rw [← h, ← BitVec.and_or_distrib_left, BitVec.or_not_self, BitVec.and_allOnes]
  rw [hsplit, BitVec.extractLsb'_or, BitVec.extractLsb'_and, hmask, BitVec.and_zero, BitVec.or_zero]

section
variable {D mask pattern : Word} (h : D &&& mask = pattern)
include h

theorem unused_of_matches {start w : Nat} {used : Bool} (hmask : used = true ∨ (~~~mask).extractLsb' start w = 0#w)
    (hpattern : used = true ∨ pattern.extractLsb' start w = 0#w) : used = true ∨ D.extractLsb' start w = 0#w := by
  rcases hmask with hused | hmask
  · exact .inl hused
  · rwa [extractLsb'_of_matches h hmask]

/-- R80b holds of every descriptor in a row, when the row fixes the fields the format does not use, and fixes them to zero. -/
theorem unusedZero_of_matches {u : Uses} (hmask : unusedZero u (~~~mask) = true) (hpattern : unusedZero u pattern = true) :
    unusedZero u D = true := by
  simp only [unusedZero, Bool.and_eq_true, Bool.or_eq_true, beq_iff_eq] at hmask hpattern ⊢
  obtain ⟨⟨⟨⟨⟨⟨⟨⟨mrd, mrd2⟩, mra⟩, mrb⟩, mrsv⟩, mdir⟩, ma⟩, mb⟩, mlen⟩ := hmask
  obtain ⟨⟨⟨⟨⟨⟨⟨⟨prd, prd2⟩, pra⟩, prb⟩, prsv⟩, pdir⟩, pa⟩, pb⟩, plen⟩ := hpattern
  exact ⟨⟨⟨⟨⟨⟨⟨⟨unused_of_matches h mrd prd, unused_of_matches h mrd2 prd2⟩, unused_of_matches h mra pra⟩,
    unused_of_matches h mrb prb⟩, (extractLsb'_of_matches h mrsv).trans prsv⟩, unused_of_matches h mdir pdir⟩,
    unused_of_matches h ma pa⟩, unused_of_matches h mb pb⟩, unused_of_matches h mlen plen⟩

theorem opField_of_matches (hmask : opField (~~~mask) = 0#8) : opField D = opField pattern := extractLsb'_of_matches h hmask

end

/-- The row says of a descriptor that its opcode is `op` and that the fields the format `f` does not use are zero. -/
def TableRow.HasFormat (row : TableRow) (op : BitVec 8) (f : Format) : Prop :=
  opField (~~~row.mask) = 0#8 ∧ opField row.pattern = op ∧
    unusedZero f.uses (~~~row.mask) = true ∧ unusedZero f.uses row.pattern = true

theorem TableRow.HasFormat.fields {row : TableRow} {op : BitVec 8} {f : Format} {D : Word} (hrow : row.HasFormat op f)
    (h : D &&& row.mask = row.pattern) : opField D = op ∧ unusedZero f.uses D = true := by
  obtain ⟨hop, hopcode, hmask, hpattern⟩ := hrow
  exact ⟨(opField_of_matches h hop).trans hopcode, unusedZero_of_matches h hmask hpattern⟩

/-- The format of each opcode that names an operation (R73, R78). -/
def opcodeFormats : List (BitVec 8 × Format) :=
  [(0x00#8, .Z), (0x01#8, .R3), (0x02#8, .R3), (0x03#8, .R3), (0x04#8, .RN), (0x08#8, .T1), (0x09#8, .T2), (0x0A#8, .T4),
    (0x10#8, .ML), (0x11#8, .MS), (0x18#8, .S), (0x20#8, .X)]

theorem hasFormat_of_mem_opcodeRows {row : TableRow} (h : row ∈ Machine.opcodeRows) :
    ∃ p ∈ opcodeFormats, row.HasFormat p.1 p.2 := by
  revert row
  unfold TableRow.HasFormat
  decide

/-- R79: the opcode, the unused fields and, for BFLY, the two destinations are all the decoder asks about. -/
theorem decode_of_format {D : Word} {p : BitVec 8 × Format} (hp : p ∈ opcodeFormats) (hop : opField D = p.1)
    (hzero : unusedZero p.2.uses D = true) (hbfly : ¬(opField D = 0x0A#8 ∧ rdBits D = rd2Bits D)) :
    ∃ i, decode D = .ok i := by
  simp only [opcodeFormats, List.mem_cons, List.not_mem_nil, or_false] at hp
  have hne : opField D = 0x0A#8 → regOf (rdBits D) ≠ regOf (rd2Bits D) := fun h heq => hbfly ⟨h, congrArg regBits heq⟩
  rcases hp with rfl | rfl | rfl | rfl | rfl | rfl | rfl | rfl | rfl | rfl | rfl | rfl
  all_goals simp [decode, hop, inFormat, hzero, hne]

/-! ## The descriptor of a command -/

/-- The encoding of a command lies in the command's own row. -/
theorem encode_matches : ∀ i : Instr, encode i &&& (tableRow i).mask = (tableRow i).pattern
  | .nop => Laws.MatchesTable.nop
  | .cadd rd ra rb => Laws.MatchesTable.cadd rd ra rb
  | .csub rd ra rb => Laws.MatchesTable.csub rd ra rb
  | .cmul rd ra rb => Laws.MatchesTable.cmul rd ra rb
  | .cdivn rd ra len => Laws.MatchesTable.cdivn rd ra len
  | .twid rd dir k len => Laws.MatchesTable.twid rd dir k len
  | .twmul rd ra dir k len => Laws.MatchesTable.twmul rd ra dir k len
  | .bfly rd rd2 ra rb dir k len => Laws.MatchesTable.bfly rd rd2 ra rb dir k len
  | .cld rd a => Laws.MatchesTable.cld rd a
  | .cst ra a => Laws.MatchesTable.cst ra a
  | .bitrev a b len => Laws.MatchesTable.bitrev a b len
  | .fft a b len => Laws.MatchesTable.fft a b len
  | .ifft a b len => Laws.MatchesTable.ifft a b len

theorem tableRow_mem_opcodeRows (i : Instr) : tableRow i ∈ Machine.opcodeRows := by
  cases i <;> simp [Machine.opcodeRows, tableRow]

/-- R80c, read off the bits of the descriptor. -/
theorem rdBits_ne_of_wellFormed {i : Instr} (hwf : WellFormed i) (hop : opField (encode i) = 0x0A#8) :
    rdBits (encode i) ≠ rd2Bits (encode i) := by
  cases i with
  | bfly rd rd2 ra rb dir k len =>
    rw [encode, rdBits_pack, rd2Bits_pack]
    exact fun heq => wellFormed_bfly.mp hwf (congrArg regOf heq)
  | _ => simp [encode] at hop

/-! ## The legal descriptors -/

/-- A descriptor is legal exactly when it lies in a row of the table and is not a BFLY with equal destinations (R79, R80). -/
theorem exists_decode_eq_ok_iff {D : Word} : (∃ i, decode D = .ok i) ↔
    (∃ row ∈ Machine.opcodeRows, D &&& row.mask = row.pattern) ∧ ¬(opField D = 0x0A#8 ∧ rdBits D = rd2Bits D) := by
  constructor
  · rintro ⟨i, hi⟩
    obtain ⟨hwf, rfl⟩ := encodeOfDecode D i hi
    exact ⟨⟨tableRow i, tableRow_mem_opcodeRows i, encode_matches i⟩, fun h => rdBits_ne_of_wellFormed hwf h.1 h.2⟩
  · rintro ⟨⟨row, hrow, hmatch⟩, hbfly⟩
    obtain ⟨p, hp, hformat⟩ := hasFormat_of_mem_opcodeRows hrow
    obtain ⟨hop, hzero⟩ := hformat.fields hmatch
    exact decode_of_format hp hop hzero hbfly

theorem exists_decode_eq_error_iff {D : Word} : (∃ e, decode D = .error e) ↔
    (∀ row ∈ Machine.opcodeRows, D &&& row.mask ≠ row.pattern) ∨ (opField D = 0x0A#8 ∧ rdBits D = rd2Bits D) := by
  have hnot : (∃ e, decode D = .error e) ↔ ¬∃ i, decode D = .ok i := by cases decode D <;> simp
  rw [hnot, exists_decode_eq_ok_iff, not_and_or, not_not]
  push Not
  rfl

end Sys2Proof
end

section
/-! SUPPORT. Every operation makes the checks of 60_exceptions.md R218 that apply to it, in the order of their codes, and the
first that fails answers; no check and no effect reads a status register (R222). -/

namespace Sys2Proof.Machine

/-! ## One check: its error, and when it fails -/

section
variable (s : State) (k len a b : Nat)

@[simp] theorem error_lengthCheck : (lengthCheck len).error = .length := rfl
@[simp] theorem error_resourceCheck : (resourceCheck s len).error = .resource := rfl
@[simp] theorem error_indexCheck : (indexCheck k len).error = .index := rfl
@[simp] theorem error_wordCheck : (wordCheck s a).error = .address := rfl
@[simp] theorem error_rangeCheck : (rangeCheck s a len).error = .address := rfl
@[simp] theorem error_overlapCheck : (overlapCheck a b len).error = .overlap := rfl

@[simp] theorem lengthCheck_fails : (lengthCheck len).holds = false ↔ ¬∃ n, len = 2 ^ n := by
  rw [← isPow2_iff, Bool.not_eq_true, lengthCheck]

@[simp] theorem resourceCheck_fails : (resourceCheck s len).holds = false ↔ s.cfg.lenMax < len := by simp [resourceCheck]

@[simp] theorem indexCheck_fails : (indexCheck k len).holds = false ↔ len / 2 ≤ k := by simp [indexCheck]

@[simp] theorem wordCheck_fails : (wordCheck s a).holds = false ↔ s.cfg.smSize ≤ a := by simp [wordCheck]

@[simp] theorem rangeCheck_fails : (rangeCheck s a len).holds = false ↔ s.cfg.smSize < a + len := by simp [rangeCheck]

@[simp] theorem overlapCheck_fails : (overlapCheck a b len).holds = false ↔ a < b + len ∧ b < a + len := by
  simp [overlapCheck, overlap]

end

/-! ## The checks of a command (R218) -/

/-- The steps of R218 in their order, each made when the command names what it looks at. -/
def checksOf (s : State) (i : Instr) : List Check :=
  let lengths := (lengthOf i).toList
  let indices := (indexOf i).toList.product lengths
  let ranges := (basesOf i).toList.product lengths
  lengths.map lengthCheck ++ lengths.map (resourceCheck s) ++ indices.map (fun p => indexCheck p.1 p.2) ++
    (wordOf i).toList.map (wordCheck s) ++ ranges.map (fun p => rangeCheck s p.1.1 p.2) ++
    ranges.map (fun p => rangeCheck s p.1.2 p.2) ++ ranges.map fun p => overlapCheck p.1.1 p.1.2 p.2

/-- These are the checks each operation makes.  What it then writes is registers and sample memory, by values that read no status
register. -/
theorem exec_eq_command_checksOf (i : Instr) : ∃ effect : State → State,
    (∀ s, exec i s = command (checksOf s i) effect s) ∧
    ∀ s v w, ∃ regs sm, effect s = { s with regs := regs, sm := sm } ∧
      effect { s with status := v, errflags := w } = { s with status := v, errflags := w, regs := regs, sm := sm } := by
  cases i <;> exact ⟨_, fun s => rfl, fun s v w => ⟨_, _, rfl, rfl⟩⟩

/-- The column "applies to" of R218, read off the checks made: a clause of `CheckFails` is the failure of the checks with its
error. -/
theorem checkFails_iff {s : State} {i : Instr} {e : Response} :
    CheckFails s.cfg i e ↔ ∃ c ∈ checksOf s i, c.holds = false ∧ c.error = e := by
  simp only [checksOf, List.mem_append, List.mem_map, or_and_right, exists_or, exists_exists_and_eq_and, error_lengthCheck,
    error_resourceCheck, error_indexCheck, error_wordCheck, error_rangeCheck, error_overlapCheck, lengthCheck_fails,
    resourceCheck_fails, indexCheck_fails, wordCheck_fails, rangeCheck_fails, overlapCheck_fails]
  cases e <;> simp [CheckFails, and_assoc, or_assoc, and_or_left, exists_or, -exists_and_right]

/-- The codes number the steps of R218 in their order. -/
theorem checksOf_sorted (s : State) (i : Instr) :
    (checksOf s i).Pairwise fun c c' => c.error.code.toNat ≤ c'.error.code.toNat := by
  cases i <;> simp [checksOf, lengthOf, indexOf, wordOf, basesOf, List.product, Response.code]

/-! ## The first check that fails (R218) -/

/-- In a list sorted by code, the first failure is a failure of least code. -/
theorem firstFailure_least {checks : List Check} {e : Response} (h : firstFailure checks = some e)
    (hsorted : checks.Pairwise fun c c' => c.error.code.toNat ≤ c'.error.code.toNat) :
    (∃ c ∈ checks, c.holds = false ∧ c.error = e) ∧
      ∀ c ∈ checks, c.holds = false → e.code.toNat ≤ c.error.code.toNat := by
  induction checks with
  | nil => cases h
  | cons c cs ih =>
    obtain ⟨hhead, htail⟩ := List.pairwise_cons.mp hsorted
    rw [firstFailure] at h
    split at h
    case isTrue hc =>
      obtain ⟨⟨c', hmem, hfails⟩, hleast⟩ := ih h htail
      refine ⟨⟨c', List.mem_cons_of_mem c hmem, hfails⟩, List.forall_mem_cons.mpr ⟨fun hf => ?_, hleast⟩⟩
      exact absurd (hc.symm.trans hf) (by decide)
    case isFalse hc =>
      cases h
      exact ⟨⟨c, List.mem_cons_self, eq_false_of_ne_true hc, rfl⟩,
        List.forall_mem_cons.mpr ⟨fun _ => le_refl _, fun c' hc' _ => hhead c' hc'⟩⟩

section
variable {s : State} {i : Instr}

theorem firstFailure_checksOf_eq_none : firstFailure (checksOf s i) = none ↔ ∀ e, ¬CheckFails s.cfg i e := by
  rw [firstFailure_eq_none]
  constructor
  · intro h e hfails
    obtain ⟨c, hc, hf, -⟩ := checkFails_iff.mp hfails
    exact absurd ((h c hc).symm.trans hf) (by decide)
  · intro h c hc
    by_contra hf
    exact h c.error (checkFails_iff.mpr ⟨c, hc, eq_false_of_ne_true hf, rfl⟩)

theorem firstFailure_checksOf_eq_some {e : Response} (h : firstFailure (checksOf s i) = some e) :
    CheckFails s.cfg i e ∧ ∀ e', e'.code.toNat < e.code.toNat → ¬CheckFails s.cfg i e' := by
  obtain ⟨hfails, hleast⟩ := firstFailure_least h (checksOf_sorted s i)
  refine ⟨checkFails_iff.mpr hfails, fun e' hlt hfails' => ?_⟩
  obtain ⟨c, hc, hf, rfl⟩ := checkFails_iff.mp hfails'
  exact absurd (hleast c hc hf) hlt.not_ge

end

/-- A command is answered by the first of its checks that fails, or OK. -/
theorem exec_answers_firstFailure (i : Instr) (s : State) :
    ∃ t, exec i s = .next t ∧ Responded ((firstFailure (checksOf s i)).getD .ok) s t := by
  obtain ⟨effect, hexec, hwrites⟩ := exec_eq_command_checksOf i
  rw [hexec]
  rcases command_cases (checksOf s i) effect s with ⟨hpass, h⟩ | ⟨e, hfail, h⟩
  · obtain ⟨regs, sm, heffect, -⟩ := hwrites s s.status s.errflags
    rw [hpass, h, heffect]
    exact ⟨_, rfl, (succeeded_withData s regs sm).responded⟩
  · rw [hfail, h]
    exact ⟨_, rfl, responded_respond s e⟩

/-- Settles O23: the checks made are those that apply, sorted by their codes, so the first failure is the one of least code. -/
theorem firstFailingCheckAnswers : Obligations.FirstFailingCheckAnswers := by
  intro D s
  cases hD : decode D with
  | error e =>
    exact ⟨_, .illegal, issue_of_decode_error hD s, responded_respond s .illegal, fun _ _ => rfl, fun i hi => by cases hi⟩
  | ok i =>
    obtain ⟨t, h, hresp⟩ := exec_answers_firstFailure i s
    refine ⟨t, _, (issue_of_decode_ok hD s).trans h, hresp, fun e he => (by cases he), fun j hj => ?_⟩
    cases hj
    cases hfirst : firstFailure (checksOf s i) with
    | none => exact ⟨iff_of_true rfl (firstFailure_checksOf_eq_none.mp hfirst), fun hne => absurd rfl hne⟩
    | some e =>
      obtain ⟨hfails, hearlier⟩ := firstFailure_checksOf_eq_some hfirst
      have hne : e ≠ .ok := by rintro rfl; exact hfails
      exact ⟨iff_of_false hne fun hnone => hnone e hfails, fun _ => ⟨hfails, hearlier⟩⟩

/-! ## Errors (R211, R216) -/

/-- Settles O24: the answer tells the two ends of a command apart, and the error effects are precise. -/
theorem errorsArePrecise : Obligations.ErrorsArePrecise := by
  intro D s t e ht hanswer he
  rcases issue_ends D s with ⟨regs, sm, h⟩ | ⟨e', h⟩
  · cases h.symm.trans ht
    have hok : Response.ok = e := by simpa using hanswer
    exact absurd hok.symm he
  · cases h.symm.trans ht
    obtain rfl : e' = e := by simpa using hanswer
    exact failed_raiseError s he

/-- Settles O4: no check of R218 has the error `ERR_ILLEGAL`, so only the decoder gives it, for the descriptors outside the
table and for BFLY with equal destinations. -/
theorem illegalDescriptorsAnswered : Obligations.IllegalDescriptorsAnswered := by
  intro D s
  obtain ⟨t, r, h, hresp, herror, hok⟩ := firstFailingCheckAnswers D s
  have hillegal : r = .illegal ↔ ∃ e, decode D = .error e := by
    refine ⟨fun hr => ?_, fun ⟨e, he⟩ => herror e he⟩
    subst hr
    cases hD : decode D with
    | error e => exact ⟨e, rfl⟩
    | ok i => exact ((hok i hD).2 (by decide)).1.elim
  exact ⟨t, r, h, hresp, hillegal, hillegal.trans exists_decode_eq_error_iff,
    fun hr => errorsArePrecise D s t .illegal h (hr ▸ hresp.answer) (by decide)⟩

/-! ## The status registers (R222) -/

/-- With other contents of the status registers, a command leads to the same state but for these two registers. -/
theorem exec_of_status (i : Instr) (s : State) (v w : BitVec 32) : ∃ t v' w', exec i s = .next t ∧
    exec i { s with status := v, errflags := w } = .next { t with status := v', errflags := w' } := by
  obtain ⟨effect, hexec, hwrites⟩ := exec_eq_command_checksOf i
  obtain ⟨regs, sm, heffect, heffect'⟩ := hwrites s v w
  have hchecks : checksOf { s with status := v, errflags := w } i = checksOf s i := rfl
  rw [hexec, hexec, hchecks]
  cases hfirst : firstFailure (checksOf s i) with
  | none =>
    rw [command_of_pass _ _ hfirst, command_of_pass _ _ hfirst, heffect, heffect']
    exact ⟨_, _, _, rfl, rfl⟩
  | some e =>
    rw [command_of_fail _ _ hfirst, command_of_fail _ _ hfirst]
    exact ⟨_, _, _, rfl, rfl⟩

theorem issue_of_status (D : Word) (s : State) (v w : BitVec 32) : ∃ t v' w', issue D s = .next t ∧
    issue D { s with status := v, errflags := w } = .next { t with status := v', errflags := w' } := by
  cases hD : decode D with
  | ok i => simpa only [issue_of_decode_ok hD] using exec_of_status i s v w
  | error e =>
    rw [issue_of_decode_error hD, issue_of_decode_error hD]
    exact ⟨_, _, _, rfl, rfl⟩

/-- Settles O30: the two next states differ in the status registers alone; not even the free bits of a NaN differ. -/
theorem statusDoesNotAffectCommands : Obligations.StatusDoesNotAffectCommands := by
  intro D s v w
  obtain ⟨t, v', w', h, h'⟩ := issue_of_status D s v w
  exact ⟨t, _, h, h', fun i => .refl (t.reg i), fun x => .refl (t.word x), rfl⟩

end Sys2Proof.Machine
end
